-- ==== Sys2Proof/Word.lean ====
section
/-! DEFINITION. The units of data the spec moves: bytes of the stream and of memory, 32-bit registers and output words
(spec/00_scope.md R8, R10; spec/20_memory.md R50). -/

namespace Sys2Proof

/-- A byte of memory or of the compressed line (`u8`). -/
abbrev Byte := BitVec 8

/-- A host register, an address, an output word or the accumulator (`u32` or `i32`). -/
abbrev Word := BitVec 32

end Sys2Proof
end

