-- ==== Sys2Proof/Config.lean ====
section
/-! DEFINITION. What is fixed for the machine: the format constants of spec/00_scope.md R7 and the one free value of the spec. -/

namespace Sys2Proof.Config

/-- HALF_SLOTS (R7): the slots of a half-block. -/
abbrev halfSlots : Nat := 8
/-- BLOCK_SLOTS (R7): the slots of a block. -/
abbrev blockSlots : Nat := 16
/-- ESC_SHORT_BYTE (R7): the lead byte of a token with a 16-bit literal. -/
abbrev escShortByte : Byte := 0xFE#8
/-- ESC_LONG_BYTE (R7): the lead byte of a token with a 32-bit literal. -/
abbrev escLongByte : Byte := 0xFF#8
/-- BIAS (R7): what is subtracted from the one-byte form. -/
abbrev bias : Nat := 127
/-- T_SHORT (R7): the provisional offset that a 16-bit literal replaces. -/
abbrev tShort : Int := 127
/-- T_LONG (R7): the least provisional offset that a 32-bit literal replaces. -/
abbrev tLong : Int := 128
/-- One past the last byte address (ADDR_BITS = 32, R8). -/
abbrev addrSpace : Nat := 4294967296
/-- The register window's length in bytes (spec/20_memory.md R46). -/
abbrev windowBytes : Nat := 32

/-- FREE VALUE. What a word of the output region holds after a reset in mid-operation: the spec gives it "an unspecified
value (a draw)" (spec/70_reset_and_hazards.md R162, I5). The argument is `State.draws`, a fresh number for each draw.
Log entry 8; safe: nothing can be proved of a value of it. -/
opaque freeWord : Nat → Word

end Sys2Proof.Config
end

