-- ==== Sys2Proof/Syntax.lean ====
section
/-! DEFINITION. The instructions: one constructor per row of spec/opcode_table.json, the contexts in which the decoder reads
them (spec/30_encoding.md R62, R76), and a host access as it stands on the bus (R75, spec/44_host_interface.md R129, R138). -/

namespace Sys2Proof

/-- The eight host registers, in the order of their offsets 0x00, 0x04, ..., 0x1C (spec/44_host_interface.md R130). -/
inductive Reg where
  | ctrl | status | inBase | inLen | outBase | width | produced | consumed
  deriving DecidableEq, Repr

/-- The three classes of the escape-literal mux (spec/30_encoding.md R70, spec/42_block.md R113). -/
inductive LitClass where
  | field | esc16 | esc32
  deriving DecidableEq, Repr

/-- The context a token is decoded in, with what the decoder needs of the block's state to find the token's length:
the half-block's width in BPACK and the slot's provisional offset in BRES (spec/30_encoding.md R62, R72). -/
inductive Ctx where
  | first
  | bctrl
  | bpack (n : BitVec 4)
  | bres (o : BitVec 16)
  | rem
  | host
  deriving DecidableEq, Repr

/-- The instructions. Operands are the token's own fields; a literal is the bits the stream holds, little-endian. -/
inductive Instr where
  /-- PIX.S32: first pixel, 32-bit literal (spec/41_first_pixel.md R101). -/
  | pixS32 (lit : Word)
  /-- PIX.S16: first pixel, 16-bit literal (R100). -/
  | pixS16 (lit : BitVec 16)
  /-- PIX.B: first pixel, bias-127 form (R99). -/
  | pixB (b : Byte)
  /-- BLK: control byte (spec/42_block.md R105). -/
  | blk (n0 n1 : BitVec 4)
  /-- HALF: the packed run of a half-block of width `n`, as the number P of spec/30_encoding.md R67 (R107). -/
  | half (n : BitVec 4) (run : BitVec 120)
  /-- SLOT.ESC32: the slot's offset is a 32-bit literal (R116). -/
  | slotEsc32 (lit : Word)
  /-- SLOT.ESC16: the slot's offset is a 16-bit literal (R115). -/
  | slotEsc16 (lit : BitVec 16)
  /-- SLOT.FIELD: the slot uses its provisional offset; no stream byte (R114). -/
  | slotField
  /-- DLT.S32: remainder delta, 32-bit literal (spec/43_remainder.md R126). -/
  | dltS32 (lit : Word)
  /-- DLT.S16: remainder delta, 16-bit literal (R125). -/
  | dltS16 (lit : BitVec 16)
  /-- DLT.B: remainder delta, bias-127 form (R124). -/
  | dltB (b : Byte)
  /-- HOST.START: write to CTRL with bit 0 set (spec/44_host_interface.md R135). -/
  | hostStart (data : Word)
  /-- HOST.CTRL0: write to CTRL with bit 0 clear (R136). -/
  | hostCtrl0 (data : Word)
  /-- HOST.WR.STATUS (R137). -/
  | hostWrStatus (data : Word)
  /-- HOST.WR.IN_BASE (R132). -/
  | hostWrInBase (data : Word)
  /-- HOST.WR.IN_LEN (R132). -/
  | hostWrInLen (data : Word)
  /-- HOST.WR.OUT_BASE (R133). -/
  | hostWrOutBase (data : Word)
  /-- HOST.WR.WIDTH (R132). -/
  | hostWrWidth (data : Word)
  /-- HOST.WR.PRODUCED (R137). -/
  | hostWrProduced (data : Word)
  /-- HOST.WR.CONSUMED (R137). -/
  | hostWrConsumed (data : Word)
  /-- HOST.RD (R131). -/
  | hostRd (r : Reg)
  deriving DecidableEq, Repr

/-- The rows of spec/opcode_table.json by name, without operands. -/
inductive Kind where
  | pixS32 | pixS16 | pixB | blk | half | slotEsc32 | slotEsc16 | slotField | dltS32 | dltS16 | dltB
  | hostStart | hostCtrl0 | hostWrStatus | hostWrInBase | hostWrInLen | hostWrOutBase | hostWrWidth
  | hostWrProduced | hostWrConsumed | hostRd
  deriving DecidableEq, Repr

/-- A host access as the bus carries it: any address and any size, which the decoder then checks (R138).
`data` is the value written; a read leaves it unused. -/
structure HostAccess where
  write : Bool
  addr : Word
  size : Nat
  data : Word
  deriving DecidableEq, Repr

end Sys2Proof
end

