-- ==== Sys2Proof/WellFormed.lean ====
section
/-! DEFINITION. Which instructions the encoding has: the operand ranges of spec/30_encoding.md R63, R67 and R75. -/

namespace Sys2Proof

/-- A one-byte single-pixel token has a lead byte of 0x00 to 0xFD (R63); a packed run of width `n` has `8n` bits (R67);
START has `data[0] = 1` and CTRL0 `data[0] = 0` (R75). Every other operand is free (R73). -/
def Instr.wellFormed : Instr → Bool
  | .pixB b => b.toNat ≤ 253
  | .dltB b => b.toNat ≤ 253
  | .half n run => run.toNat < 2 ^ (8 * n.toNat)
  | .hostStart data => data.getLsbD 0
  | .hostCtrl0 data => !data.getLsbD 0
  | .pixS32 _ | .pixS16 _ | .blk _ _ | .slotEsc32 _ | .slotEsc16 _ | .slotField | .dltS32 _ | .dltS16 _ => true
  | .hostWrStatus _ | .hostWrInBase _ | .hostWrInLen _ | .hostWrOutBase _ | .hostWrWidth _ => true
  | .hostWrProduced _ | .hostWrConsumed _ | .hostRd _ => true

end Sys2Proof
end

