-- ==== Sys2Proof/Decode.lean ====
section
/-! DEFINITION. The decoder, total on any bytes, and the encoder (spec/30_encoding.md). A token is read from the bytes at the
cursor in the block's context; a host access is read from its access key `(W, off[4:2])` (R76) followed, for a write, by the
four data bytes, least significant first (that byte form of an access is the model's own: log entry 11). -/

namespace Sys2Proof

/-- The names the decoder rejects by. The first five are a token cut short (spec/40_sequencer.md R86, R88), which is how an
operation on a short line ends and no error; the others are host accesses that the block does not decode (R138). -/
inductive DecodeError where
  /-- No lead byte in FIRST or REM. -/
  | noLeadByte
  /-- The lead byte 0xFE or 0xFF without its whole literal: the lead byte stays consumed (R88). -/
  | literalCut
  /-- No control byte in BCTRL. -/
  | noControlByte
  /-- Fewer than `n` bytes of a packed run in BPACK. -/
  | runCut
  /-- Fewer bytes than the slot's escape literal has, in BRES. -/
  | escapeCut
  /-- An access that is not 32 bits wide (R138). -/
  | accessWidth
  /-- An access that is not 4-byte aligned (R138). -/
  | accessMisaligned
  /-- An access outside the 32-byte window (R74, R138). -/
  | outsideWindow
  /-- Bytes that are no access key with its data. -/
  | badAccessKey
  deriving DecidableEq, Repr

/-- The stream bytes that a cut token has consumed all the same (R88). -/
def DecodeError.consumed : DecodeError → Nat
  | .literalCut => 1
  | .noLeadByte | .noControlByte | .runCut | .escapeCut => 0
  | .accessWidth | .accessMisaligned | .outsideWindow | .badAccessKey => 0

/-- Little-endian value of a byte list: LE16, LE32 and the packed run's P (R65, R67; spec/20_memory.md R47). -/
def leValue : List Byte → Nat
  | [] => 0
  | b :: bs => b.toNat + 256 * leValue bs

/-- The `n` low bytes of a number, least significant first. -/
def leBytes : Nat → Nat → List Byte
  | 0, _ => []
  | n + 1, v => BitVec.ofNat 8 v :: leBytes n (v / 256)

/-- The literal bytes that follow a lead byte: 4 after 0xFF, 2 after 0xFE, none otherwise (R64). -/
def leadLiteralLen (b : Byte) : Nat :=
  if b = Config.escLongByte then 4 else if b = Config.escShortByte then 2 else 0

/-- The class of a slot by its provisional offset; the 128 test comes first (R70, spec/42_block.md R113). -/
def literalClass (o : BitVec 16) : LitClass :=
  if Config.tLong ≤ o.toInt then .esc32 else if Config.tShort ≤ o.toInt then .esc16 else .field

/-- The literal bytes of a slot of a class (R70). -/
def LitClass.literalLen : LitClass → Nat
  | .field => 0
  | .esc16 => 2
  | .esc32 => 4

/-- The result of decoding: the instruction and the bytes after it, or the name of the rejection. -/
abbrev Decoded := Except DecodeError (Instr × List Byte)

/-- A single-pixel token (R63, R64). The constructors say whether it is a PIX or a DLT. -/
def decodeSingle (lit32 : Word → Instr) (lit16 : BitVec 16 → Instr) (short : Byte → Instr) : List Byte → Decoded
  | [] => .error .noLeadByte
  | b :: bs =>
    if bs.length < leadLiteralLen b then .error .literalCut
    else if b = Config.escLongByte then .ok (lit32 (BitVec.ofNat 32 (leValue (bs.take 4))), bs.drop 4)
    else if b = Config.escShortByte then .ok (lit16 (BitVec.ofNat 16 (leValue (bs.take 2))), bs.drop 2)
    else .ok (short b, bs)

/-- A control byte: nbit0 in bits 3:0, nbit1 in bits 7:4 (R66). -/
def decodeControl : List Byte → Decoded
  | [] => .error .noControlByte
  | c :: bs => .ok (.blk (c.extractLsb' 0 4) (c.extractLsb' 4 4), bs)

/-- A packed run of `n` bytes (R67). -/
def decodeRun (n : BitVec 4) (bs : List Byte) : Decoded :=
  if bs.length < n.toNat then .error .runCut
  else .ok (.half n (BitVec.ofNat 120 (leValue (bs.take n.toNat))), bs.drop n.toNat)

/-- A slot's escape literal, chosen by the provisional offset (R70). -/
def decodeSlot (o : BitVec 16) (bs : List Byte) : Decoded :=
  if bs.length < (literalClass o).literalLen then .error .escapeCut
  else match literalClass o with
    | .esc32 => .ok (.slotEsc32 (BitVec.ofNat 32 (leValue (bs.take 4))), bs.drop 4)
    | .esc16 => .ok (.slotEsc16 (BitVec.ofNat 16 (leValue (bs.take 2))), bs.drop 2)
    | .field => .ok (.slotField, bs)

/-- The register at offset `4 * k` (spec/44_host_interface.md R130). -/
def Reg.ofIndex (k : BitVec 3) : Reg :=
  if k = 0#3 then .ctrl else if k = 1#3 then .status else if k = 2#3 then .inBase else if k = 3#3 then .inLen
  else if k = 4#3 then .outBase else if k = 5#3 then .width else if k = 6#3 then .produced else .consumed

/-- A register's offset divided by 4. -/
def Reg.index : Reg → BitVec 3
  | .ctrl => 0#3 | .status => 1#3 | .inBase => 2#3 | .inLen => 3#3
  | .outBase => 4#3 | .width => 5#3 | .produced => 6#3 | .consumed => 7#3

/-- Which write an access performs: by its register and, for CTRL, by `data[0]` (R75). -/
def writeInstr (r : Reg) (data : Word) : Instr :=
  match r with
  | .ctrl => if data.getLsbD 0 then .hostStart data else .hostCtrl0 data
  | .status => .hostWrStatus data
  | .inBase => .hostWrInBase data
  | .inLen => .hostWrInLen data
  | .outBase => .hostWrOutBase data
  | .width => .hostWrWidth data
  | .produced => .hostWrProduced data
  | .consumed => .hostWrConsumed data

/-- A host access from its key byte `(W = 1, off[4:2])` in bits 3:0 and, for a write, its data bytes (R75, R76). -/
def decodeHost : List Byte → Decoded
  | [] => .error .badAccessKey
  | k :: bs =>
    if 16 ≤ k.toNat then .error .badAccessKey
    else if k.getLsbD 3 then
      if bs.length < 4 then .error .badAccessKey
      else .ok (writeInstr (Reg.ofIndex (k.extractLsb' 0 3)) (BitVec.ofNat 32 (leValue (bs.take 4))), bs.drop 4)
    else .ok (.hostRd (Reg.ofIndex (k.extractLsb' 0 3)), bs)

/-- The decoder: by context, then by the bytes (R62, R76). -/
def decode : Ctx → List Byte → Decoded
  | .first, bs => decodeSingle .pixS32 .pixS16 .pixB bs
  | .rem, bs => decodeSingle .dltS32 .dltS16 .dltB bs
  | .bctrl, bs => decodeControl bs
  | .bpack n, bs => decodeRun n bs
  | .bres o, bs => decodeSlot o bs
  | .host, bs => decodeHost bs

/-- The bytes a token is first read by: its lead or control byte, its whole run, its slot's literal (R72, R88). -/
def Ctx.leadLen : Ctx → Nat
  | .first | .rem | .bctrl | .host => 1
  | .bpack n => n.toNat
  | .bres o => (literalClass o).literalLen

/-- The bytes read after the first part of a token: a single-pixel token's literal, chosen by its lead byte (R64, R88). -/
def Ctx.tailLen : Ctx → List Byte → Nat
  | .first, b :: _ | .rem, b :: _ => leadLiteralLen b
  | .first, [] | .rem, [] | .bctrl, _ | .bpack _, _ | .bres _, _ | .host, _ => 0

/-- Whether an address lies in the 32-byte window at `base`, compared as mathematical integers (R74, spec/20_memory.md R46).
DESIGN CHOICE (log entry 20): the spec is silent on a REG_BASE above 0xFFFFFFE0; the window does not wrap, so the part of it
at and above 2^32 has no address, and no address below REG_BASE is ever in it. -/
def inWindow (base addr : Word) : Bool := decide (base.toNat ≤ addr.toNat ∧ addr.toNat < base.toNat + Config.windowBytes)

/-- A bus access as access-key bytes: 32 bits wide, 4-byte aligned and inside the window at `base`, or refused by name
(R74, spec/44_host_interface.md R129, R138; the order of the tests is log entry 10). -/
def accessBytes (base : Word) (a : HostAccess) : Except DecodeError (List Byte) :=
  let off := a.addr.toNat - base.toNat
  if a.size ≠ 4 then .error .accessWidth
  else if a.addr.toNat % 4 ≠ 0 then .error .accessMisaligned
  else if !inWindow base a.addr then .error .outsideWindow
  else if off % 4 ≠ 0 then .error .accessMisaligned
  else if a.write then .ok (BitVec.ofNat 8 (8 + off / 4) :: leBytes 4 a.data.toNat)
  else .ok [BitVec.ofNat 8 (off / 4)]

/-- A bus access to its instruction. -/
def decodeAccess (base : Word) (a : HostAccess) : Decoded :=
  match accessBytes base a with
  | .ok bs => decode .host bs
  | .error e => .error e

/-- The access key of a write to a register. -/
def writeKey (r : Reg) : Byte := 8#8 + r.index.setWidth 8

/-- The encoder: the bytes of an instruction, from the formats of R63, R66, R67, R70 and R75. -/
def encode : Instr → List Byte
  | .pixS32 lit | .dltS32 lit => Config.escLongByte :: leBytes 4 lit.toNat
  | .pixS16 lit | .dltS16 lit => Config.escShortByte :: leBytes 2 lit.toNat
  | .pixB b | .dltB b => [b]
  | .blk n0 n1 => [n1 ++ n0]
  | .half n run => leBytes n.toNat run.toNat
  | .slotEsc32 lit => leBytes 4 lit.toNat
  | .slotEsc16 lit => leBytes 2 lit.toNat
  | .slotField => []
  | .hostStart data | .hostCtrl0 data => writeKey .ctrl :: leBytes 4 data.toNat
  | .hostWrStatus data => writeKey .status :: leBytes 4 data.toNat
  | .hostWrInBase data => writeKey .inBase :: leBytes 4 data.toNat
  | .hostWrInLen data => writeKey .inLen :: leBytes 4 data.toNat
  | .hostWrOutBase data => writeKey .outBase :: leBytes 4 data.toNat
  | .hostWrWidth data => writeKey .width :: leBytes 4 data.toNat
  | .hostWrProduced data => writeKey .produced :: leBytes 4 data.toNat
  | .hostWrConsumed data => writeKey .consumed :: leBytes 4 data.toNat
  | .hostRd r => [r.index.setWidth 8]

/-- Which contexts an instruction belongs to (R61, R62; a HALF to BPACK at its own width, a slot to BRES at an offset of
its class). -/
def Instr.fits : Instr → Ctx → Bool
  | .pixS32 _, c | .pixS16 _, c | .pixB _, c => c = .first
  | .blk _ _, c => c = .bctrl
  | .half n _, c => c = .bpack n
  | .slotEsc32 _, .bres o => literalClass o = .esc32
  | .slotEsc16 _, .bres o => literalClass o = .esc16
  | .slotField, .bres o => literalClass o = .field
  | .slotEsc32 _, _ | .slotEsc16 _, _ | .slotField, _ => false
  | .dltS32 _, c | .dltS16 _, c | .dltB _, c => c = .rem
  | .hostStart _, c | .hostCtrl0 _, c | .hostWrStatus _, c | .hostWrInBase _, c | .hostWrInLen _, c => c = .host
  | .hostWrOutBase _, c | .hostWrWidth _, c | .hostWrProduced _, c | .hostWrConsumed _, c | .hostRd _, c => c = .host

/-- The length of an instruction's bytes (R72; an access is its key byte and, for a write, four data bytes). -/
def Instr.byteLen : Instr → Nat
  | .pixS32 _ | .dltS32 _ => 5
  | .pixS16 _ | .dltS16 _ => 3
  | .pixB _ | .dltB _ | .blk _ _ => 1
  | .half n _ => n.toNat
  | .slotEsc32 _ => 4
  | .slotEsc16 _ => 2
  | .slotField => 0
  | .hostStart _ | .hostCtrl0 _ | .hostWrStatus _ | .hostWrInBase _ | .hostWrInLen _ => 5
  | .hostWrOutBase _ | .hostWrWidth _ | .hostWrProduced _ | .hostWrConsumed _ => 5
  | .hostRd _ => 1

/-- The table row an instruction stands for. -/
def Instr.kind : Instr → Kind
  | .pixS32 _ => .pixS32 | .pixS16 _ => .pixS16 | .pixB _ => .pixB
  | .blk _ _ => .blk | .half _ _ => .half
  | .slotEsc32 _ => .slotEsc32 | .slotEsc16 _ => .slotEsc16 | .slotField => .slotField
  | .dltS32 _ => .dltS32 | .dltS16 _ => .dltS16 | .dltB _ => .dltB
  | .hostStart _ => .hostStart | .hostCtrl0 _ => .hostCtrl0 | .hostWrStatus _ => .hostWrStatus
  | .hostWrInBase _ => .hostWrInBase | .hostWrInLen _ => .hostWrInLen | .hostWrOutBase _ => .hostWrOutBase
  | .hostWrWidth _ => .hostWrWidth | .hostWrProduced _ => .hostWrProduced
  | .hostWrConsumed _ => .hostWrConsumed | .hostRd _ => .hostRd

/-- A row of the opcode table: which bits of the first byte it fixes, and for rows chosen by value the condition
(`select`, `data0`); rows of one context are tried in the order they stand in, which is their priority (R76). -/
structure Row where
  kind : Kind
  mask : Byte
  pattern : Byte
  data0 : Option Bool := none
  select : Option LitClass := none
  deriving DecidableEq, Repr

/-- spec/opcode_table.json, by context, in priority order (R76). -/
def opcodeRows : Ctx → List Row
  | .first =>
    [⟨.pixS32, 0xFF#8, 0xFF#8, none, none⟩, ⟨.pixS16, 0xFF#8, 0xFE#8, none, none⟩, ⟨.pixB, 0x00#8, 0x00#8, none, none⟩]
  | .bctrl => [⟨.blk, 0x00#8, 0x00#8, none, none⟩]
  | .bpack _ => [⟨.half, 0x00#8, 0x00#8, none, none⟩]
  | .bres _ =>
    [⟨.slotEsc32, 0x00#8, 0x00#8, none, some .esc32⟩, ⟨.slotEsc16, 0x00#8, 0x00#8, none, some .esc16⟩,
     ⟨.slotField, 0x00#8, 0x00#8, none, some .field⟩]
  | .rem =>
    [⟨.dltS32, 0xFF#8, 0xFF#8, none, none⟩, ⟨.dltS16, 0xFF#8, 0xFE#8, none, none⟩, ⟨.dltB, 0x00#8, 0x00#8, none, none⟩]
  | .host =>
    [⟨.hostStart, 0x0F#8, 0x08#8, some true, none⟩, ⟨.hostCtrl0, 0x0F#8, 0x08#8, some false, none⟩,
     ⟨.hostWrStatus, 0x0F#8, 0x09#8, none, none⟩, ⟨.hostWrInBase, 0x0F#8, 0x0A#8, none, none⟩,
     ⟨.hostWrInLen, 0x0F#8, 0x0B#8, none, none⟩, ⟨.hostWrOutBase, 0x0F#8, 0x0C#8, none, none⟩,
     ⟨.hostWrWidth, 0x0F#8, 0x0D#8, none, none⟩, ⟨.hostWrProduced, 0x0F#8, 0x0E#8, none, none⟩,
     ⟨.hostWrConsumed, 0x0F#8, 0x0F#8, none, none⟩, ⟨.hostRd, 0x08#8, 0x00#8, none, none⟩]

/-- Whether a row matches in a context: `(byte & mask) == match` on the first byte, `data[0]` on the second byte of an
access, the class of the provisional offset in BRES (R76). -/
def Row.accepts (r : Row) (c : Ctx) (bs : List Byte) : Bool :=
  ((bs.headD 0#8 &&& r.mask) == r.pattern)
    && (match r.data0 with
        | none => true
        | some d => (bs.getD 1 0#8).getLsbD 0 == d)
    && (match r.select, c with
        | none, _ => true
        | some k, .bres o => literalClass o == k
        | some _, .first | some _, .bctrl | some _, .bpack _ | some _, .rem | some _, .host => false)

/-- The row that the table picks: the first of its context that matches (R76). -/
def tableRow (c : Ctx) (bs : List Byte) : Option Row := (opcodeRows c).find? (·.accepts c bs)

/-- The context in which a table word is read when the table's number is all there is: the table numbers both stream lead
bytes and 4-bit access keys from bit 0, so a first byte of 0x00 to 0x0F is taken as an access key and any other as a lead
byte in FIRST (log entry 11). -/
def tableCtx (w : Nat) : Ctx := if w % 256 < 16 then .host else .first

/-- The bytes of a table word, first byte first, with zero bytes above it up to the longest instruction. -/
def tableBytes (nbits w : Nat) : List Byte := leBytes 15 (w % 2 ^ nbits)

/-- What the decoder reads from a word of the opcode table (log entry 11). -/
def decodeTableWord (nbits w : Nat) : Option Instr :=
  match decode (tableCtx (w % 2 ^ nbits)) (tableBytes nbits w) with
  | .ok (i, _) => some i
  | .error _ => none

end Sys2Proof
end

