-- ==== Sys2Proof/Machine/State.lean ====
section
/-! DEFINITION. The state of the machine (spec/10_state.md R16): the registers of a block, the memory it shares with the host,
the other blocks of the platform, and the turns still to come. Plain data throughout. The reset state (R37) and the reasons a
run can stop. -/

namespace Sys2Proof.Machine

/-- PHASE (spec/10_state.md R28). -/
inductive Phase where
  | idle | zfill | first | bctrl | bpack | bres | rem
  deriving DecidableEq, Repr

/-- An address range that no memory backs (spec/20_memory.md R53, R60 item 4). -/
structure Hole where
  base : Nat
  size : Nat
  deriving DecidableEq, Repr

/-- Memory as written bytes, by strictly rising address; an unlisted address has no value (log entry 2). -/
abbrev Memory := List Host.Cell

/-- The registers of one block (spec/10_state.md R16). CTRL is not stored (R17). STATUS is the two flags and PHASE (R18). -/
structure Block where
  /-- REG_BASE, the platform's parameter for this block (spec/00_scope.md R8, spec/60_exceptions.md R157). -/
  regBase : Word
  /-- IN_BASE (R19). -/
  inBase : Word
  /-- IN_LEN (R20). -/
  inLen : Word
  /-- Bits 31:2 of OUT_BASE; bits 1:0 are hardwired to 0 (R21). -/
  outHi : BitVec 30
  /-- WIDTH (R22). -/
  width : Word
  /-- STATUS.DONE (R18), which is also the level output `done` (spec/44_host_interface.md R139). -/
  done : Bool
  /-- STATUS.TRUNC (R18). -/
  trunc : Bool
  /-- CUR, which CONSUMED reads (R24, R25). -/
  cur : Word
  /-- IDX, which PRODUCED reads (R23, R26). -/
  idx : Word
  /-- ACC (R27). -/
  acc : Word
  /-- PHASE (R28). -/
  phase : Phase
  /-- ZI (R29). -/
  zi : Word
  /-- BLKCNT (R30). -/
  blkcnt : BitVec 28
  /-- NBIT0 (R31). -/
  nbit0 : BitVec 4
  /-- NBIT1 (R31). -/
  nbit1 : BitVec 4
  /-- HALF (R31). -/
  half : BitVec 1
  /-- PACK (R32). -/
  pack : BitVec 120
  /-- OFS[0..15] (R33). -/
  ofs : Vector (BitVec 16) 16
  /-- SLOT (R34). -/
  slot : BitVec 4
  deriving DecidableEq, Repr

/-- One turn of an agent (spec/44_host_interface.md R129, R140, R145). `base` names the block by its REG_BASE. -/
inductive Turn where
  /-- The block takes its next step, if it has one. -/
  | block (base : Word)
  /-- A register access that the platform routes to the block. -/
  | access (base : Word) (a : HostAccess)
  /-- The block's reset input is asserted (spec/70_reset_and_hazards.md R161). -/
  | reset (base : Word)
  /-- The host, or another agent, writes memory (spec/20_memory.md R41, R60). -/
  | memWrite (addr : Word) (data : List Byte)
  /-- The host, or another agent, reads memory. -/
  | memRead (addr : Word) (count : Nat)
  deriving DecidableEq, Repr

/-- The machine: the active block, the other blocks of the platform, the memory they share, and the turns to come. -/
structure State where
  /-- The block whose turn it is, or was last. -/
  blk : Block
  /-- The platform's other N_INST - 1 blocks (spec/60_exceptions.md R157; log entry 4). -/
  others : List Block
  /-- The one shared memory (spec/20_memory.md R41). -/
  mem : Memory
  /-- Where the platform has no memory (R53, R60 item 4; log entry 5). -/
  holes : List Hole
  /-- The data that the last register read returned (spec/30_encoding.md R75; log entry 9). -/
  rdata : Word
  /-- The bytes that the last host memory read returned (spec/20_memory.md R48; log entry 9). -/
  hostBytes : List Byte
  /-- How many free values have been drawn (spec/70_reset_and_hazards.md R162; log entry 8). -/
  draws : Nat
  /-- The turns to come, first first (spec/44_host_interface.md R145; log entry 1). -/
  sched : List Turn
  deriving DecidableEq, Repr

/-- Why the machine stops where the spec gives no state to go on in. The spec has no fault of the block itself
(spec/60_exceptions.md R147); both are of the memory that this model gives it. -/
inductive Fault where
  /-- An access at or above byte address 2^32, which the address space does not have (spec/20_memory.md R41, R53). Raised by
  every memory access. SAFE: the spec says that no access of a run within the host duties is there. Log entry 16. -/
  | noSuchAddress (addr : Nat)
  /-- A read of a byte that nothing has written: the spec gives it no contents. Raised by `In(k)` and by a host memory read.
  SAFE: duty 3 of spec/44_host_interface.md R141 has the line in memory before START. Log entry 2. -/
  | unwrittenByte (addr : Nat)
  deriving DecidableEq, Repr

/-- Why the model refuses a run. -/
inductive Refusal where
  /-- The instruction has no meaning yet; raised by `exec`'s arms only. SAFE. -/
  | notModelled (mnemonic : String)
  /-- A token executed in a phase, or at a slot or width, that is not its context; raised by the stream tokens' meanings.
  No step does this, since `fetch` decodes in the context of PHASE (spec/30_encoding.md R62). SAFE. Log entry 13. -/
  | outOfContext
  /-- START with `IN_BASE + IN_LEN > 2^32` (spec/20_memory.md R60 item 1, R148). SAFE. Log entry 6. -/
  | inputWraps
  /-- START with `OUT_BASE + 4 * WIDTH > 2^32` (R60 item 2, R148). SAFE. Log entry 6. -/
  | outputWraps
  /-- START with an input and an output region that share a byte (R60 item 3, R148). SAFE. Log entry 6. -/
  | regionsOverlap
  /-- START with a region that some memory does not back (R60 item 4, spec/60_exceptions.md R160). SAFE. Log entry 6. -/
  | unbackedRegion
  /-- START while another block runs whose regions conflict with this one's (spec/60_exceptions.md R157). SAFE. -/
  | blocksConflict
  /-- Memory that does not complete an access (spec/60_exceptions.md R160). Raised by every memory access. SAFE. -/
  | unbackedAccess
  /-- Another agent reads or writes a busy block's input or output region (spec/20_memory.md R41, R60 item 5,
  spec/44_host_interface.md R140, R141). SAFE. Log entry 7. -/
  | regionInUse
  /-- A register access that is not 32 bits, not aligned or not in the window (spec/44_host_interface.md R138), by the
  decoder's name for it. Raised by a host access. SAFE. -/
  | badAccess (e : DecodeError)
  /-- A turn for a block that the platform does not have (log entry 4). Raised by the schedule. SAFE. -/
  | noSuchBlock
  deriving DecidableEq, Repr

/-- What an operation of the machine answers. -/
abbrev Result (α : Type) := Host.Outcome α Fault Refusal

/-- A block after reset, at its REG_BASE (spec/10_state.md R37, spec/70_reset_and_hazards.md R161). -/
def Block.atReset (regBase : Word) : Block where
  regBase := regBase
  inBase := 0#32
  inLen := 0#32
  outHi := 0#30
  width := 0#32
  done := false
  trunc := false
  cur := 0#32
  idx := 0#32
  acc := 0#32
  phase := .idle
  zi := 0#32
  blkcnt := 0#28
  nbit0 := 0#4
  nbit1 := 0#4
  half := 0#1
  pack := 0#120
  ofs := Vector.replicate 16 0#16
  slot := 0#4

/-- A platform right after reset, by its parameters (spec/00_scope.md R8, I11): the REG_BASE of one block, those of the other
N_INST - 1 blocks, and where it has no memory (spec/20_memory.md R53). Every block is at R37's values; no memory is written
(log entry 2); nothing is returned, drawn or scheduled (log entries 9, 8, 1). -/
def State.resetOn (base : Word) (others : List Word) (holes : List Hole) : State where
  blk := Block.atReset base
  others := others.map Block.atReset
  mem := []
  holes := holes
  rdata := 0#32
  hostBytes := []
  draws := 0
  sched := []

/-- The platform that the host's interface, which takes no parameters, is given right after reset: one block (log entry 4) at
REG_BASE 0xFFFFFFE0 (log entry 3) and no hole (log entry 5). -/
def State.reset : State := State.resetOn 0xFFFFFFE0#32 [] []

end Sys2Proof.Machine
end

