-- ==== Sys2Proof/Machine/Flags.lean ====
section
/-! DEFINITION. The status flags (spec/10_state.md R18, R35) and the values computed from WIDTH (spec/40_sequencer.md R81).
The block has no condition codes, carry or overflow flag (R35). -/

namespace Sys2Proof.Machine

/-- STATUS.BUSY: PHASE is not IDLE (R18). -/
def Block.busy (b : Block) : Bool := decide (b.phase ≠ .idle)

/-- The level output `done` (spec/44_host_interface.md R139). -/
def Block.doneOutput (b : Block) : Bool := b.done

/-- A flag as a bit. -/
def flagBit (f : Bool) : BitVec 1 := if f then 1#1 else 0#1

/-- The STATUS word: `zext_32({TRUNC, DONE, BUSY})` (spec/44_host_interface.md R131). -/
def Block.statusWord (b : Block) : Word :=
  (flagBit b.trunc ++ flagBit b.done ++ flagBit b.busy).setWidth 32

/-- The value that `finish()` gives TRUNC: IDX < WIDTH (spec/40_sequencer.md R90). -/
def Block.truncated (b : Block) : Bool := decide (b.idx.toNat < b.width.toNat)

/-- NBLOCK (R81). -/
def nblock (width : Word) : Nat := (width.toNat - 1) / 16

/-- NREST (R81). -/
def nrest (width : Word) : Nat := (width.toNat - 1) % 16

end Sys2Proof.Machine
end

