-- ==== Sys2Proof/Machine/Memory.lean ====
section
/-! DEFINITION. The memory as a list of written bytes (spec/20_memory.md R41 to R44): reading, writing, little-endian words,
and its canonical form. -/

namespace Sys2Proof.Machine

/-- The byte at an address, if something has written it. -/
def Memory.read : Memory → Nat → Option Byte
  | [], _ => none
  | (a, b) :: m, x => if x = a then some b else Memory.read m x

/-- Put a byte at its place in a list of rising addresses. -/
def Memory.insert : Memory → Nat → Byte → Memory
  | [], x, v => [(x, v)]
  | (a, b) :: m, x, v =>
    if x < a then (x, v) :: (a, b) :: m else if x = a then (x, v) :: m else (a, b) :: Memory.insert m x v

/-- Write a byte; an address outside the address space is not stored (every caller stops there first). -/
def Memory.write (m : Memory) (x : Nat) (v : Byte) : Memory :=
  if x < Config.addrSpace then Memory.insert m x v else m

/-- Write bytes at rising addresses from `x`. -/
def Memory.writeBytes : Memory → Nat → List Byte → Memory
  | m, _, [] => m
  | m, x, b :: bs => Memory.writeBytes (Memory.write m x b) (x + 1) bs

/-- Byte `j` of a word: `v[8j+7:8j]` (R44). -/
def wordByte (v : Word) (j : Nat) : Byte := v.extractLsb' (8 * j) 8

/-- MemWrite(addr, 4, v) on the list: byte `addr + j` receives `v[8j+7:8j]` (R44). -/
def Memory.writeWord (m : Memory) (x : Nat) (v : Word) : Memory :=
  Memory.write (Memory.write (Memory.write (Memory.write m x (wordByte v 0)) (x + 1) (wordByte v 1))
    (x + 2) (wordByte v 2)) (x + 3) (wordByte v 3)

/-- The little-endian word at an address, if all four bytes are written (R44, R48). -/
def Memory.readWord (m : Memory) (x : Nat) : Option Word :=
  match Memory.read m x, Memory.read m (x + 1), Memory.read m (x + 2), Memory.read m (x + 3) with
  | some b0, some b1, some b2, some b3 => some (b3 ++ b2 ++ b1 ++ b0)
  | _, _, _, _ => none

/-- The canonical form: strictly rising addresses below 2^32. (An unlisted address has no value, so no entry can equal
what an unlisted address reads as.) -/
def Memory.wf : Memory → Bool
  | [] => true
  | [(a, _)] => decide (a < Config.addrSpace)
  | (a, _) :: (b, v) :: m => decide (a < b) && Memory.wf ((b, v) :: m)

/-- A word of the output region after a reset in mid-operation: each of `n` words from `x` on is a fresh free value
(spec/70_reset_and_hazards.md R162). -/
def Memory.drawWords (m : Memory) (x draws : Nat) : Nat → Memory
  | 0 => m
  | n + 1 => Memory.writeWord (Memory.drawWords m x draws n) (x + 4 * n) (Config.freeWord (draws + n))

end Sys2Proof.Machine
end

