-- ==== Sys2Proof/Machine/Operands.lean ====
section
/-! DEFINITION. The operand forms: the one-byte form, the literals (spec/30_encoding.md R63, R65), the bit-field extractor
(spec/42_block.md R108), the packed-integer decoder (R109), and where the output slots and input bytes lie. -/

namespace Sys2Proof.Machine

/-- `zext_32(b) - 127` (R63). -/
def biased (b : Byte) : Word := b.setWidth 32 - BitVec.ofNat 32 Config.bias

/-- A 16-bit literal, sign-extended (R65). -/
def literal16 (lit : BitVec 16) : Word := lit.signExtend 32

/-- A 32-bit literal (R65). -/
def literal32 (lit : Word) : Word := lit

/-- FIELD(PACK, n, f) = (PACK >> (f*n)) & ((1 << n) - 1) (R108). -/
def rawField (pack : BitVec 120) (n f : Nat) : Nat := (pack.toNat >>> (f * n)) &&& ((1 <<< n) - 1)

/-- `zero_at(n)` (R109). -/
def zeroAt (n : Nat) : Nat := if 1 < n then (1 <<< (n - 1)) - 1 else 0

/-- The provisional offset of field `f`: the unsigned field less `zero_at`, as an i16 (R109). -/
def provisional (pack : BitVec 120) (n f : Nat) : BitVec 16 :=
  BitVec.ofInt 16 ((rawField pack n f : Int) - (zeroAt n : Int))

/-- The provisional offset as a 32-bit addend. -/
def offset32 (o : BitVec 16) : Word := o.signExtend 32

/-- OFS after half-block `h` is unpacked: `OFS[8h + f]` for `f = 0..7`, the other half unchanged (spec/42_block.md R106). -/
def unpackOffsets (ofs : Vector (BitVec 16) 16) (pack : BitVec 120) (n h : Nat) : Vector (BitVec 16) 16 :=
  Vector.ofFn fun i => if i.val / 8 = h then provisional pack n (i.val % 8) else ofs[i]

/-- The OUT_BASE register: bits 1:0 hardwired to 0 (spec/10_state.md R21). -/
def Block.outBase (b : Block) : Word := b.outHi ++ 0#2

/-- The width of the half-block that BPACK unpacks next (spec/42_block.md R106). -/
def Block.nbit (b : Block) : BitVec 4 := if b.half = 0#1 then b.nbit0 else b.nbit1

/-- OFS[SLOT] (spec/42_block.md R112). -/
def Block.slotOffset (b : Block) : BitVec 16 := b.ofs[b.slot.toNat]

/-- The address of output slot `i`: OUT_BASE + 4 i, as a mathematical integer (spec/20_memory.md R44, R53). -/
def Block.slotAddr (b : Block) (i : Nat) : Nat := b.outBase.toNat + 4 * i

/-- The address of input byte `k`: IN_BASE + k, as a mathematical integer (spec/20_memory.md R42, R53). -/
def Block.inAddr (b : Block) (k : Nat) : Nat := b.inBase.toNat + k

end Sys2Proof.Machine
end

