-- ==== Sys2Proof/Machine/Ops.lean ====
section
/-! DEFINITION. The named operations that the meanings share: memory accesses, the guard of every read, `finish()`, `NEXT()`,
the store of a final slot, START, and reset. The block takes no exception and returns from none (spec/60_exceptions.md R147,
R151, R152): `finish()` is the one way an operation ends, and it stands here once. -/

namespace Sys2Proof.Machine

/-- Go on with a result, or stop as it stops. -/
def andThen {α β : Type} (r : Result α) (k : α → Result β) : Result β :=
  match r with
  | .next a => k a
  | .fault f => .fault f
  | .refused q => .refused q

/-- All the blocks of the platform. -/
def State.blocks (s : State) : List Block := s.blk :: s.others

/-- Change the active block's registers. -/
def State.setBlk (s : State) (b : Block) : State := { s with blk := b }

/-- Change the memory. -/
def State.setMem (s : State) (m : Memory) : State := { s with mem := m }

/-! ### Memory accesses -/

/-- An address inside a range. -/
def Hole.covers (h : Hole) (a : Nat) : Bool := decide (h.base ≤ a ∧ a < h.base + h.size)

/-- A block's register window as an address range; it is not memory (spec/20_memory.md R46). DESIGN CHOICE (log entry 20):
for a REG_BASE above 0xFFFFFFE0 the window does not wrap, so the low addresses stay memory, as `inWindow` has it. -/
def Block.window (b : Block) : Hole := ⟨b.regBase.toNat, Config.windowBytes⟩

/-- The address ranges that are not memory: the platform's holes and the register windows (R46, R53, R60 item 4). -/
def State.notMemory (s : State) : List Hole := s.holes ++ s.blocks.map Block.window

/-- Whether memory backs an address. -/
def State.backed (s : State) (a : Nat) : Bool := s.notMemory.all fun h => !h.covers a

/-- MemRead(addr, 1) (spec/20_memory.md R43). -/
def State.readByte (s : State) (a : Nat) : Result Byte :=
  if Config.addrSpace ≤ a then .fault (.noSuchAddress a)
  else if !s.backed a then .refused .unbackedAccess
  else match Memory.read s.mem a with
    | some v => .next v
    | none => .fault (.unwrittenByte a)

/-- Reads of `n` bytes at rising addresses. -/
def State.readBytes (s : State) (a : Nat) : Nat → Result (List Byte)
  | 0 => .next []
  | n + 1 => andThen (s.readByte a) fun v => andThen (s.readBytes (a + 1) n) fun vs => .next (v :: vs)

/-- MemWrite(addr, 4, v) (spec/20_memory.md R44). -/
def State.writeWord (s : State) (a : Nat) (v : Word) : Result State :=
  if Config.addrSpace < a + 4 then .fault (.noSuchAddress a)
  else if s.backed a && s.backed (a + 1) && s.backed (a + 2) && s.backed (a + 3) then
    .next (s.setMem (Memory.writeWord s.mem a v))
  else .refused .unbackedAccess

/-! ### The cursor -/

/-- need(n): CUR + n <= IN_LEN, as mathematical integers (spec/00_scope.md R11). -/
def Block.need (b : Block) (n : Nat) : Bool := decide (b.cur.toNat + n ≤ b.inLen.toNat)

/-- CUR <- CUR + n. -/
def Block.advance (b : Block) (n : Nat) : Block := { b with cur := b.cur + BitVec.ofNat 32 n }

/-- In(CUR + k), ..., In(CUR + k + n - 1) (spec/00_scope.md R11). -/
def State.inputBytes (s : State) (k n : Nat) : Result (List Byte) := s.readBytes (s.blk.inAddr (s.blk.cur.toNat + k)) n

/-! ### The sequencer's shared operations -/

/-- finish() (spec/40_sequencer.md R90). -/
def Block.finish (b : Block) : Block := { b with trunc := b.truncated, phase := .idle, done := true }

/-- NEXT() (spec/40_sequencer.md R84). -/
def Block.nextPhase (b : Block) : Block :=
  if b.idx = b.width then b.finish
  else if b.blkcnt.toNat < nblock b.width then { b with phase := .bctrl }
  else { b with phase := .rem }

/-- End the operation. -/
def State.finish (s : State) : State := s.setBlk s.blk.finish

/-- NEXT() on the active block. -/
def State.nextPhase (s : State) : State := s.setBlk s.blk.nextPhase

/-- A read of `n` bytes at CUR, guarded by `need(n)`: past the end of the input the operation ends and CUR stays
(spec/40_sequencer.md R86, R88); otherwise CUR passes the bytes. -/
def consume (n : Nat) (s : State) (k : State → Result State) : Result State :=
  if s.blk.need n then k (s.setBlk (s.blk.advance n)) else .next s.finish

/-- Finalise slot IDX with value `v`: ACC <- v; MemWrite(OUT_BASE + 4*IDX, 4, ACC); IDX <- IDX + 1 (spec/10_state.md R26). -/
def finaliseSlot (v : Word) (s : State) : Result State :=
  andThen (s.writeWord (s.blk.slotAddr s.blk.idx.toNat) v) fun t =>
    .next (t.setBlk { t.blk with acc := v, idx := t.blk.idx + 1#32 })

/-- The FIRST step after its token: ACC <- v; MemWrite(OUT_BASE + 0, 4, ACC); IDX <- 1; NEXT() (spec/41_first_pixel.md R98). -/
def storeFirst (v : Word) (s : State) : Result State :=
  andThen (s.writeWord (s.blk.slotAddr 0) v) fun t =>
    .next (t.setBlk { t.blk with acc := v, idx := 1#32 }).nextPhase

/-- The REM step after its token: the wrapping sum (spec/42_block.md R117), the slot, NEXT() (spec/43_remainder.md R123). -/
def addDelta (d : Word) (s : State) : Result State :=
  andThen (finaliseSlot (s.blk.acc + d) s) fun t => .next t.nextPhase

/-- The end of a BRES step: after slot 15 BLKCNT rises and NEXT() picks the phase, before it SLOT rises
(spec/42_block.md R112, R118). -/
def Block.nextSlot (b : Block) : Block :=
  if b.slot = 15#4 then { b with blkcnt := b.blkcnt + 1#28 }.nextPhase else { b with slot := b.slot + 1#4 }

/-- The BRES step after its offset is picked: sum, slot, next slot (spec/42_block.md R112). -/
def resolveSlot (o : Word) (s : State) : Result State :=
  andThen (finaliseSlot (s.blk.acc + o) s) fun t => .next (t.setBlk t.blk.nextSlot)

/-- BCTRL after its byte: NBIT0, NBIT1, HALF <- 0, PHASE <- BPACK (spec/42_block.md R104). -/
def Block.setWidths (b : Block) (n0 n1 : BitVec 4) : Block :=
  { b with nbit0 := n0, nbit1 := n1, half := 0#1, phase := .bpack }

/-- BPACK after its run: PACK, OFS, then the second half or the resolution (spec/42_block.md R106). -/
def Block.unpack (b : Block) (n : BitVec 4) (run : BitVec 120) : Block :=
  let ofs := unpackOffsets b.ofs run n.toNat b.half.toNat
  if b.half = 0#1 then { b with pack := run, ofs := ofs, half := 1#1 }
  else { b with pack := run, ofs := ofs, slot := 0#4, phase := .bres }

/-- A token takes effect only in its own context; elsewhere it is no token of the line (spec/30_encoding.md R62). -/
def inContext (ok : Bool) (r : Result State) : Result State := if ok then r else .refused .outOfContext

/-- A step whose token is cut short by the end of the input: CUR passes the `n` bytes that were read, and the operation ends
(spec/40_sequencer.md R86, R88). -/
def endShort (n : Nat) (s : State) : State := (s.setBlk (s.blk.advance n)).finish

/-! ### START and its premises -/

/-- Whether two address ranges share a byte. -/
def rangesMeet (a n b m : Nat) : Bool := decide (0 < n ∧ 0 < m ∧ a < b + m ∧ b < a + n)

/-- Whether a range meets a block's input region (spec/20_memory.md R42). -/
def Block.inputMeets (b : Block) (a n : Nat) : Bool := rangesMeet a n b.inBase.toNat b.inLen.toNat

/-- Whether a range meets a block's output region (spec/20_memory.md R45). -/
def Block.outputMeets (b : Block) (a n : Nat) : Bool := rangesMeet a n b.outBase.toNat (4 * b.width.toNat)

/-- Whether two blocks may not run at once: one's output region meets the other's input or output region
(spec/60_exceptions.md R157). -/
def Block.conflicts (b c : Block) : Bool :=
  c.outputMeets b.inBase.toNat b.inLen.toNat || c.outputMeets b.outBase.toNat (4 * b.width.toNat)
    || c.inputMeets b.outBase.toNat (4 * b.width.toNat)

/-- Whether some byte of a range is not memory. -/
def State.unbackedIn (s : State) (a n : Nat) : Bool := s.notMemory.any fun h => rangesMeet a n h.base h.size

/-- The first host duty on memory that the active block's configuration breaks (spec/20_memory.md R60, R157), if any. -/
def State.brokenDuty (s : State) : Option Refusal :=
  let b := s.blk
  if Config.addrSpace < b.inBase.toNat + b.inLen.toNat then some .inputWraps
  else if Config.addrSpace < b.outBase.toNat + 4 * b.width.toNat then some .outputWraps
  else if b.outputMeets b.inBase.toNat b.inLen.toNat then some .regionsOverlap
  else if s.unbackedIn b.inBase.toNat b.inLen.toNat || s.unbackedIn b.outBase.toNat (4 * b.width.toNat) then
    some .unbackedRegion
  else if s.others.any fun c => c.busy && b.conflicts c then some .blocksConflict
  else none

/-- The registers at the start of an operation (spec/44_host_interface.md R135). -/
def Block.start (b : Block) : Block :=
  { b with
    cur := 0#32, idx := 0#32, acc := 0#32, zi := 0#32, blkcnt := 0#28, slot := 0#4, half := 0#1
    done := false, trunc := false, phase := .zfill }

/-- HOST.START: ignored while busy (R134); in IDLE it starts the operation, and the model refuses the run if a host duty on
memory is broken (R135, R148; log entry 6). -/
def startOperation (s : State) : Result State :=
  if s.blk.busy then .next s
  else match s.brokenDuty with
    | some r => .refused r
    | none => .next (s.setBlk s.blk.start)

/-- A write of a configuration register: stored in IDLE, ignored while busy (spec/44_host_interface.md R132, R134). -/
def writeConfig (f : Block → Block) (s : State) : State := if s.blk.busy then s else s.setBlk (f s.blk)

/-- The value of a host register (spec/44_host_interface.md R131). -/
def Block.readReg (b : Block) : Reg → Word
  | .ctrl => 0#32
  | .status => b.statusWord
  | .inBase => b.inBase
  | .inLen => b.inLen
  | .outBase => b.outBase
  | .width => b.width
  | .produced => b.idx
  | .consumed => b.cur

/-! ### Reset -/

/-- The reset input (spec/70_reset_and_hazards.md R161, R162): every register to its reset value; while BUSY every word of
the output region becomes a free value, and the input region stays. REG_BASE is no register (log entry 3). -/
def resetBlock (s : State) : State :=
  let b := s.blk
  if b.busy then
    { s with
      blk := Block.atReset b.regBase
      mem := Memory.drawWords s.mem b.outBase.toNat s.draws b.width.toNat
      draws := s.draws + b.width.toNat }
  else s.setBlk (Block.atReset b.regBase)

end Sys2Proof.Machine
end

