-- ==== Sys2Proof/Machine/BlockTokens.lean ====
section
/-! DEFINITION. The tokens of a block: BCTRL, BPACK and BRES steps (spec/42_block.md R104 to R122). -/

namespace Sys2Proof.Machine

/-- BLK (R104, R105): the control byte's two widths. -/
def execBlk (n0 n1 : BitVec 4) (s : State) : Result State :=
  inContext (s.blk.phase = .bctrl) (consume 1 s fun s => .next (s.setBlk (s.blk.setWidths n0 n1)))

/-- HALF (R106 to R111): the packed run of the half-block that HALF names, at its width. -/
def execHalf (n : BitVec 4) (run : BitVec 120) (s : State) : Result State :=
  inContext (s.blk.phase = .bpack && n = s.blk.nbit)
    (consume n.toNat s fun s => .next (s.setBlk (s.blk.unpack n run)))

/-- SLOT.ESC32 (R112, R116): the literal replaces an offset of 128 or more. -/
def execSlotEsc32 (lit : Word) (s : State) : Result State :=
  inContext (s.blk.phase = .bres && literalClass s.blk.slotOffset = .esc32)
    (consume 4 s fun s => resolveSlot (literal32 lit) s)

/-- SLOT.ESC16 (R112, R115): the literal replaces an offset of 127. -/
def execSlotEsc16 (lit : BitVec 16) (s : State) : Result State :=
  inContext (s.blk.phase = .bres && literalClass s.blk.slotOffset = .esc16)
    (consume 2 s fun s => resolveSlot (literal16 lit) s)

/-- SLOT.FIELD (R112, R114): the offset as it is; no byte is read, so the step cannot run short. -/
def execSlotField (s : State) : Result State :=
  inContext (s.blk.phase = .bres && literalClass s.blk.slotOffset = .field)
    (resolveSlot (offset32 s.blk.slotOffset) s)

end Sys2Proof.Machine
end

