-- ==== Sys2Proof/Machine/FirstPixel.lean ====
section
/-! DEFINITION. The first-pixel tokens: the FIRST step for each form of `SINGLE()` (spec/41_first_pixel.md R97 to R103). -/

namespace Sys2Proof.Machine

/-- PIX.S32 (R101): the lead byte, then the 4-byte literal all at once; slot 0 is the literal. -/
def execPixS32 (lit : Word) (s : State) : Result State :=
  inContext (s.blk.phase = .first) (consume 1 s fun s => consume 4 s fun s => storeFirst (literal32 lit) s)

/-- PIX.S16 (R100): the lead byte, then the 2-byte literal all at once; slot 0 is the literal, sign-extended. -/
def execPixS16 (lit : BitVec 16) (s : State) : Result State :=
  inContext (s.blk.phase = .first) (consume 1 s fun s => consume 2 s fun s => storeFirst (literal16 lit) s)

/-- PIX.B (R99): slot 0 is the lead byte less 127. -/
def execPixB (b : Byte) (s : State) : Result State :=
  inContext (s.blk.phase = .first) (consume 1 s fun s => storeFirst (biased b) s)

end Sys2Proof.Machine
end

