-- ==== Sys2Proof/Machine/HostOps.lean ====
section
/-! DEFINITION. The host's register accesses (spec/44_host_interface.md R129 to R137). -/

namespace Sys2Proof.Machine

/-- HOST.START (R135): `data[31:1]` is ignored. -/
def execHostStart (_data : Word) (s : State) : Result State := startOperation s

/-- HOST.CTRL0 (R136): no effect in any phase. -/
def execHostCtrl0 (_data : Word) (s : State) : Result State := .next s

/-- HOST.WR.STATUS (R137): ignored in every phase. -/
def execHostWrStatus (_data : Word) (s : State) : Result State := .next s

/-- HOST.WR.IN_BASE (R132, R134). -/
def execHostWrInBase (data : Word) (s : State) : Result State := .next (writeConfig (fun b => { b with inBase := data }) s)

/-- HOST.WR.IN_LEN (R132, R134). -/
def execHostWrInLen (data : Word) (s : State) : Result State := .next (writeConfig (fun b => { b with inLen := data }) s)

/-- HOST.WR.OUT_BASE (R133, R134): `data & 0xFFFFFFFC`. -/
def execHostWrOutBase (data : Word) (s : State) : Result State :=
  .next (writeConfig (fun b => { b with outHi := data.extractLsb' 2 30 }) s)

/-- HOST.WR.WIDTH (R132, R134). -/
def execHostWrWidth (data : Word) (s : State) : Result State := .next (writeConfig (fun b => { b with width := data }) s)

/-- HOST.WR.PRODUCED (R137): ignored in every phase. -/
def execHostWrProduced (_data : Word) (s : State) : Result State := .next s

/-- HOST.WR.CONSUMED (R137): ignored in every phase. -/
def execHostWrConsumed (_data : Word) (s : State) : Result State := .next s

/-- HOST.RD (R131): the register's value is returned on the host port, and nothing else changes. -/
def execHostRd (r : Reg) (s : State) : Result State := .next { s with rdata := s.blk.readReg r }

end Sys2Proof.Machine
end

