-- ==== Sys2Proof/Machine/Remainder.lean ====
section
/-! DEFINITION. The remainder tokens: the REM step for each form of `SINGLE()` (spec/43_remainder.md R123 to R128). -/

namespace Sys2Proof.Machine

/-- DLT.S32 (R126): the slot is ACC plus the 32-bit literal. -/
def execDltS32 (lit : Word) (s : State) : Result State :=
  inContext (s.blk.phase = .rem) (consume 1 s fun s => consume 4 s fun s => addDelta (literal32 lit) s)

/-- DLT.S16 (R125): the slot is ACC plus the 16-bit literal, sign-extended. -/
def execDltS16 (lit : BitVec 16) (s : State) : Result State :=
  inContext (s.blk.phase = .rem) (consume 1 s fun s => consume 2 s fun s => addDelta (literal16 lit) s)

/-- DLT.B (R124): the slot is ACC plus the lead byte less 127. -/
def execDltB (b : Byte) (s : State) : Result State :=
  inContext (s.blk.phase = .rem) (consume 1 s fun s => addDelta (biased b) s)

end Sys2Proof.Machine
end

