-- ==== Sys2Proof/Machine/Dispatch.lean ====
section
/-! DEFINITION. The one match from an instruction to its meaning. -/

namespace Sys2Proof.Machine

def exec (i : Instr) (s : State) : Host.Outcome State Fault Refusal :=
  match i with
  | .pixS32 lit => Sys2Proof.Machine.execPixS32 lit s
  | .pixS16 lit => Sys2Proof.Machine.execPixS16 lit s
  | .pixB b => Sys2Proof.Machine.execPixB b s
  | .blk n0 n1 => Sys2Proof.Machine.execBlk n0 n1 s
  | .half n run => Sys2Proof.Machine.execHalf n run s
  | .slotEsc32 lit => Sys2Proof.Machine.execSlotEsc32 lit s
  | .slotEsc16 lit => Sys2Proof.Machine.execSlotEsc16 lit s
  | .slotField => Sys2Proof.Machine.execSlotField s
  | .dltS32 lit => Sys2Proof.Machine.execDltS32 lit s
  | .dltS16 lit => Sys2Proof.Machine.execDltS16 lit s
  | .dltB b => Sys2Proof.Machine.execDltB b s
  | .hostStart data => Sys2Proof.Machine.execHostStart data s
  | .hostCtrl0 data => Sys2Proof.Machine.execHostCtrl0 data s
  | .hostWrStatus data => Sys2Proof.Machine.execHostWrStatus data s
  | .hostWrInBase data => Sys2Proof.Machine.execHostWrInBase data s
  | .hostWrInLen data => Sys2Proof.Machine.execHostWrInLen data s
  | .hostWrOutBase data => Sys2Proof.Machine.execHostWrOutBase data s
  | .hostWrWidth data => Sys2Proof.Machine.execHostWrWidth data s
  | .hostWrProduced data => Sys2Proof.Machine.execHostWrProduced data s
  | .hostWrConsumed data => Sys2Proof.Machine.execHostWrConsumed data s
  | .hostRd r => Sys2Proof.Machine.execHostRd r s

end Sys2Proof.Machine
end

