-- ==== Sys2Proof/Machine/Sequencer.lean ====
section
/-! DEFINITION. The block's step: the ZFILL step, and fetching, decoding and running the token at the cursor
(spec/40_sequencer.md R79, R82, R86; spec/30_encoding.md R62). -/

namespace Sys2Proof.Machine

/-- ZI past the word just zeroed, and FIRST after the last one (spec/40_sequencer.md R82). -/
def Block.nextZero (b : Block) : Block :=
  { b with zi := b.zi + 1#32, phase := if b.zi + 1#32 = b.width then .first else .zfill }

/-- The ZFILL step (spec/40_sequencer.md R82, R83). -/
def zfillStep (s : State) : Result State :=
  if s.blk.width = 0#32 then .next s.finish
  else andThen (s.writeWord (s.blk.slotAddr s.blk.zi.toNat) 0#32) fun t => .next (t.setBlk t.blk.nextZero)

/-- The context that the block decodes in; none in IDLE and ZFILL, which read no stream (spec/30_encoding.md R62). -/
def Block.ctx (b : Block) : Option Ctx :=
  match b.phase with
  | .idle | .zfill => none
  | .first => some .first
  | .bctrl => some .bctrl
  | .bpack => some (.bpack b.nbit)
  | .bres => some (.bres b.slotOffset)
  | .rem => some .rem

/-- What stands at the cursor: a token, or a token cut short after so many bytes were read. -/
inductive Fetched where
  | token (i : Instr)
  | short (consumed : Nat)
  deriving DecidableEq, Repr

/-- The decoder's answer as what stands at the cursor. -/
def toFetched : Decoded → Fetched
  | .ok (i, _) => .token i
  | .error e => .short e.consumed

/-- Read the token at CUR: its first part if `need` allows, then a single-pixel token's literal if `need` allows; no byte is
read that the token does not have, and each part is read whole or not at all (spec/20_memory.md R51, spec/40_sequencer.md R88). -/
def fetch (c : Ctx) (s : State) : Result Fetched :=
  if s.blk.need c.leadLen then
    andThen (s.inputBytes 0 c.leadLen) fun lead =>
      if s.blk.need (c.leadLen + c.tailLen lead) then
        andThen (s.inputBytes c.leadLen (c.tailLen lead)) fun tail => .next (toFetched (decode c (lead ++ tail)))
      else .next (toFetched (decode c lead))
  else .next (toFetched (decode c []))

/-- Run what was fetched. -/
def runFetched (f : Fetched) (s : State) : Result State :=
  match f with
  | .token i => exec i s
  | .short n => .next (endShort n s)

/-- One step of the active block: none in IDLE (spec/60_exceptions.md R159), ZFILL, or the token at the cursor. -/
def blockStep (s : State) : Result State :=
  match s.blk.ctx with
  | some c => andThen (fetch c s) fun f => runFetched f s
  | none => if s.blk.busy then zfillStep s else .next s

end Sys2Proof.Machine
end

