-- ==== Sys2Proof/Machine/Agents.lean ====
section
/-! DEFINITION. The turns of the agents around the block: host register accesses, the reset input, other agents' memory
accesses, and which block of the platform a turn is for (spec/44_host_interface.md R129, R138, R140, R145;
spec/20_memory.md R60; spec/60_exceptions.md R157). -/

namespace Sys2Proof.Machine

/-- A register access: decoded and run, or refused by name (spec/44_host_interface.md R138). -/
def hostAccess (a : HostAccess) (s : State) : Result State :=
  match decodeAccess s.blk.regBase a with
  | .ok (i, _) => exec i s
  | .error e => .refused (.badAccess e)

/-- Whether a range meets a busy block's input or output region, which no other agent may touch (spec/20_memory.md R41,
spec/44_host_interface.md R140, R141 item 1; log entry 7). -/
def State.regionBusy (s : State) (a n : Nat) : Bool :=
  s.blocks.any fun b => b.busy && (b.inputMeets a n || b.outputMeets a n)

/-- Another agent writes bytes from an address on (spec/20_memory.md R41, R58). -/
def memWrite (a : Nat) (data : List Byte) (s : State) : Result State :=
  if Config.addrSpace < a + data.length then .fault (.noSuchAddress a)
  else if s.regionBusy a data.length then .refused .regionInUse
  else if s.unbackedIn a data.length then .refused .unbackedAccess
  else .next (s.setMem (Memory.writeBytes s.mem a data))

/-- Another agent reads bytes from an address on (spec/20_memory.md R41, R48). -/
def memRead (a n : Nat) (s : State) : Result State :=
  if s.regionBusy a n then .refused .regionInUse
  else andThen (s.readBytes a n) fun bs => .next { s with hostBytes := bs }

/-- The block with a REG_BASE among the others, and the others with `cur` in its place. -/
def swapIn (base : Word) (cur : Block) : List Block → Option (Block × List Block)
  | [] => none
  | b :: bs =>
    if b.regBase = base then some (b, cur :: bs)
    else match swapIn base cur bs with
      | some (c, cs) => some (c, b :: cs)
      | none => none

/-- Make the block with a REG_BASE the active one (spec/60_exceptions.md R157; log entry 4). -/
def State.select (s : State) (base : Word) : Option State :=
  if s.blk.regBase = base then some s
  else match swapIn base s.blk s.others with
    | some (b, bs) => some { s with blk := b, others := bs }
    | none => none

/-- Do something as the block with a REG_BASE. -/
def onBlock (base : Word) (f : State → Result State) (s : State) : Result State :=
  match s.select base with
  | some t => f t
  | none => .refused .noSuchBlock

/-- Take one turn. -/
def takeTurn (t : Turn) (s : State) : Result State :=
  match t with
  | .block base => onBlock base blockStep s
  | .access base a => onBlock base (hostAccess a) s
  | .reset base => onBlock base (fun s => .next (resetBlock s)) s
  | .memWrite addr data => memWrite addr.toNat data s
  | .memRead addr count => memRead addr.toNat count s

/-- The next turn of the schedule, or the active block's step if none is left (log entry 1). -/
def nextTurn (s : State) : Result State :=
  match s.sched with
  | [] => blockStep s
  | t :: ts => takeTurn t { s with sched := ts }

/-- A table word that is an access key, as the register access it stands for: a write carries the bits above the key as its
data (log entry 11). -/
def tableAccess (base : Word) (bits : Nat) : HostAccess where
  write := decide (8 ≤ bits % 16)
  addr := base + BitVec.ofNat 32 (4 * (bits % 8))
  size := 4
  data := BitVec.ofNat 32 (bits / 256)

/-- A block in FIRST over a one-slot line of 5 bytes at 0x1000, with its output at 0x2000 (log entry 12). -/
def Block.firstLine (b : Block) : Block :=
  { b.start with phase := .first, zi := 1#32, width := 1#32, inBase := 0x1000#32, inLen := 5#32, outHi := 0x800#30 }

/-- `s` with a table word where the next step takes its instruction: an access key as the host's next turn, a lead byte as
the first token of a line whose block is in FIRST (log entries 11, 12). -/
def placeTableWord (s : State) (nbits w : Nat) : State :=
  let bits := w % 2 ^ nbits
  match tableCtx bits with
  | .host => { s with sched := .access s.blk.regBase (tableAccess s.blk.regBase bits) :: s.sched }
  | .first | .bctrl | .bpack _ | .bres _ | .rem =>
    { s with
      blk := s.blk.firstLine
      mem := Memory.writeBytes s.mem 0x1000 (leBytes 5 bits)
      sched := .block s.blk.regBase :: s.sched }

end Sys2Proof.Machine
end

