-- ==== Sys2Proof/Machine/Line.lean ====
section
/-! DEFINITION. The whole operation as one function of the line's bytes and WIDTH: DECODE() of spec/40_sequencer.md R80, in
the spec's order. The phase steps of the machine perform it one step at a time; claims compare the two. -/

namespace Sys2Proof.Machine

/-- How far the operation is: the final slots, oldest first (IDX is their number), CUR and ACC. -/
structure Progress where
  out : List Word
  cur : Nat
  acc : Word
  deriving DecidableEq, Repr

/-- A slot finalised with value `v`: ACC <- v, the slot, IDX + 1 (spec/10_state.md R26). -/
def Progress.push (p : Progress) (v : Word) : Progress := { p with out := p.out ++ [v], acc := v }

/-- The bytes In(k), ..., In(k + n - 1) of the line. -/
def lineBytes (line : List Byte) (k n : Nat) : List Byte := (line.drop k).take n

/-- `need(n)` on the line (spec/00_scope.md R11). -/
def lineNeed (line : List Byte) (cur n : Nat) : Bool := decide (cur + n ≤ line.length)

/-- Go on if the operation has not ended. -/
def goOn (r : Progress × Bool) (k : Progress → Progress × Bool) : Progress × Bool := if r.2 then k r.1 else r

/-- SINGLE() (spec/41_first_pixel.md R97): the cursor after it, and the value if it was read whole. -/
def lineSingle (line : List Byte) (cur : Nat) : Nat × Option Word :=
  if !lineNeed line cur 1 then (cur, none)
  else
    let b := line.getD cur 0#8
    if b.toNat ≤ 253 then (cur + 1, some (biased b))
    else if b.toNat = 254 then
      if !lineNeed line (cur + 1) 2 then (cur + 1, none)
      else (cur + 3, some (literal16 (BitVec.ofNat 16 (leValue (lineBytes line (cur + 1) 2)))))
    else if !lineNeed line (cur + 1) 4 then (cur + 1, none)
    else (cur + 5, some (literal32 (BitVec.ofNat 32 (leValue (lineBytes line (cur + 1) 4)))))

/-- One slot of a block: the escape-literal mux and the sum (R80, spec/42_block.md R112). -/
def lineSlot (line : List Byte) (o : BitVec 16) (p : Progress) : Progress × Bool :=
  if 128 ≤ o.toInt then
    if !lineNeed line p.cur 4 then (p, false)
    else
      let d := literal32 (BitVec.ofNat 32 (leValue (lineBytes line p.cur 4)))
      ({ p with cur := p.cur + 4 }.push (p.acc + d), true)
  else if 127 ≤ o.toInt then
    if !lineNeed line p.cur 2 then (p, false)
    else
      let d := literal16 (BitVec.ofNat 16 (leValue (lineBytes line p.cur 2)))
      ({ p with cur := p.cur + 2 }.push (p.acc + d), true)
  else (p.push (p.acc + offset32 o), true)

/-- The slots of a block, in order. -/
def lineSlots (line : List Byte) : List (BitVec 16) → Progress → Progress × Bool
  | [], p => (p, true)
  | o :: os, p => goOn (lineSlot line o p) (lineSlots line os)

/-- The 8 provisional offsets of a packed run (spec/42_block.md R108, R109). -/
def runOffsets (bs : List Byte) : List (BitVec 16) :=
  (List.range 8).map fun f => provisional (BitVec.ofNat 120 (leValue bs)) bs.length f

/-- One block: control byte, both runs, then the 16 slots (R80, spec/42_block.md R119). -/
def lineBlock (line : List Byte) (p : Progress) : Progress × Bool :=
  if !lineNeed line p.cur 1 then (p, false)
  else
    let c := (line.getD p.cur 0#8).toNat
    let n0 := c % 16
    let n1 := c / 16
    let k0 := p.cur + 1
    if !lineNeed line k0 n0 then ({ p with cur := k0 }, false)
    else
      let k1 := k0 + n0
      if !lineNeed line k1 n1 then ({ p with cur := k1 }, false)
      else lineSlots line (runOffsets (lineBytes line k0 n0) ++ runOffsets (lineBytes line k1 n1))
        { p with cur := k1 + n1 }

/-- NBLOCK blocks (R80 step 4). -/
def lineBlocks (line : List Byte) : Nat → Progress → Progress × Bool
  | 0, p => (p, true)
  | n + 1, p => goOn (lineBlock line p) (lineBlocks line n)

/-- NREST remainder slots (R80 step 5). -/
def lineRest (line : List Byte) : Nat → Progress → Progress × Bool
  | 0, p => (p, true)
  | n + 1, p =>
    match lineSingle line p.cur with
    | (cur, none) => ({ p with cur := cur }, false)
    | (cur, some d) => lineRest line n ({ p with cur := cur }.push (p.acc + d))

/-- DECODE() (R80): the progress at `finish()`. The output is `out` followed by zeros, PRODUCED is its length, CONSUMED is
`cur`, and TRUNC says that `out` is shorter than WIDTH. -/
def decodeLine (line : List Byte) (width : Word) : Progress :=
  if width = 0#32 then ⟨[], 0, 0#32⟩
  else match lineSingle line 0 with
    | (cur, none) => ⟨[], cur, 0#32⟩
    | (cur, some v) =>
      (goOn (lineBlocks line (nblock width) ⟨[v], cur, v⟩) (lineRest line (nrest width))).1

end Sys2Proof.Machine
end

