-- ==== Sys2Proof/Safety.lean ====
section
/-! DEFINITION. The terms that claims are stated in: what a step leaves unchanged, when a slot can be written, the invariants
of spec/10_state.md R38, the step bound of spec/40_sequencer.md R92, and the memory that an operation leaves. -/

namespace Sys2Proof.Machine

/-- The machine on a platform with the parameters REG_BASE and N_INST (spec/00_scope.md R8) and its holes: the machine of
the host's interface, from that platform's reset state. `Sys2Proof.core` is the one at 0xFFFFFFE0 with N_INST = 1. -/
def platformCore (base : Word) (others : List Word) (holes : List Hole) : Host.Core where
  State := State
  Fault := Fault
  Refusal := Refusal
  step := step
  reset := State.resetOn base others holes

/-! ### Frames -/

/-- Every byte outside `n` bytes from `a` on reads as before. -/
def MemSameExcept (s t : State) (a n : Nat) : Prop :=
  ∀ x, ¬(a ≤ x ∧ x < a + n) → Memory.read t.mem x = Memory.read s.mem x

/-- Everything but the active block and the memory is as before. -/
def SameAround (s t : State) : Prop :=
  t.others = s.others ∧ t.holes = s.holes ∧ t.rdata = s.rdata ∧ t.hostBytes = s.hostBytes ∧ t.draws = s.draws
    ∧ t.sched = s.sched

/-- The step stored `v` in output slot `i` and no other byte, and left everything around the block as it was. -/
def SlotStored (s t : State) (i : Nat) (v : Word) : Prop :=
  Memory.readWord t.mem (s.blk.slotAddr i) = some v ∧ MemSameExcept s t (s.blk.slotAddr i) 4 ∧ SameAround s t

/-- Output slot `i` is in the address space and backed by memory, so that writing it completes. -/
def State.slotOk (s : State) (i : Nat) : Bool :=
  let a := s.blk.slotAddr i
  decide (a + 4 ≤ Config.addrSpace) && s.backed a && s.backed (a + 1) && s.backed (a + 2) && s.backed (a + 3)

/-- `n` bytes at CUR are inside the input and are `bs` in memory. -/
def State.Line (s : State) (bs : List Byte) : Prop :=
  s.blk.need bs.length = true ∧ s.inputBytes 0 bs.length = .next bs

/-- `n` steps of the machine. -/
def runSteps : Nat → State → Result State
  | 0, s => .next s
  | n + 1, s => andThen (step s) (runSteps n)

/-- Some byte of an address range lies in another. -/
def SharesByte (a n b m : Nat) : Prop := ∃ x, (a ≤ x ∧ x < a + n) ∧ (b ≤ x ∧ x < b + m)

/-- The active block's configuration breaks a host duty on memory (spec/20_memory.md R60 items 1 to 4), or conflicts with a
running block (spec/60_exceptions.md R157). -/
def State.BreaksDuty (s : State) : Prop :=
  let b := s.blk
  let inLen := b.inLen.toNat
  let outLen := 4 * b.width.toNat
  Config.addrSpace < b.inBase.toNat + inLen ∨ Config.addrSpace < b.outBase.toNat + outLen
    ∨ SharesByte b.inBase.toNat inLen b.outBase.toNat outLen
    ∨ (∃ x, ((b.inBase.toNat ≤ x ∧ x < b.inBase.toNat + inLen) ∨ (b.outBase.toNat ≤ x ∧ x < b.outBase.toNat + outLen))
        ∧ s.backed x = false)
    ∨ ∃ c ∈ s.others, c.busy = true ∧
        (SharesByte b.outBase.toNat outLen c.inBase.toNat c.inLen.toNat
          ∨ SharesByte b.outBase.toNat outLen c.outBase.toNat (4 * c.width.toNat)
          ∨ SharesByte b.inBase.toNat inLen c.outBase.toNat (4 * c.width.toNat))

/-- The phases that can follow a phase in one step of the block (spec/40_sequencer.md R79, R84, R86). -/
def phaseFollows : Phase → Phase → Bool
  | .idle, q => q = .idle
  | .zfill, q => q = .zfill || q = .first || q = .idle
  | .first, q => q = .bctrl || q = .rem || q = .idle
  | .bctrl, q => q = .bpack || q = .idle
  | .bpack, q => q = .bpack || q = .bres || q = .idle
  | .bres, q => q = .bres || q = .bctrl || q = .rem || q = .idle
  | .rem, q => q = .rem || q = .idle

/-! ### Invariants (R38) -/

/-- What R38 says of the registers while an operation runs: the counters fit the phase (R28 to R34). While IDLE the
configuration may have been rewritten, and nothing is said (log entry 15). -/
def Block.consistent (b : Block) : Bool :=
  let nb := nblock b.width
  match b.phase with
  | .idle => true
  | .zfill =>
    !b.done && !b.trunc && decide (b.cur = 0#32 ∧ b.idx = 0#32 ∧ b.acc = 0#32 ∧ b.blkcnt = 0#28
      ∧ (b.zi.toNat < b.width.toNat ∨ (b.width = 0#32 ∧ b.zi = 0#32)))
  | .first =>
    !b.done && !b.trunc && decide (b.cur = 0#32 ∧ b.idx = 0#32 ∧ b.acc = 0#32 ∧ b.blkcnt = 0#28
      ∧ 0 < b.width.toNat ∧ b.zi = b.width)
  | .bctrl | .bpack =>
    !b.done && !b.trunc && decide (b.cur.toNat ≤ b.inLen.toNat ∧ b.blkcnt.toNat < nb
      ∧ b.idx.toNat = 1 + 16 * b.blkcnt.toNat ∧ b.zi = b.width)
  | .bres =>
    !b.done && !b.trunc && decide (b.cur.toNat ≤ b.inLen.toNat ∧ b.blkcnt.toNat < nb
      ∧ b.idx.toNat = 1 + 16 * b.blkcnt.toNat + b.slot.toNat ∧ b.zi = b.width)
  | .rem =>
    !b.done && !b.trunc && decide (b.cur.toNat ≤ b.inLen.toNat ∧ b.blkcnt.toNat = nb
      ∧ 1 + 16 * nb ≤ b.idx.toNat ∧ b.idx.toNat < b.width.toNat ∧ b.zi = b.width)

/-- Every block's registers are consistent and the memory has its canonical form. -/
def State.consistent (s : State) : Bool := Memory.wf s.mem && s.blocks.all Block.consistent

/-- The placement duties of one block: its regions do not wrap and share no byte (spec/20_memory.md R60 items 1 to 3). -/
def Block.placed (b : Block) : Bool :=
  decide (b.inBase.toNat + b.inLen.toNat ≤ Config.addrSpace)
    && decide (b.outBase.toNat + 4 * b.width.toNat ≤ Config.addrSpace)
    && !b.outputMeets b.inBase.toNat b.inLen.toNat

/-- The host duties hold of every running block, alone and together (R60, spec/60_exceptions.md R157). -/
def State.DutiesHold (s : State) : Prop :=
  (∀ b ∈ s.blocks, b.busy = true → b.placed = true)
    ∧ s.blocks.Pairwise fun b c => b.busy = true → c.busy = true → b.conflicts c = false

/-- What R38 says of a running block's output region: in ZFILL the slots below ZI hold 0; after it the slots from IDX on
hold 0, and slot IDX - 1 holds ACC. -/
def Block.OutputHolds (b : Block) (m : Memory) : Prop :=
  match b.phase with
  | .idle => True
  | .zfill => ∀ i, i < b.zi.toNat → Memory.readWord m (b.slotAddr i) = some 0#32
  | .first | .bctrl | .bpack | .bres | .rem =>
    (∀ i, b.idx.toNat ≤ i → i < b.width.toNat → Memory.readWord m (b.slotAddr i) = some 0#32)
      ∧ (1 ≤ b.idx.toNat → Memory.readWord m (b.slotAddr (b.idx.toNat - 1)) = some b.acc)

/-- The invariant of R38: consistent registers, duties kept, and every running block's output as R38 says. -/
def State.Inv (s : State) : Prop :=
  s.consistent = true ∧ s.DutiesHold ∧ ∀ b ∈ s.blocks, b.OutputHolds s.mem

/-! ### Bounds -/

/-- The block steps that an operation can still take (spec/40_sequencer.md R92). -/
def Block.stepsLeft (b : Block) : Nat :=
  let nb := nblock b.width
  match b.phase with
  | .idle => 0
  | .zfill => if b.width = 0#32 then 1 else (b.width.toNat - b.zi.toNat) + 1 + 19 * nb + nrest b.width
  | .first => 1 + 19 * nb + nrest b.width
  | .bctrl => 19 * (nb - b.blkcnt.toNat) + nrest b.width
  | .bpack => 18 - b.half.toNat + 19 * (nb - b.blkcnt.toNat - 1) + nrest b.width
  | .bres => 16 - b.slot.toNat + 19 * (nb - b.blkcnt.toNat - 1) + nrest b.width
  | .rem => b.width.toNat - b.idx.toNat

/-- The bound of R92 on the steps after START. -/
def stepBound (width : Word) : Nat :=
  if width = 0#32 then 1 else width.toNat + 1 + 19 * nblock width + nrest width

/-! ### The memory that an operation leaves -/

/-- Values stored in consecutive output slots from slot `i` on. -/
def storeSlots (b : Block) : Memory → Nat → List Word → Memory
  | m, _, [] => m
  | m, i, v :: vs => storeSlots b (Memory.writeWord m (b.slotAddr i) v) (i + 1) vs

/-- The memory that an operation leaves (spec/20_memory.md R52): every slot zeroed, then the final slots stored in order. -/
def lineMemory (b : Block) (m : Memory) (out : List Word) : Memory :=
  storeSlots b (storeSlots b m 0 (List.replicate b.width.toNat 0#32)) 0 out

/-- The line's bytes stand in the input region (duty 3 of spec/44_host_interface.md R141). -/
def State.HoldsLine (s : State) (line : List Byte) : Prop :=
  line.length = s.blk.inLen.toNat ∧ s.readBytes s.blk.inBase.toNat line.length = .next line

end Sys2Proof.Machine
end

