-- ==== Sys2Proof/Certificates/Slice0/Obligations.lean ====
section
/-! DEFINITION. The statements for the provers, each with the rule or sections of the spec that it formalises. -/

open Sys2Proof Sys2Proof.Machine

/-! ### The encoding (spec/30_encoding.md) -/

/-- Every well-formed instruction is read back from its own bytes in every context it belongs to, whatever follows it: no
bit of an operand is dropped (R63, R66, R67, R70, R75). The byte form of a host access is the model's (log entry 11). -/
def Obligations.DecodeReadsBackEncode : Prop :=
  ∀ (c : Ctx) (i : Instr) (rest : List Byte), i.wellFormed = true → i.fits c = true →
    decode c (encode i ++ rest) = .ok (i, rest)

/-- The converse: what the decoder reads is well-formed, belongs to the context, and re-encodes to the bytes it was read
from, so no two instructions of a context share bytes. -/
def Obligations.EncodeRestoresDecodedBytes : Prop :=
  ∀ (c : Ctx) (bs rest : List Byte) (i : Instr), decode c bs = .ok (i, rest) →
    i.wellFormed = true ∧ i.fits c = true ∧ bs = encode i ++ rest

/-- The decoder picks the row that the opcode table picks: the first matching row of the context in priority order (R76). -/
def Obligations.DecoderFollowsOpcodeTable : Prop :=
  ∀ (c : Ctx) (bs rest : List Byte) (i : Instr), decode c bs = .ok (i, rest) →
    (tableRow c bs).map Row.kind = some i.kind

/-- No stream byte is illegal: in every stream context the decoder reads a token exactly when the token's bytes are all
there (R64, R72, R73). -/
def Obligations.StreamDecodesWheneverLongEnough : Prop :=
  ∀ (c : Ctx) (bs : List Byte), c ≠ .host →
    (c.leadLen + c.tailLen bs ≤ bs.length ↔ ∃ i rest, decode c bs = .ok (i, rest))

/-- Words written out from the spec's encodings decode to what they stand for (spec/95_test_vectors.md P1, P2, V13, H6). -/
def Obligations.WrittenOutWordsDecode : Prop :=
  decode .first [0xFE#8, 0xE8#8, 0x03#8] = .ok (.pixS16 1000#16, [])
    ∧ decode .first [0xFF#8, 0x78#8, 0x56#8, 0x34#8, 0x12#8] = .ok (.pixS32 0x12345678#32, [])
    ∧ decode .bctrl [0x38#8] = .ok (.blk 8#4 3#4, [])
    ∧ decode (.bpack 3#4) [0x23#8, 0x1E#8, 0xD5#8] = .ok (.half 3#4 0xD51E23#120, [])
    ∧ decode (.bres 127#16) [0x78#8, 0xEC#8] = .ok (.slotEsc16 0xEC78#16, [])
    ∧ decode .rem [0x84#8] = .ok (.dltB 0x84#8, [])
    ∧ decode .host [0x08#8, 0x01#8, 0x00#8, 0x00#8, 0x00#8] = .ok (.hostStart 1#32, [])
    ∧ decode .host [0x01#8] = .ok (.hostRd .status, [])

/-- An access at an offset of an aligned REG_BASE is the operation that its direction, its offset and, for CTRL, its bit 0
select (R75), for every offset whose address exists: that a window does not wrap past 2^32 is the model's choice (log
entry 20). -/
def Obligations.AccessesDecodeByTheirOffset : Prop :=
  ∀ (base data : Word), base.toNat % 4 = 0 →
    let wr (off : Word) (i : Instr) : Prop := base.toNat + off.toNat < Config.addrSpace →
      decodeAccess base ⟨true, base + off, 4, data⟩ = .ok (i, [])
    let rd (off : Word) (i : Instr) : Prop := base.toNat + off.toNat < Config.addrSpace →
      decodeAccess base ⟨false, base + off, 4, data⟩ = .ok (i, [])
    (data.getLsbD 0 = true → wr 0x00#32 (.hostStart data))
      ∧ (data.getLsbD 0 = false → wr 0x00#32 (.hostCtrl0 data))
      ∧ wr 0x04#32 (.hostWrStatus data) ∧ wr 0x08#32 (.hostWrInBase data)
      ∧ wr 0x0C#32 (.hostWrInLen data) ∧ wr 0x10#32 (.hostWrOutBase data)
      ∧ wr 0x14#32 (.hostWrWidth data) ∧ wr 0x18#32 (.hostWrProduced data)
      ∧ wr 0x1C#32 (.hostWrConsumed data)
      ∧ rd 0x00#32 (.hostRd .ctrl) ∧ rd 0x04#32 (.hostRd .status)
      ∧ rd 0x08#32 (.hostRd .inBase) ∧ rd 0x0C#32 (.hostRd .inLen)
      ∧ rd 0x10#32 (.hostRd .outBase) ∧ rd 0x14#32 (.hostRd .width)
      ∧ rd 0x18#32 (.hostRd .produced) ∧ rd 0x1C#32 (.hostRd .consumed)

/-! ### The bit-field extractor and the packed-integer decoder (spec/42_block.md) -/

/-- Bit `t` of raw field `f` of a run of `n` bytes is bit `p mod 8` of run byte `p div 8`, `p = f n + t` (R67, R68, R108). -/
def Obligations.FieldBitsComeFromRunBytes : Prop :=
  ∀ (rs : List Byte) (f t : Nat), rs.length ≤ 15 → f < 8 → t < rs.length →
    (rawField (BitVec.ofNat 120 (leValue rs)) rs.length f).testBit t
      = (rs.getD ((f * rs.length + t) / 8) 0#8).getLsbD ((f * rs.length + t) % 8)

/-- A provisional offset is the raw field less `zero_at`, exactly, and lies in R69's range: the i16 never wraps (R33, R69,
R109). -/
def Obligations.ProvisionalOffsetsAreExact : Prop :=
  ∀ (pack : BitVec 120) (n f : Nat), n ≤ 15 →
    (provisional pack n f).toInt = (rawField pack n f : Int) - zeroAt n
      ∧ -(zeroAt n : Int) ≤ (provisional pack n f).toInt ∧ (provisional pack n f).toInt ≤ 2 ^ n - 1 - zeroAt n

/-- Widths 0 to 7 never escape; widths 8 to 15 escape exactly at the raw values of R69's table (R70, R120). -/
def Obligations.EscapesExactlyAtSentinelRawValues : Prop :=
  ∀ (pack : BitVec 120) (n f : Nat), n ≤ 15 →
    (n ≤ 7 → literalClass (provisional pack n f) = .field)
      ∧ (8 ≤ n →
        (literalClass (provisional pack n f) = .esc16 ↔ rawField pack n f = 127 + zeroAt n)
          ∧ (literalClass (provisional pack n f) = .esc32 ↔ 128 + zeroAt n ≤ rawField pack n f))

/-! ### Memory (spec/20_memory.md) -/

/-- Two memories in canonical form that read alike at every address are the same list. -/
def Obligations.CanonicalMemoriesThatReadAlikeAreEqual : Prop :=
  ∀ m n : Memory, Memory.wf m = true → Memory.wf n = true → (∀ a, Memory.read m a = Memory.read n a) → m = n

/-- Another agent's write that completes lands byte by byte, changes no other byte and no register (R41, R58). -/
def Obligations.AgentWriteLands : Prop :=
  ∀ (s : State) (addr : Word) (data : List Byte) (us : List Turn), s.sched = .memWrite addr data :: us →
    addr.toNat + data.length ≤ Config.addrSpace → s.regionBusy addr.toNat data.length = false →
    s.unbackedIn addr.toNat data.length = false →
    ∃ t, step s = .next t ∧ t.blocks = s.blocks ∧ t.sched = us
      ∧ (∀ j, j < data.length → Memory.read t.mem (addr.toNat + j) = some (data.getD j 0#8))
      ∧ MemSameExcept s t addr.toNat data.length

/-- While a block runs, another agent's access that writes or reads a byte of its input or output region is refused (R41, R58,
R60 item 5, spec/44_host_interface.md R140, R141). -/
def Obligations.BusyRegionsAreOutOfBounds : Prop :=
  ∀ (s : State) (b : Block) (addr : Word) (us : List Turn), b ∈ s.blocks → b.busy = true →
    (∀ data, s.sched = .memWrite addr data :: us → addr.toNat + data.length ≤ Config.addrSpace →
      (SharesByte addr.toNat data.length b.inBase.toNat b.inLen.toNat
        ∨ SharesByte addr.toNat data.length b.outBase.toNat (4 * b.width.toNat)) →
      step s = .refused .regionInUse)
    ∧ (∀ count, s.sched = .memRead addr count :: us →
      (SharesByte addr.toNat count b.inBase.toNat b.inLen.toNat
        ∨ SharesByte addr.toNat count b.outBase.toNat (4 * b.width.toNat)) → step s = .refused .regionInUse)

/-! ### The step -/

/-- When the bytes at the cursor are inside the input and decode, in the block's context, to exactly one instruction, the
step is that instruction's meaning; a turn of the block does the same with the turn taken off the schedule (R12, R62). -/
def Obligations.StepRunsTokenAtCursor : Prop :=
  ∀ (s : State) (c : Ctx) (bs : List Byte) (i : Instr), s.blk.ctx = some c → s.Line bs → decode c bs = .ok (i, []) →
    (s.sched = [] → step s = exec i s)
      ∧ (∀ us, s.sched = .block s.blk.regBase :: us → step s = exec i { s with sched := us })

/-- A register access that decodes is run as its instruction, on the block it is routed to, with the turn taken off the
schedule (spec/44_host_interface.md R129). -/
def Obligations.StepRunsHostAccess : Prop :=
  ∀ (s t : State) (base : Word) (a : HostAccess) (us : List Turn) (i : Instr),
    s.sched = .access base a :: us → { s with sched := us }.select base = some t →
    decodeAccess base a = .ok (i, []) → step s = exec i t

/-- When the whole rest of the input is too short for the token, the step reads no byte of the part that is missing, keeps
a lead byte that it read, finalises nothing and ends the operation (spec/40_sequencer.md R86, R88, R90). -/
def Obligations.CutTokenEndsTheOperation : Prop :=
  ∀ (s : State) (c : Ctx) (bs : List Byte) (e : DecodeError), s.sched = [] → s.blk.ctx = some c → s.Line bs →
    s.blk.cur.toNat + bs.length = s.blk.inLen.toNat → decode c bs = .error e →
    step s = .next (s.setBlk { s.blk with
      cur := s.blk.cur + BitVec.ofNat 32 e.consumed
      trunc := decide (s.blk.idx.toNat < s.blk.width.toNat)
      phase := .idle
      done := true })

/-- A register access that is not 32 bits wide, not 4-byte aligned, or outside the window is refused (R138). That an address
below REG_BASE is outside it is inferred from R74 (log entry 10), and that the window does not wrap past 2^32 is the model's
choice (log entry 20). -/
def Obligations.BadAccessesAreRefused : Prop :=
  ∀ (s : State) (a : HostAccess) (us : List Turn), s.sched = .access s.blk.regBase a :: us →
    (a.size ≠ 4 ∨ a.addr.toNat % 4 ≠ 0 ∨ a.addr.toNat < s.blk.regBase.toNat
      ∨ s.blk.regBase.toNat + 32 ≤ a.addr.toNat) →
    ∃ e, step s = .refused (.badAccess e)

/-- In IDLE the block takes no step, so a machine with nothing scheduled stays as it is (spec/60_exceptions.md R159; that an
empty schedule is the block's turn is the model's choice, log entry 1). -/
def Obligations.IdleBlockTakesNoStep : Prop :=
  ∀ s : State, s.blk.phase = .idle →
    (s.sched = [] → step s = .next s)
      ∧ (∀ us, s.sched = .block s.blk.regBase :: us → step s = .next { s with sched := us })

/-! ### The sequencer (spec/40_sequencer.md) -/

/-- The line splits into the first pixel, NBLOCK full blocks and NREST remainder slots, and every slot of block `k` lies
below WIDTH (R81, R95). -/
def Obligations.LineGeometry : Prop :=
  ∀ w : Word, 1 ≤ w.toNat →
    nblock w = (w.toNat - 1) / 16 ∧ nrest w = (w.toNat - 1) % 16
      ∧ 1 + 16 * nblock w + nrest w = w.toNat
      ∧ ∀ k, k < nblock w → 16 + 16 * k ≤ 16 * nblock w ∧ 16 * nblock w ≤ w.toNat - 1

/-- The ZFILL step: with WIDTH = 0 it ends the operation and touches no memory; otherwise it zeroes slot ZI, and FIRST
follows the last slot (R82). -/
def Obligations.ZfillZeroesSlotsInOrder : Prop :=
  ∀ s : State, s.sched = [] → s.blk.phase = .zfill →
    (s.blk.width = 0#32 →
      step s = .next (s.setBlk { s.blk with
        trunc := decide (s.blk.idx.toNat < s.blk.width.toNat), phase := .idle, done := true }))
    ∧ (s.blk.width ≠ 0#32 → s.slotOk s.blk.zi.toNat = true →
      ∃ t, step s = .next t ∧ SlotStored s t s.blk.zi.toNat 0#32
        ∧ t.blk = { s.blk with
          zi := s.blk.zi + 1#32
          phase := if s.blk.zi + 1#32 = s.blk.width then .first else .zfill })

/-- NEXT(): the operation ends when the last slot is finalised, else a block follows while one is left, else the remainder
(R84). -/
def Obligations.NextPhaseFollowsGeometry : Prop :=
  ∀ b : Block,
    (b.idx = b.width → b.nextPhase = { b with
      trunc := decide (b.idx.toNat < b.width.toNat), phase := .idle, done := true })
    ∧ (b.idx ≠ b.width → b.blkcnt.toNat < (b.width.toNat - 1) / 16 → b.nextPhase = { b with phase := .bctrl })
    ∧ (b.idx ≠ b.width → ¬b.blkcnt.toNat < (b.width.toNat - 1) / 16 → b.nextPhase = { b with phase := .rem })

/-- A step of the block moves between the phases only as R79 orders them, and `finish()` is called from ZFILL only when
WIDTH = 0. -/
def Obligations.PhasesFollowTheirOrder : Prop :=
  ∀ s t : State, s.consistent = true → s.sched = [] → step s = .next t →
    phaseFollows s.blk.phase t.blk.phase = true
      ∧ (s.blk.phase = .zfill → t.blk.phase = .idle → s.blk.width = 0#32)

/-- CUR never falls and never passes IN_LEN; IDX rises by at most 1 a step and never passes WIDTH (spec/10_state.md R25,
R26). -/
def Obligations.CursorAndIndexOnlyAdvance : Prop :=
  ∀ s t : State, s.consistent = true → s.blk.busy = true → s.sched = [] → step s = .next t →
    s.blk.cur.toNat ≤ t.blk.cur.toNat ∧ t.blk.cur.toNat ≤ t.blk.inLen.toNat
      ∧ (t.blk.idx.toNat = s.blk.idx.toNat ∨ t.blk.idx.toNat = s.blk.idx.toNat + 1)
      ∧ t.blk.idx.toNat ≤ t.blk.width.toNat

/-- Every operation ends: after START the bound of R92 is left, every step of the running block lowers what is left, and a
block that goes on lowers it by exactly 1. -/
def Obligations.EveryStepLowersTheStepBound : Prop :=
  (∀ b : Block, b.start.stepsLeft = stepBound b.width)
    ∧ ∀ s t : State, s.consistent = true → s.blk.busy = true → s.sched = [] → step s = .next t →
      t.blk.stepsLeft < s.blk.stepsLeft ∧ (t.blk.busy = true → t.blk.stepsLeft + 1 = s.blk.stepsLeft)

/-- A running block always has a step to take: with its slots writable and its input in memory, it answers a next state
(spec/44_host_interface.md R145, R86: short input is no stop). -/
def Obligations.RunningBlockAlwaysSteps : Prop :=
  ∀ s : State, s.consistent = true → s.blk.busy = true → s.sched = [] →
    (∀ i, i < s.blk.width.toNat → s.slotOk i = true) →
    (∀ k, k < s.blk.inLen.toNat → ∃ v, s.readByte (s.blk.inAddr k) = .next v) →
    ∃ t, step s = .next t

/-- The block writes nothing but its output region, and nothing around it changes (spec/20_memory.md R45). -/
def Obligations.BlockWritesOnlyItsOutputRegion : Prop :=
  ∀ s t : State, s.consistent = true → s.sched = [] → step s = .next t →
    MemSameExcept s t s.blk.outBase.toNat (4 * s.blk.width.toNat) ∧ SameAround s t

/-- A step of the block depends on its registers and on the input bytes from CUR to IN_LEN alone: two machines that agree
there step to the same registers, and go on agreeing wherever they agreed (spec/20_memory.md R42, R51;
spec/40_sequencer.md R94). -/
def Obligations.BlockReadsOnlyItsInput : Prop :=
  ∀ s s' t : State, s.sched = [] → s'.sched = [] → s'.blk = s.blk → s'.others = s.others → s'.holes = s.holes →
    (∀ k, s.blk.cur.toNat ≤ k → k < s.blk.inLen.toNat →
      Memory.read s'.mem (s.blk.inAddr k) = Memory.read s.mem (s.blk.inAddr k)) →
    step s = .next t →
    ∃ t', step s' = .next t' ∧ t'.blk = t.blk
      ∧ ∀ a, Memory.read s'.mem a = Memory.read s.mem a → Memory.read t'.mem a = Memory.read t.mem a

/-- The phase steps perform DECODE() (R80): from the state that START leaves, over a placed and backed configuration whose
input region holds the line, the machine reaches IDLE within R92's bound with the PRODUCED, CONSUMED, TRUNC and memory that
DECODE() gives, and with nothing else around the block changed. The bound on the number of steps is R92's. -/
def Obligations.PhaseStepsPerformDecode : Prop :=
  ∀ (s : State) (line : List Byte), s.sched = [] → s.blk = s.blk.start → s.blk.placed = true → s.HoldsLine line →
    (∀ i, i < s.blk.width.toNat → s.slotOk i = true) →
    ∃ n t, n ≤ stepBound s.blk.width ∧ runSteps n s = .next t
      ∧ t.blk.phase = .idle ∧ t.blk.done = true
      ∧ t.blk.idx.toNat = (decodeLine line s.blk.width).out.length
      ∧ t.blk.cur.toNat = (decodeLine line s.blk.width).cur
      ∧ t.blk.trunc = decide ((decodeLine line s.blk.width).out.length < s.blk.width.toNat)
      ∧ t.mem = lineMemory s.blk s.mem (decodeLine line s.blk.width).out
      ∧ SameAround s t

/-- DECODE() finalises at most WIDTH slots and reads at most IN_LEN bytes (R91). -/
def Obligations.DecodeStaysInsideLineAndWidth : Prop :=
  ∀ (line : List Byte) (w : Word),
    (decodeLine line w).out.length ≤ w.toNat ∧ (decodeLine line w).cur ≤ line.length

/-- Prefix-determinism (R93): the slots finalised from a cut input are a prefix of those finalised from the whole. -/
def Obligations.CutInputGivesPrefixOfSlots : Prop :=
  ∀ (line : List Byte) (w : Word) (k : Nat), (decodeLine (line.take k) w).out <+: (decodeLine line w).out

/-! ### First pixel (spec/41_first_pixel.md) -/

/-- PIX.B (R99): its bytes in FIRST, and its effect. -/
def Obligations.PixBStoresBiasedByte : Prop :=
  (∀ (b : Byte) (rest : List Byte), b.toNat < 254 → decode .first (b :: rest) = .ok (.pixB b, rest))
  ∧ ∀ (b : Byte) (s : State), s.blk.phase = .first → s.blk.need 1 = true → s.slotOk 0 = true →
    ∃ t, exec (.pixB b) s = .next t ∧ SlotStored s t 0 (BitVec.ofInt 32 ((b.toNat : Int) - 127))
      ∧ t.blk = { s.blk with
        cur := s.blk.cur + 1#32, acc := BitVec.ofInt 32 ((b.toNat : Int) - 127), idx := 1#32 }.nextPhase

/-- PIX.S16 (R100): its bytes in FIRST, and its effect. -/
def Obligations.PixS16StoresSignedLiteral : Prop :=
  (∀ (lo hi : Byte) (rest : List Byte), decode .first (0xFE#8 :: lo :: hi :: rest) = .ok (.pixS16 (hi ++ lo), rest))
  ∧ ∀ (lit : BitVec 16) (s : State), s.blk.phase = .first → s.blk.need 3 = true → s.slotOk 0 = true →
    ∃ t, exec (.pixS16 lit) s = .next t ∧ SlotStored s t 0 (BitVec.ofInt 32 lit.toInt)
      ∧ t.blk = { s.blk with
        cur := s.blk.cur + 3#32, acc := BitVec.ofInt 32 lit.toInt, idx := 1#32 }.nextPhase

/-- PIX.S32 (R101): its bytes in FIRST, and its effect. -/
def Obligations.PixS32StoresLiteral : Prop :=
  (∀ (b0 b1 b2 b3 : Byte) (rest : List Byte),
    decode .first (0xFF#8 :: b0 :: b1 :: b2 :: b3 :: rest) = .ok (.pixS32 (b3 ++ b2 ++ b1 ++ b0), rest))
  ∧ ∀ (lit : Word) (s : State), s.blk.phase = .first → s.blk.need 5 = true → s.slotOk 0 = true →
    ∃ t, exec (.pixS32 lit) s = .next t ∧ SlotStored s t 0 lit
      ∧ t.blk = { s.blk with cur := s.blk.cur + 5#32, acc := lit, idx := 1#32 }.nextPhase

/-- A PIX or DLT token whose literal runs past the input ends the operation with the lead byte consumed and no slot
finalised; with no lead byte left nothing is consumed (R97, R102; spec/43_remainder.md R127; spec/40_sequencer.md R88). -/
def Obligations.CutLiteralKeepsOnlyLeadByte : Prop :=
  ∀ (lit16 : BitVec 16) (lit32 : Word) (b : Byte) (s : State),
    let ended (n : Nat) : State := s.setBlk { s.blk with
      cur := s.blk.cur + BitVec.ofNat 32 n
      trunc := decide (s.blk.idx.toNat < s.blk.width.toNat)
      phase := .idle
      done := true }
    (s.blk.phase = .first →
      (s.blk.need 1 = false → exec (.pixB b) s = .next (ended 0) ∧ exec (.pixS16 lit16) s = .next (ended 0)
          ∧ exec (.pixS32 lit32) s = .next (ended 0))
        ∧ (s.blk.need 1 = true → s.blk.need 3 = false → exec (.pixS16 lit16) s = .next (ended 1))
        ∧ (s.blk.need 1 = true → s.blk.need 5 = false → exec (.pixS32 lit32) s = .next (ended 1)))
    ∧ (s.blk.phase = .rem →
      (s.blk.need 1 = false → exec (.dltB b) s = .next (ended 0) ∧ exec (.dltS16 lit16) s = .next (ended 0)
          ∧ exec (.dltS32 lit32) s = .next (ended 0))
        ∧ (s.blk.need 1 = true → s.blk.need 3 = false → exec (.dltS16 lit16) s = .next (ended 1))
        ∧ (s.blk.need 1 = true → s.blk.need 5 = false → exec (.dltS32 lit32) s = .next (ended 1)))

/-! ### Blocks (spec/42_block.md) -/

/-- BLK (R104, R105): its byte in BCTRL; the widths, the first half-block next, one byte consumed, and nothing else. -/
def Obligations.BlkSetsBothWidths : Prop :=
  (∀ (c : Byte) (rest : List Byte),
    decode .bctrl (c :: rest) = .ok (.blk (BitVec.ofNat 4 (c.toNat % 16)) (BitVec.ofNat 4 (c.toNat / 16)), rest))
  ∧ ∀ (n0 n1 : BitVec 4) (s : State), s.blk.phase = .bctrl → s.blk.need 1 = true →
    exec (.blk n0 n1) s = .next (s.setBlk { s.blk with
      cur := s.blk.cur + 1#32, nbit0 := n0, nbit1 := n1, half := 0#1, phase := .bpack })

/-- HALF (R106 to R111): its bytes in BPACK make the number P of R107; PACK is that number; the half-block's 8 offsets are its fields less `zero_at`, as integers; the other 8
stay; the run is consumed; the second half or the resolution follows; nothing else changes. -/
def Obligations.HalfUnpacksEightOffsets : Prop :=
  (∀ (n : BitVec 4) (rs rest : List Byte), rs.length = n.toNat →
    ∃ p : BitVec 120, decode (.bpack n) (rs ++ rest) = .ok (.half n p, rest)
      ∧ p.toNat = (rs.zipIdx.map fun r => r.1.toNat * 2 ^ (8 * r.2)).sum)
  ∧ ∀ (run : BitVec 120) (s : State), s.blk.phase = .bpack → s.blk.need s.blk.nbit.toNat = true →
    ∃ ofs : Vector (BitVec 16) 16,
      exec (.half s.blk.nbit run) s = .next (s.setBlk { s.blk with
        cur := s.blk.cur + BitVec.ofNat 32 s.blk.nbit.toNat
        pack := run
        ofs := ofs
        half := if s.blk.half = 0#1 then 1#1 else s.blk.half
        slot := if s.blk.half = 0#1 then s.blk.slot else 0#4
        phase := if s.blk.half = 0#1 then .bpack else .bres })
      ∧ ∀ j : Fin 16,
        (j.val / 8 = s.blk.half.toNat →
          ofs[j].toInt = ((run.toNat / 2 ^ (j.val % 8 * s.blk.nbit.toNat) % 2 ^ s.blk.nbit.toNat : Nat) : Int)
            - (if 1 < s.blk.nbit.toNat then 2 ^ (s.blk.nbit.toNat - 1) - 1 else 0))
        ∧ (j.val / 8 ≠ s.blk.half.toNat → ofs[j] = s.blk.ofs[j])

/-- SLOT.FIELD (R114): for an offset of at most 126 no byte is read and the slot is ACC plus the offset, wrapping. -/
def Obligations.SlotFieldAddsItsOffset : Prop :=
  (∀ (o : BitVec 16) (bs : List Byte), o.toInt ≤ 126 → decode (.bres o) bs = .ok (.slotField, bs))
  ∧ ∀ s : State, s.blk.phase = .bres → s.blk.slotOffset.toInt ≤ 126 → s.slotOk s.blk.idx.toNat = true →
    let v := BitVec.ofInt 32 (s.blk.acc.toInt + s.blk.slotOffset.toInt)
    ∃ t, exec .slotField s = .next t ∧ SlotStored s t s.blk.idx.toNat v
      ∧ t.blk = { s.blk with acc := v, idx := s.blk.idx + 1#32 }.nextSlot

/-- SLOT.ESC16 (R115): for an offset of 127 the 2-byte literal is added instead, wrapping. -/
def Obligations.SlotEsc16AddsItsLiteral : Prop :=
  (∀ (o : BitVec 16) (lo hi : Byte) (rest : List Byte), o.toInt = 127 →
    decode (.bres o) (lo :: hi :: rest) = .ok (.slotEsc16 (hi ++ lo), rest))
  ∧ ∀ (lit : BitVec 16) (s : State), s.blk.phase = .bres → s.blk.slotOffset.toInt = 127 → s.blk.need 2 = true →
    s.slotOk s.blk.idx.toNat = true →
    let v := BitVec.ofInt 32 (s.blk.acc.toInt + lit.toInt)
    ∃ t, exec (.slotEsc16 lit) s = .next t ∧ SlotStored s t s.blk.idx.toNat v
      ∧ t.blk = { s.blk with cur := s.blk.cur + 2#32, acc := v, idx := s.blk.idx + 1#32 }.nextSlot

/-- SLOT.ESC32 (R116): for an offset of 128 or more the 4-byte literal is added instead, wrapping. -/
def Obligations.SlotEsc32AddsItsLiteral : Prop :=
  (∀ (o : BitVec 16) (b0 b1 b2 b3 : Byte) (rest : List Byte), 128 ≤ o.toInt →
    decode (.bres o) (b0 :: b1 :: b2 :: b3 :: rest) = .ok (.slotEsc32 (b3 ++ b2 ++ b1 ++ b0), rest))
  ∧ ∀ (lit : Word) (s : State), s.blk.phase = .bres → 128 ≤ s.blk.slotOffset.toInt → s.blk.need 4 = true →
    s.slotOk s.blk.idx.toNat = true →
    let v := BitVec.ofInt 32 (s.blk.acc.toInt + lit.toInt)
    ∃ t, exec (.slotEsc32 lit) s = .next t ∧ SlotStored s t s.blk.idx.toNat v
      ∧ t.blk = { s.blk with cur := s.blk.cur + 4#32, acc := v, idx := s.blk.idx + 1#32 }.nextSlot

/-- After a slot: slots 0 to 14 of a block stay in BRES at the next SLOT; after slot 15 BLKCNT rises by 1 and NEXT() picks
the phase, and ACC carries on (R112, R118). -/
def Obligations.SlotFifteenEndsTheBlock : Prop :=
  ∀ b : Block,
    (b.slot ≠ 15#4 → b.nextSlot = { b with slot := b.slot + 1#4 })
      ∧ (b.slot = 15#4 → b.nextSlot = { b with blkcnt := b.blkcnt + 1#28 }.nextPhase ∧ b.nextSlot.acc = b.acc)

/-- A block cut short ends the operation with no slot finalised in that step and nothing of the missing part consumed
(R121; spec/40_sequencer.md R89). -/
def Obligations.CutBlockEndsTheOperation : Prop :=
  ∀ (n0 n1 : BitVec 4) (run : BitVec 120) (lit16 : BitVec 16) (lit32 : Word) (s : State),
    let ended : State := s.setBlk { s.blk with
      trunc := decide (s.blk.idx.toNat < s.blk.width.toNat), phase := .idle, done := true }
    (s.blk.phase = .bctrl → s.blk.need 1 = false → exec (.blk n0 n1) s = .next ended)
      ∧ (s.blk.phase = .bpack → s.blk.need s.blk.nbit.toNat = false → exec (.half s.blk.nbit run) s = .next ended)
      ∧ (s.blk.phase = .bres → s.blk.slotOffset.toInt = 127 → s.blk.need 2 = false →
        exec (.slotEsc16 lit16) s = .next ended)
      ∧ (s.blk.phase = .bres → 128 ≤ s.blk.slotOffset.toInt → s.blk.need 4 = false →
        exec (.slotEsc32 lit32) s = .next ended)

/-! ### Remainder (spec/43_remainder.md) -/

/-- DLT.B (R124): its bytes in REM, and its effect. -/
def Obligations.DltBAddsBiasedByte : Prop :=
  (∀ (b : Byte) (rest : List Byte), b.toNat < 254 → decode .rem (b :: rest) = .ok (.dltB b, rest))
  ∧ ∀ (b : Byte) (s : State), s.blk.phase = .rem → s.blk.need 1 = true → s.slotOk s.blk.idx.toNat = true →
    let v := BitVec.ofInt 32 (s.blk.acc.toInt + ((b.toNat : Int) - 127))
    ∃ t, exec (.dltB b) s = .next t ∧ SlotStored s t s.blk.idx.toNat v
      ∧ t.blk = { s.blk with cur := s.blk.cur + 1#32, acc := v, idx := s.blk.idx + 1#32 }.nextPhase

/-- DLT.S16 (R125): its bytes in REM, and its effect. -/
def Obligations.DltS16AddsSignedLiteral : Prop :=
  (∀ (lo hi : Byte) (rest : List Byte), decode .rem (0xFE#8 :: lo :: hi :: rest) = .ok (.dltS16 (hi ++ lo), rest))
  ∧ ∀ (lit : BitVec 16) (s : State), s.blk.phase = .rem → s.blk.need 3 = true → s.slotOk s.blk.idx.toNat = true →
    let v := BitVec.ofInt 32 (s.blk.acc.toInt + lit.toInt)
    ∃ t, exec (.dltS16 lit) s = .next t ∧ SlotStored s t s.blk.idx.toNat v
      ∧ t.blk = { s.blk with cur := s.blk.cur + 3#32, acc := v, idx := s.blk.idx + 1#32 }.nextPhase

/-- DLT.S32 (R126): its bytes in REM, and its effect. -/
def Obligations.DltS32AddsLiteral : Prop :=
  (∀ (b0 b1 b2 b3 : Byte) (rest : List Byte),
    decode .rem (0xFF#8 :: b0 :: b1 :: b2 :: b3 :: rest) = .ok (.dltS32 (b3 ++ b2 ++ b1 ++ b0), rest))
  ∧ ∀ (lit : Word) (s : State), s.blk.phase = .rem → s.blk.need 5 = true → s.slotOk s.blk.idx.toNat = true →
    let v := BitVec.ofInt 32 (s.blk.acc.toInt + lit.toInt)
    ∃ t, exec (.dltS32 lit) s = .next t ∧ SlotStored s t s.blk.idx.toNat v
      ∧ t.blk = { s.blk with cur := s.blk.cur + 5#32, acc := v, idx := s.blk.idx + 1#32 }.nextPhase

/-! ### The host interface (spec/44_host_interface.md) -/

/-- HOST.START in IDLE with the duties kept clears the datapath and the flags, enters ZFILL, and changes nothing else
(R135). -/
def Obligations.StartClearsAndEntersZfill : Prop :=
  ∀ (data : Word) (s : State), s.blk.phase = .idle → ¬s.BreaksDuty →
    exec (.hostStart data) s = .next (s.setBlk { s.blk with
      cur := 0#32, idx := 0#32, acc := 0#32, zi := 0#32, blkcnt := 0#28, slot := 0#4, half := 0#1
      done := false, trunc := false, phase := .zfill })

/-- HOST.START in IDLE over a configuration that breaks a duty on memory, or that conflicts with a running block, is
refused; the step at which the run is refused is the model's choice (log entry 6; spec/20_memory.md R60,
spec/60_exceptions.md R148, R157). -/
def Obligations.StartOverBrokenDutyIsRefused : Prop :=
  ∀ (data : Word) (s : State), s.blk.phase = .idle → s.BreaksDuty → ∃ r, exec (.hostStart data) s = .refused r

/-- While an operation runs every host write is ignored, to whatever register and with whatever data (R134). -/
def Obligations.BusyIgnoresEveryHostWrite : Prop :=
  ∀ (r : Reg) (data : Word) (s : State), s.blk.phase ≠ .idle → exec (writeInstr r data) s = .next s

/-- HOST.WR.IN_BASE, HOST.WR.IN_LEN and HOST.WR.WIDTH store their data in IDLE, and nothing else changes (R132). -/
def Obligations.ConfigWritesStoreWhenIdle : Prop :=
  ∀ (data : Word) (s : State), s.blk.phase = .idle →
    exec (.hostWrInBase data) s = .next (s.setBlk { s.blk with inBase := data })
      ∧ exec (.hostWrInLen data) s = .next (s.setBlk { s.blk with inLen := data })
      ∧ exec (.hostWrWidth data) s = .next (s.setBlk { s.blk with width := data })

/-- HOST.WR.OUT_BASE stores `data & 0xFFFFFFFC` in IDLE, as the register reads back, and nothing else changes (R133). -/
def Obligations.OutBaseWriteDropsLowBits : Prop :=
  ∀ (data : Word) (s : State), s.blk.phase = .idle →
    ∃ h : BitVec 30, exec (.hostWrOutBase data) s = .next (s.setBlk { s.blk with outHi := h })
      ∧ { s.blk with outHi := h }.readReg .outBase = data &&& 0xFFFFFFFC#32

/-- Writes to the read-only registers, and a write to CTRL with bit 0 clear, do nothing in any phase (R136, R137). -/
def Obligations.ReadOnlyWritesDoNothing : Prop :=
  ∀ (data : Word) (s : State),
    exec (.hostWrStatus data) s = .next s ∧ exec (.hostWrProduced data) s = .next s
      ∧ exec (.hostWrConsumed data) s = .next s ∧ exec (.hostCtrl0 data) s = .next s

/-- HOST.RD returns the register on the host port and changes nothing else: CTRL reads 0, STATUS is the three flags with its
other bits 0, OUT_BASE has its low two bits 0 (R131; spec/10_state.md R17, R18, R21). -/
def Obligations.ReadReturnsTheRegister : Prop :=
  ∀ (r : Reg) (s : State),
    exec (.hostRd r) s = .next { s with rdata := s.blk.readReg r }
      ∧ s.blk.readReg .ctrl = 0#32
      ∧ (∀ k, (s.blk.readReg .status).getLsbD k =
          (if k = 0 then decide (s.blk.phase ≠ .idle)
            else if k = 1 then s.blk.doneOutput else if k = 2 then s.blk.trunc else false))
      ∧ s.blk.readReg .inBase = s.blk.inBase ∧ s.blk.readReg .inLen = s.blk.inLen
      ∧ (s.blk.readReg .outBase).toNat = 4 * s.blk.outHi.toNat
      ∧ s.blk.readReg .width = s.blk.width
      ∧ s.blk.readReg .produced = s.blk.idx ∧ s.blk.readReg .consumed = s.blk.cur

/-! ### Several blocks, reset, and the invariants (spec/60_exceptions.md, spec/70_reset_and_hazards.md, spec/10_state.md) -/

/-- A step changes the registers of at most one block of the platform (R157). -/
def Obligations.StepChangesAtMostOneBlock : Prop :=
  ∀ s t : State, step s = .next t → ∃ b b' l, s.blocks.Perm (b :: l) ∧ t.blocks.Perm (b' :: l)
    ∧ b'.regBase = b.regBase

/-- The reset input puts every register at its reset value, so every host register reads 0, and changes no byte of memory
outside a running block's output region (R161, R162). -/
def Obligations.ResetInputClearsTheBlock : Prop :=
  ∀ (s : State) (us : List Turn), s.sched = .reset s.blk.regBase :: us →
    ∃ t, step s = .next t ∧ t.blk = Block.atReset s.blk.regBase ∧ t.others = s.others ∧ t.sched = us
      ∧ (∀ r, t.blk.readReg r = 0#32)
      ∧ (s.blk.phase = .idle → t.mem = s.mem)
      ∧ MemSameExcept s t s.blk.outBase.toNat (4 * s.blk.width.toNat)

/-- Right after reset a platform has a block at each REG_BASE it was given (R8, R157), and every block is IDLE, every host
register of it reads 0 and every hidden register of it is 0 (R37). `State.reset` is the platform of the host's interface (log
entries 3, 4, 5). -/
def Obligations.ResetStateIsZero : Prop :=
  State.reset = State.resetOn 0xFFFFFFE0#32 [] []
    ∧ ∀ (base : Word) (others : List Word) (holes : List Hole),
      (State.resetOn base others holes).blocks.map Block.regBase = base :: others
        ∧ ∀ b ∈ (State.resetOn base others holes).blocks,
          (∀ r, b.readReg r = 0#32) ∧ b.phase = .idle ∧ b.acc = 0#32 ∧ b.zi = 0#32 ∧ b.blkcnt = 0#28 ∧ b.slot = 0#4
            ∧ b.half = 0#1 ∧ b.nbit0 = 0#4 ∧ b.nbit1 = 0#4 ∧ b.pack = 0#120 ∧ ∀ j : Fin 16, b.ofs[j] = 0#16

/-- The reset state meets the invariant, on the platform of the host's interface and on every other. -/
def Obligations.ResetStateMeetsInvariant : Prop :=
  State.reset.Inv ∧ ∀ (base : Word) (others : List Word) (holes : List Hole), (State.resetOn base others holes).Inv

/-- A status flag goes from 1 to 0 only by START, which is what takes a block from IDLE to ZFILL, or by reset (R18, R35, R137).
The step is one that leaves the same block active. -/
def Obligations.OnlyStartAndResetClearFlags : Prop :=
  ∀ s t : State, s.consistent = true → step s = .next t → t.blk.regBase = s.blk.regBase →
    (s.blk.done = true ∧ t.blk.done = false) ∨ (s.blk.trunc = true ∧ t.blk.trunc = false) →
    (∃ us, s.sched = .reset s.blk.regBase :: us)
      ∨ (∃ a data us, s.sched = .access s.blk.regBase a :: us
        ∧ decodeAccess s.blk.regBase a = .ok (.hostStart data, []) ∧ s.blk.phase = .idle ∧ t.blk.phase = .zfill)

/-- Every step keeps the memory's canonical form. -/
def Obligations.StepKeepsMemoryCanonical : Prop :=
  ∀ s t : State, Memory.wf s.mem = true → step s = .next t → Memory.wf t.mem = true

/-- Every step, of whatever agent, keeps the registers of every block consistent with their phase (R28 to R34, R38). -/
def Obligations.StepKeepsRegistersConsistent : Prop :=
  ∀ s t : State, s.consistent = true → step s = .next t → t.consistent = true

/-- Every step, of whatever agent, keeps R38's whole invariant: consistent registers, the duties of running blocks, zeros in
every slot not yet finalised, and ACC in the last finalised slot. -/
def Obligations.StepKeepsOutputInvariant : Prop :=
  ∀ s t : State, s.Inv → step s = .next t → t.Inv

/-- R38's `CUR <= IN_LEN` read literally, of every phase: it fails, since the host may lower IN_LEN in IDLE (R132; log
entry 15). -/
def Obligations.CursorStaysInsideInputInEveryPhase : Prop :=
  ∀ s t : State, s.blk.cur.toNat ≤ s.blk.inLen.toNat → step s = .next t → t.blk.cur.toNat ≤ t.blk.inLen.toNat
end

