-- ==== Sys2Proof/Laws/Memory.lean ====
section
/-! SUPPORT. The laws of the memory: reading what was written, leaving every other byte alone, and keeping the canonical
form. -/

namespace Sys2Proof.Machine

/-! ### Reading after writing -/

theorem Memory.read_insert (m : Memory) (x y : Nat) (v : Byte) :
    Memory.read (Memory.insert m x v) y = if y = x then some v else Memory.read m y := by
  induction m with
  | nil => simp [Memory.insert, Memory.read]
  | cons c m ih =>
    obtain ⟨a, b⟩ := c
    simp only [Memory.insert]
    split_ifs with h1 h2 <;> simp only [Memory.read] <;> grind

/-- A byte read after a write inside the address space. -/
theorem Memory.read_write (m : Memory) (x y : Nat) (v : Byte) (hx : x < Config.addrSpace) :
    Memory.read (Memory.write m x v) y = if y = x then some v else Memory.read m y := by
  simp [Memory.write, hx, Memory.read_insert]

/-- A write leaves every other byte alone. -/
theorem Memory.read_write_other (m : Memory) (x y : Nat) (v : Byte) (h : y ≠ x) :
    Memory.read (Memory.write m x v) y = Memory.read m y := by
  unfold Memory.write
  split_ifs <;> simp [Memory.read_insert, h]

/-- A word write leaves every byte outside its four alone. -/
theorem Memory.read_writeWord_other (m : Memory) (x y : Nat) (v : Word) (h : ¬(x ≤ y ∧ y < x + 4)) :
    Memory.read (Memory.writeWord m x v) y = Memory.read m y := by
  unfold Memory.writeWord
  rw [Memory.read_write_other, Memory.read_write_other, Memory.read_write_other, Memory.read_write_other] <;> omega

/-- The bytes of a written word (spec/20_memory.md R44). -/
theorem Memory.read_writeWord (m : Memory) (x j : Nat) (v : Word) (hx : x + 4 ≤ Config.addrSpace) (hj : j < 4) :
    Memory.read (Memory.writeWord m x v) (x + j) = some (wordByte v j) := by
  have h0 : x < Config.addrSpace := by omega
  have h1 : x + 1 < Config.addrSpace := by omega
  have h2 : x + 2 < Config.addrSpace := by omega
  have h3 : x + 3 < Config.addrSpace := by omega
  simp only [Memory.writeWord, Memory.read_write _ _ _ _ h0, Memory.read_write _ _ _ _ h1, Memory.read_write _ _ _ _ h2,
    Memory.read_write _ _ _ _ h3]
  have : j = 0 ∨ j = 1 ∨ j = 2 ∨ j = 3 := by omega
  rcases this with rfl | rfl | rfl | rfl <;> simp

theorem wordByte_append (v : Word) : wordByte v 3 ++ wordByte v 2 ++ wordByte v 1 ++ wordByte v 0 = v := by
  simp only [wordByte]
  ext i hi
  simp only [BitVec.getElem_append, BitVec.getElem_extractLsb']
  split_ifs <;> simp only [← BitVec.getLsbD_eq_getElem] <;> congr 1 <;> omega

/-- A word read back where it was written. -/
theorem Memory.readWord_writeWord (m : Memory) (x : Nat) (v : Word) (hx : x + 4 ≤ Config.addrSpace) :
    Memory.readWord (Memory.writeWord m x v) x = some v := by
  have h0 := Memory.read_writeWord m x 0 v hx (by omega)
  rw [Nat.add_zero] at h0
  simp only [Memory.readWord, h0, Memory.read_writeWord m x 1 v hx (by omega), Memory.read_writeWord m x 2 v hx (by omega),
    Memory.read_writeWord m x 3 v hx (by omega), wordByte_append]

/-- A word whose bytes read alike in two memories reads alike. -/
theorem Memory.readWord_congr {m n : Memory} {x : Nat} (h : ∀ y, x ≤ y → y < x + 4 → Memory.read m y = Memory.read n y) :
    Memory.readWord m x = Memory.readWord n x := by
  unfold Memory.readWord
  rw [h x (by omega) (by omega), h (x + 1) (by omega) (by omega), h (x + 2) (by omega) (by omega),
    h (x + 3) (by omega) (by omega)]

/-- A word write leaves every word that shares no byte with it alone. -/
theorem Memory.readWord_writeWord_other (m : Memory) (x y : Nat) (v : Word) (h : x + 4 ≤ y ∨ y + 4 ≤ x) :
    Memory.readWord (Memory.writeWord m x v) y = Memory.readWord m y :=
  Memory.readWord_congr fun z _ _ => Memory.read_writeWord_other m x z v (by omega)

theorem Memory.read_writeBytes_other (bs : List Byte) (m : Memory) (x y : Nat) (h : ¬(x ≤ y ∧ y < x + bs.length)) :
    Memory.read (Memory.writeBytes m x bs) y = Memory.read m y := by
  induction bs generalizing m x with
  | nil => rfl
  | cons b bs ih =>
    simp only [List.length_cons] at h
    rw [Memory.writeBytes, ih _ _ (by omega), Memory.read_write_other _ _ _ _ (by omega)]

theorem Memory.read_drawWords_other (m : Memory) (x d n y : Nat) (h : ¬(x ≤ y ∧ y < x + 4 * n)) :
    Memory.read (Memory.drawWords m x d n) y = Memory.read m y := by
  induction n with
  | zero => rfl
  | succ n ih => rw [Memory.drawWords, Memory.read_writeWord_other _ _ _ _ (by omega), ih (by omega)]

/-! ### The canonical form -/

/-- The canonical form, without its recursion: addresses strictly rise and lie in the address space. -/
theorem Memory.wf_iff (m : Memory) :
    Memory.wf m = true ↔ m.Pairwise (fun c d => c.1 < d.1) ∧ ∀ c ∈ m, c.1 < Config.addrSpace := by
  induction m with
  | nil => simp [Memory.wf]
  | cons c m ih =>
    obtain ⟨a, u⟩ := c
    cases m with
    | nil => simp [Memory.wf]
    | cons d m =>
      obtain ⟨b, v⟩ := d
      simp only [Memory.wf, Bool.and_eq_true, decide_eq_true_eq, ih]
      constructor
      · rintro ⟨hab, hp, hall⟩
        have hb := hall (b, v) (by simp)
        refine ⟨List.pairwise_cons.2 ⟨?_, hp⟩, ?_⟩
        · intro e he
          rcases List.mem_cons.1 he with rfl | he
          · exact hab
          · exact lt_trans hab ((List.pairwise_cons.1 hp).1 e he)
        · intro e he
          rcases List.mem_cons.1 he with rfl | he
          · exact lt_trans hab hb
          · exact hall e he
      · rintro ⟨hp, hall⟩
        have h := List.pairwise_cons.1 hp
        exact ⟨h.1 (b, v) (by simp), h.2, fun e he => hall e (List.mem_cons_of_mem _ he)⟩

theorem Memory.mem_insert {m : Memory} {x : Nat} {v : Byte} {c : Host.Cell} (h : c ∈ Memory.insert m x v) :
    c = (x, v) ∨ c ∈ m := by
  induction m with
  | nil => simpa [Memory.insert] using h
  | cons d m ih =>
    obtain ⟨a, b⟩ := d
    simp only [Memory.insert] at h
    split_ifs at h <;> simp only [List.mem_cons] at h ⊢ <;> tauto

/-- Inserting keeps the canonical form. -/
theorem Memory.wf_insert {m : Memory} (h : Memory.wf m = true) (x : Nat) (v : Byte) (hx : x < Config.addrSpace) :
    Memory.wf (Memory.insert m x v) = true := by
  rw [Memory.wf_iff] at h ⊢
  refine ⟨?_, fun c hc => ?_⟩
  · obtain ⟨hp, -⟩ := h
    induction m with
    | nil => simp [Memory.insert]
    | cons d m ih =>
      obtain ⟨a, b⟩ := d
      have hd := List.pairwise_cons.1 hp
      simp only [Memory.insert]
      split_ifs with h1 h2
      · refine List.pairwise_cons.2 ⟨fun e he => ?_, hp⟩
        rcases List.mem_cons.1 he with rfl | he
        · exact h1
        · exact lt_trans h1 (hd.1 e he)
      · subst h2
        exact List.pairwise_cons.2 ⟨hd.1, hd.2⟩
      · refine List.pairwise_cons.2 ⟨fun e he => ?_, ih hd.2⟩
        rcases Memory.mem_insert he with rfl | he
        · show a < x
          omega
        · exact hd.1 e he
  · rcases Memory.mem_insert hc with rfl | hc
    · exact hx
    · exact h.2 c hc

@[simp] theorem Memory.wf_nil : Memory.wf [] = true := rfl

/-- Writing a byte keeps the canonical form. -/
theorem Memory.wf_write {m : Memory} (h : Memory.wf m = true) (x : Nat) (v : Byte) :
    Memory.wf (Memory.write m x v) = true := by
  unfold Memory.write
  split_ifs with hx
  · exact Memory.wf_insert h x v hx
  · exact h

/-- Writing a word keeps the canonical form. -/
theorem Memory.wf_writeWord {m : Memory} (h : Memory.wf m = true) (x : Nat) (v : Word) :
    Memory.wf (Memory.writeWord m x v) = true :=
  Memory.wf_write (Memory.wf_write (Memory.wf_write (Memory.wf_write h _ _) _ _) _ _) _ _

/-- Writing bytes keeps the canonical form. -/
theorem Memory.wf_writeBytes {m : Memory} (h : Memory.wf m = true) (x : Nat) (bs : List Byte) :
    Memory.wf (Memory.writeBytes m x bs) = true := by
  induction bs generalizing m x with
  | nil => exact h
  | cons b bs ih => exact ih (Memory.wf_write h x b) _

/-- Drawing free words keeps the canonical form. -/
theorem Memory.wf_drawWords {m : Memory} (h : Memory.wf m = true) (x d n : Nat) :
    Memory.wf (Memory.drawWords m x d n) = true := by
  induction n with
  | zero => exact h
  | succ n ih => exact Memory.wf_writeWord ih _ _

end Sys2Proof.Machine
end

