-- ==== Sys2Proof/Laws/State.lean ====
section
/-! SUPPORT. What each named update of a state or a block does to each field: one lemma per field per update, so that no
proof unfolds a record update. -/

namespace Sys2Proof.Machine

/-! ### State.setBlk -/

@[simp] theorem State.setBlk_blk (s : State) (b : Block) : (s.setBlk b).blk = b := rfl
@[simp] theorem State.setBlk_others (s : State) (b : Block) : (s.setBlk b).others = s.others := rfl
@[simp] theorem State.setBlk_mem (s : State) (b : Block) : (s.setBlk b).mem = s.mem := rfl
@[simp] theorem State.setBlk_holes (s : State) (b : Block) : (s.setBlk b).holes = s.holes := rfl
@[simp] theorem State.setBlk_rdata (s : State) (b : Block) : (s.setBlk b).rdata = s.rdata := rfl
@[simp] theorem State.setBlk_hostBytes (s : State) (b : Block) : (s.setBlk b).hostBytes = s.hostBytes := rfl
@[simp] theorem State.setBlk_draws (s : State) (b : Block) : (s.setBlk b).draws = s.draws := rfl
@[simp] theorem State.setBlk_sched (s : State) (b : Block) : (s.setBlk b).sched = s.sched := rfl

/-! ### State.setMem -/

@[simp] theorem State.setMem_blk (s : State) (m : Memory) : (s.setMem m).blk = s.blk := rfl
@[simp] theorem State.setMem_others (s : State) (m : Memory) : (s.setMem m).others = s.others := rfl
@[simp] theorem State.setMem_mem (s : State) (m : Memory) : (s.setMem m).mem = m := rfl
@[simp] theorem State.setMem_holes (s : State) (m : Memory) : (s.setMem m).holes = s.holes := rfl
@[simp] theorem State.setMem_rdata (s : State) (m : Memory) : (s.setMem m).rdata = s.rdata := rfl
@[simp] theorem State.setMem_hostBytes (s : State) (m : Memory) : (s.setMem m).hostBytes = s.hostBytes := rfl
@[simp] theorem State.setMem_draws (s : State) (m : Memory) : (s.setMem m).draws = s.draws := rfl
@[simp] theorem State.setMem_sched (s : State) (m : Memory) : (s.setMem m).sched = s.sched := rfl

@[simp] theorem State.setBlk_self (s : State) : s.setBlk s.blk = s := rfl
@[simp] theorem State.setBlk_setBlk (s : State) (b c : Block) : (s.setBlk b).setBlk c = s.setBlk c := rfl
@[simp] theorem State.setMem_setBlk (s : State) (m : Memory) (b : Block) : (s.setMem m).setBlk b = (s.setBlk b).setMem m := rfl
@[simp] theorem State.setMem_setMem (s : State) (m n : Memory) : (s.setMem m).setMem n = s.setMem n := rfl

/-! ### Block.finish -/

@[simp] theorem Block.finish_regBase (b : Block) : (b.finish).regBase = b.regBase := rfl
@[simp] theorem Block.finish_inBase (b : Block) : (b.finish).inBase = b.inBase := rfl
@[simp] theorem Block.finish_inLen (b : Block) : (b.finish).inLen = b.inLen := rfl
@[simp] theorem Block.finish_outHi (b : Block) : (b.finish).outHi = b.outHi := rfl
@[simp] theorem Block.finish_width (b : Block) : (b.finish).width = b.width := rfl
@[simp] theorem Block.finish_done (b : Block) : (b.finish).done = true := rfl
@[simp] theorem Block.finish_trunc (b : Block) : (b.finish).trunc = b.truncated := rfl
@[simp] theorem Block.finish_cur (b : Block) : (b.finish).cur = b.cur := rfl
@[simp] theorem Block.finish_idx (b : Block) : (b.finish).idx = b.idx := rfl
@[simp] theorem Block.finish_acc (b : Block) : (b.finish).acc = b.acc := rfl
@[simp] theorem Block.finish_phase (b : Block) : (b.finish).phase = .idle := rfl
@[simp] theorem Block.finish_zi (b : Block) : (b.finish).zi = b.zi := rfl
@[simp] theorem Block.finish_blkcnt (b : Block) : (b.finish).blkcnt = b.blkcnt := rfl
@[simp] theorem Block.finish_nbit0 (b : Block) : (b.finish).nbit0 = b.nbit0 := rfl
@[simp] theorem Block.finish_nbit1 (b : Block) : (b.finish).nbit1 = b.nbit1 := rfl
@[simp] theorem Block.finish_half (b : Block) : (b.finish).half = b.half := rfl
@[simp] theorem Block.finish_pack (b : Block) : (b.finish).pack = b.pack := rfl
@[simp] theorem Block.finish_ofs (b : Block) : (b.finish).ofs = b.ofs := rfl
@[simp] theorem Block.finish_slot (b : Block) : (b.finish).slot = b.slot := rfl

/-! ### Block.advance -/

@[simp] theorem Block.advance_regBase (b : Block) (n : Nat) : (b.advance n).regBase = b.regBase := rfl
@[simp] theorem Block.advance_inBase (b : Block) (n : Nat) : (b.advance n).inBase = b.inBase := rfl
@[simp] theorem Block.advance_inLen (b : Block) (n : Nat) : (b.advance n).inLen = b.inLen := rfl
@[simp] theorem Block.advance_outHi (b : Block) (n : Nat) : (b.advance n).outHi = b.outHi := rfl
@[simp] theorem Block.advance_width (b : Block) (n : Nat) : (b.advance n).width = b.width := rfl
@[simp] theorem Block.advance_done (b : Block) (n : Nat) : (b.advance n).done = b.done := rfl
@[simp] theorem Block.advance_trunc (b : Block) (n : Nat) : (b.advance n).trunc = b.trunc := rfl
@[simp] theorem Block.advance_cur (b : Block) (n : Nat) : (b.advance n).cur = b.cur + BitVec.ofNat 32 n := rfl
@[simp] theorem Block.advance_idx (b : Block) (n : Nat) : (b.advance n).idx = b.idx := rfl
@[simp] theorem Block.advance_acc (b : Block) (n : Nat) : (b.advance n).acc = b.acc := rfl
@[simp] theorem Block.advance_phase (b : Block) (n : Nat) : (b.advance n).phase = b.phase := rfl
@[simp] theorem Block.advance_zi (b : Block) (n : Nat) : (b.advance n).zi = b.zi := rfl
@[simp] theorem Block.advance_blkcnt (b : Block) (n : Nat) : (b.advance n).blkcnt = b.blkcnt := rfl
@[simp] theorem Block.advance_nbit0 (b : Block) (n : Nat) : (b.advance n).nbit0 = b.nbit0 := rfl
@[simp] theorem Block.advance_nbit1 (b : Block) (n : Nat) : (b.advance n).nbit1 = b.nbit1 := rfl
@[simp] theorem Block.advance_half (b : Block) (n : Nat) : (b.advance n).half = b.half := rfl
@[simp] theorem Block.advance_pack (b : Block) (n : Nat) : (b.advance n).pack = b.pack := rfl
@[simp] theorem Block.advance_ofs (b : Block) (n : Nat) : (b.advance n).ofs = b.ofs := rfl
@[simp] theorem Block.advance_slot (b : Block) (n : Nat) : (b.advance n).slot = b.slot := rfl

/-! ### Block.start -/

@[simp] theorem Block.start_regBase (b : Block) : (b.start).regBase = b.regBase := rfl
@[simp] theorem Block.start_inBase (b : Block) : (b.start).inBase = b.inBase := rfl
@[simp] theorem Block.start_inLen (b : Block) : (b.start).inLen = b.inLen := rfl
@[simp] theorem Block.start_outHi (b : Block) : (b.start).outHi = b.outHi := rfl
@[simp] theorem Block.start_width (b : Block) : (b.start).width = b.width := rfl
@[simp] theorem Block.start_done (b : Block) : (b.start).done = false := rfl
@[simp] theorem Block.start_trunc (b : Block) : (b.start).trunc = false := rfl
@[simp] theorem Block.start_cur (b : Block) : (b.start).cur = 0#32 := rfl
@[simp] theorem Block.start_idx (b : Block) : (b.start).idx = 0#32 := rfl
@[simp] theorem Block.start_acc (b : Block) : (b.start).acc = 0#32 := rfl
@[simp] theorem Block.start_phase (b : Block) : (b.start).phase = .zfill := rfl
@[simp] theorem Block.start_zi (b : Block) : (b.start).zi = 0#32 := rfl
@[simp] theorem Block.start_blkcnt (b : Block) : (b.start).blkcnt = 0#28 := rfl
@[simp] theorem Block.start_nbit0 (b : Block) : (b.start).nbit0 = b.nbit0 := rfl
@[simp] theorem Block.start_nbit1 (b : Block) : (b.start).nbit1 = b.nbit1 := rfl
@[simp] theorem Block.start_half (b : Block) : (b.start).half = 0#1 := rfl
@[simp] theorem Block.start_pack (b : Block) : (b.start).pack = b.pack := rfl
@[simp] theorem Block.start_ofs (b : Block) : (b.start).ofs = b.ofs := rfl
@[simp] theorem Block.start_slot (b : Block) : (b.start).slot = 0#4 := rfl

/-! ### Block.setWidths -/

@[simp] theorem Block.setWidths_regBase (b : Block) (n0 n1 : BitVec 4) : (b.setWidths n0 n1).regBase = b.regBase := rfl
@[simp] theorem Block.setWidths_inBase (b : Block) (n0 n1 : BitVec 4) : (b.setWidths n0 n1).inBase = b.inBase := rfl
@[simp] theorem Block.setWidths_inLen (b : Block) (n0 n1 : BitVec 4) : (b.setWidths n0 n1).inLen = b.inLen := rfl
@[simp] theorem Block.setWidths_outHi (b : Block) (n0 n1 : BitVec 4) : (b.setWidths n0 n1).outHi = b.outHi := rfl
@[simp] theorem Block.setWidths_width (b : Block) (n0 n1 : BitVec 4) : (b.setWidths n0 n1).width = b.width := rfl
@[simp] theorem Block.setWidths_done (b : Block) (n0 n1 : BitVec 4) : (b.setWidths n0 n1).done = b.done := rfl
@[simp] theorem Block.setWidths_trunc (b : Block) (n0 n1 : BitVec 4) : (b.setWidths n0 n1).trunc = b.trunc := rfl
@[simp] theorem Block.setWidths_cur (b : Block) (n0 n1 : BitVec 4) : (b.setWidths n0 n1).cur = b.cur := rfl
@[simp] theorem Block.setWidths_idx (b : Block) (n0 n1 : BitVec 4) : (b.setWidths n0 n1).idx = b.idx := rfl
@[simp] theorem Block.setWidths_acc (b : Block) (n0 n1 : BitVec 4) : (b.setWidths n0 n1).acc = b.acc := rfl
@[simp] theorem Block.setWidths_phase (b : Block) (n0 n1 : BitVec 4) : (b.setWidths n0 n1).phase = .bpack := rfl
@[simp] theorem Block.setWidths_zi (b : Block) (n0 n1 : BitVec 4) : (b.setWidths n0 n1).zi = b.zi := rfl
@[simp] theorem Block.setWidths_blkcnt (b : Block) (n0 n1 : BitVec 4) : (b.setWidths n0 n1).blkcnt = b.blkcnt := rfl
@[simp] theorem Block.setWidths_nbit0 (b : Block) (n0 n1 : BitVec 4) : (b.setWidths n0 n1).nbit0 = n0 := rfl
@[simp] theorem Block.setWidths_nbit1 (b : Block) (n0 n1 : BitVec 4) : (b.setWidths n0 n1).nbit1 = n1 := rfl
@[simp] theorem Block.setWidths_half (b : Block) (n0 n1 : BitVec 4) : (b.setWidths n0 n1).half = 0#1 := rfl
@[simp] theorem Block.setWidths_pack (b : Block) (n0 n1 : BitVec 4) : (b.setWidths n0 n1).pack = b.pack := rfl
@[simp] theorem Block.setWidths_ofs (b : Block) (n0 n1 : BitVec 4) : (b.setWidths n0 n1).ofs = b.ofs := rfl
@[simp] theorem Block.setWidths_slot (b : Block) (n0 n1 : BitVec 4) : (b.setWidths n0 n1).slot = b.slot := rfl

/-! ### Block.nextZero -/

@[simp] theorem Block.nextZero_regBase (b : Block) : b.nextZero.regBase = b.regBase := rfl
@[simp] theorem Block.nextZero_inBase (b : Block) : b.nextZero.inBase = b.inBase := rfl
@[simp] theorem Block.nextZero_inLen (b : Block) : b.nextZero.inLen = b.inLen := rfl
@[simp] theorem Block.nextZero_outHi (b : Block) : b.nextZero.outHi = b.outHi := rfl
@[simp] theorem Block.nextZero_width (b : Block) : b.nextZero.width = b.width := rfl
@[simp] theorem Block.nextZero_done (b : Block) : b.nextZero.done = b.done := rfl
@[simp] theorem Block.nextZero_trunc (b : Block) : b.nextZero.trunc = b.trunc := rfl
@[simp] theorem Block.nextZero_cur (b : Block) : b.nextZero.cur = b.cur := rfl
@[simp] theorem Block.nextZero_idx (b : Block) : b.nextZero.idx = b.idx := rfl
@[simp] theorem Block.nextZero_acc (b : Block) : b.nextZero.acc = b.acc := rfl
@[simp] theorem Block.nextZero_zi (b : Block) : b.nextZero.zi = b.zi + 1#32 := rfl
@[simp] theorem Block.nextZero_blkcnt (b : Block) : b.nextZero.blkcnt = b.blkcnt := rfl
@[simp] theorem Block.nextZero_nbit0 (b : Block) : b.nextZero.nbit0 = b.nbit0 := rfl
@[simp] theorem Block.nextZero_nbit1 (b : Block) : b.nextZero.nbit1 = b.nbit1 := rfl
@[simp] theorem Block.nextZero_half (b : Block) : b.nextZero.half = b.half := rfl
@[simp] theorem Block.nextZero_pack (b : Block) : b.nextZero.pack = b.pack := rfl
@[simp] theorem Block.nextZero_ofs (b : Block) : b.nextZero.ofs = b.ofs := rfl
@[simp] theorem Block.nextZero_slot (b : Block) : b.nextZero.slot = b.slot := rfl

/-! ### Block.nextPhase, Block.nextSlot and Block.unpack: the fields they never touch -/

@[simp] theorem Block.nextPhase_regBase (b : Block) : b.nextPhase.regBase = b.regBase := by
  unfold Block.nextPhase; split_ifs <;> rfl
@[simp] theorem Block.nextPhase_inBase (b : Block) : b.nextPhase.inBase = b.inBase := by
  unfold Block.nextPhase; split_ifs <;> rfl
@[simp] theorem Block.nextPhase_inLen (b : Block) : b.nextPhase.inLen = b.inLen := by
  unfold Block.nextPhase; split_ifs <;> rfl
@[simp] theorem Block.nextPhase_outHi (b : Block) : b.nextPhase.outHi = b.outHi := by
  unfold Block.nextPhase; split_ifs <;> rfl
@[simp] theorem Block.nextPhase_width (b : Block) : b.nextPhase.width = b.width := by
  unfold Block.nextPhase; split_ifs <;> rfl
@[simp] theorem Block.nextPhase_cur (b : Block) : b.nextPhase.cur = b.cur := by
  unfold Block.nextPhase; split_ifs <;> rfl
@[simp] theorem Block.nextPhase_idx (b : Block) : b.nextPhase.idx = b.idx := by
  unfold Block.nextPhase; split_ifs <;> rfl
@[simp] theorem Block.nextPhase_acc (b : Block) : b.nextPhase.acc = b.acc := by
  unfold Block.nextPhase; split_ifs <;> rfl
@[simp] theorem Block.nextPhase_zi (b : Block) : b.nextPhase.zi = b.zi := by
  unfold Block.nextPhase; split_ifs <;> rfl
@[simp] theorem Block.nextPhase_blkcnt (b : Block) : b.nextPhase.blkcnt = b.blkcnt := by
  unfold Block.nextPhase; split_ifs <;> rfl
@[simp] theorem Block.nextPhase_nbit0 (b : Block) : b.nextPhase.nbit0 = b.nbit0 := by
  unfold Block.nextPhase; split_ifs <;> rfl
@[simp] theorem Block.nextPhase_nbit1 (b : Block) : b.nextPhase.nbit1 = b.nbit1 := by
  unfold Block.nextPhase; split_ifs <;> rfl
@[simp] theorem Block.nextPhase_half (b : Block) : b.nextPhase.half = b.half := by
  unfold Block.nextPhase; split_ifs <;> rfl
@[simp] theorem Block.nextPhase_pack (b : Block) : b.nextPhase.pack = b.pack := by
  unfold Block.nextPhase; split_ifs <;> rfl
@[simp] theorem Block.nextPhase_ofs (b : Block) : b.nextPhase.ofs = b.ofs := by
  unfold Block.nextPhase; split_ifs <;> rfl
@[simp] theorem Block.nextPhase_slot (b : Block) : b.nextPhase.slot = b.slot := by
  unfold Block.nextPhase; split_ifs <;> rfl

@[simp] theorem Block.nextSlot_regBase (b : Block) : b.nextSlot.regBase = b.regBase := by
  unfold Block.nextSlot; split_ifs <;> simp
@[simp] theorem Block.nextSlot_inBase (b : Block) : b.nextSlot.inBase = b.inBase := by
  unfold Block.nextSlot; split_ifs <;> simp
@[simp] theorem Block.nextSlot_inLen (b : Block) : b.nextSlot.inLen = b.inLen := by
  unfold Block.nextSlot; split_ifs <;> simp
@[simp] theorem Block.nextSlot_outHi (b : Block) : b.nextSlot.outHi = b.outHi := by
  unfold Block.nextSlot; split_ifs <;> simp
@[simp] theorem Block.nextSlot_width (b : Block) : b.nextSlot.width = b.width := by
  unfold Block.nextSlot; split_ifs <;> simp
@[simp] theorem Block.nextSlot_cur (b : Block) : b.nextSlot.cur = b.cur := by
  unfold Block.nextSlot; split_ifs <;> simp
@[simp] theorem Block.nextSlot_idx (b : Block) : b.nextSlot.idx = b.idx := by
  unfold Block.nextSlot; split_ifs <;> simp
@[simp] theorem Block.nextSlot_acc (b : Block) : b.nextSlot.acc = b.acc := by
  unfold Block.nextSlot; split_ifs <;> simp
@[simp] theorem Block.nextSlot_zi (b : Block) : b.nextSlot.zi = b.zi := by
  unfold Block.nextSlot; split_ifs <;> simp
@[simp] theorem Block.nextSlot_nbit0 (b : Block) : b.nextSlot.nbit0 = b.nbit0 := by
  unfold Block.nextSlot; split_ifs <;> simp
@[simp] theorem Block.nextSlot_nbit1 (b : Block) : b.nextSlot.nbit1 = b.nbit1 := by
  unfold Block.nextSlot; split_ifs <;> simp
@[simp] theorem Block.nextSlot_half (b : Block) : b.nextSlot.half = b.half := by
  unfold Block.nextSlot; split_ifs <;> simp
@[simp] theorem Block.nextSlot_pack (b : Block) : b.nextSlot.pack = b.pack := by
  unfold Block.nextSlot; split_ifs <;> simp
@[simp] theorem Block.nextSlot_ofs (b : Block) : b.nextSlot.ofs = b.ofs := by
  unfold Block.nextSlot; split_ifs <;> simp

@[simp] theorem Block.unpack_regBase (b : Block) (n : BitVec 4) (r : BitVec 120) : (b.unpack n r).regBase = b.regBase := by
  unfold Block.unpack; dsimp only; split_ifs <;> rfl
@[simp] theorem Block.unpack_inBase (b : Block) (n : BitVec 4) (r : BitVec 120) : (b.unpack n r).inBase = b.inBase := by
  unfold Block.unpack; dsimp only; split_ifs <;> rfl
@[simp] theorem Block.unpack_inLen (b : Block) (n : BitVec 4) (r : BitVec 120) : (b.unpack n r).inLen = b.inLen := by
  unfold Block.unpack; dsimp only; split_ifs <;> rfl
@[simp] theorem Block.unpack_outHi (b : Block) (n : BitVec 4) (r : BitVec 120) : (b.unpack n r).outHi = b.outHi := by
  unfold Block.unpack; dsimp only; split_ifs <;> rfl
@[simp] theorem Block.unpack_width (b : Block) (n : BitVec 4) (r : BitVec 120) : (b.unpack n r).width = b.width := by
  unfold Block.unpack; dsimp only; split_ifs <;> rfl
@[simp] theorem Block.unpack_done (b : Block) (n : BitVec 4) (r : BitVec 120) : (b.unpack n r).done = b.done := by
  unfold Block.unpack; dsimp only; split_ifs <;> rfl
@[simp] theorem Block.unpack_trunc (b : Block) (n : BitVec 4) (r : BitVec 120) : (b.unpack n r).trunc = b.trunc := by
  unfold Block.unpack; dsimp only; split_ifs <;> rfl
@[simp] theorem Block.unpack_cur (b : Block) (n : BitVec 4) (r : BitVec 120) : (b.unpack n r).cur = b.cur := by
  unfold Block.unpack; dsimp only; split_ifs <;> rfl
@[simp] theorem Block.unpack_idx (b : Block) (n : BitVec 4) (r : BitVec 120) : (b.unpack n r).idx = b.idx := by
  unfold Block.unpack; dsimp only; split_ifs <;> rfl
@[simp] theorem Block.unpack_acc (b : Block) (n : BitVec 4) (r : BitVec 120) : (b.unpack n r).acc = b.acc := by
  unfold Block.unpack; dsimp only; split_ifs <;> rfl
@[simp] theorem Block.unpack_zi (b : Block) (n : BitVec 4) (r : BitVec 120) : (b.unpack n r).zi = b.zi := by
  unfold Block.unpack; dsimp only; split_ifs <;> rfl
@[simp] theorem Block.unpack_blkcnt (b : Block) (n : BitVec 4) (r : BitVec 120) : (b.unpack n r).blkcnt = b.blkcnt := by
  unfold Block.unpack; dsimp only; split_ifs <;> rfl
@[simp] theorem Block.unpack_nbit0 (b : Block) (n : BitVec 4) (r : BitVec 120) : (b.unpack n r).nbit0 = b.nbit0 := by
  unfold Block.unpack; dsimp only; split_ifs <;> rfl
@[simp] theorem Block.unpack_nbit1 (b : Block) (n : BitVec 4) (r : BitVec 120) : (b.unpack n r).nbit1 = b.nbit1 := by
  unfold Block.unpack; dsimp only; split_ifs <;> rfl
@[simp] theorem Block.unpack_pack (b : Block) (n : BitVec 4) (r : BitVec 120) : (b.unpack n r).pack = r := by
  unfold Block.unpack; dsimp only; split_ifs <;> rfl
@[simp] theorem Block.unpack_ofs (b : Block) (n : BitVec 4) (r : BitVec 120) : (b.unpack n r).ofs = unpackOffsets b.ofs r n.toNat b.half.toNat := by
  unfold Block.unpack; dsimp only; split_ifs <;> rfl

/-! ### Reset: every register but REG_BASE is the same constant -/

@[simp] theorem State.resetOn_blk (w : Word) (ws : List Word) (hs : List Hole) :
    (State.resetOn w ws hs).blk = Block.atReset w := rfl
@[simp] theorem State.resetOn_others (w : Word) (ws : List Word) (hs : List Hole) :
    (State.resetOn w ws hs).others = ws.map Block.atReset := rfl
@[simp] theorem State.resetOn_mem (w : Word) (ws : List Word) (hs : List Hole) : (State.resetOn w ws hs).mem = [] := rfl
@[simp] theorem State.resetOn_holes (w : Word) (ws : List Word) (hs : List Hole) : (State.resetOn w ws hs).holes = hs := rfl
@[simp] theorem State.resetOn_rdata (w : Word) (ws : List Word) (hs : List Hole) :
    (State.resetOn w ws hs).rdata = 0#32 := rfl
@[simp] theorem State.resetOn_hostBytes (w : Word) (ws : List Word) (hs : List Hole) :
    (State.resetOn w ws hs).hostBytes = [] := rfl
@[simp] theorem State.resetOn_draws (w : Word) (ws : List Word) (hs : List Hole) : (State.resetOn w ws hs).draws = 0 := rfl
@[simp] theorem State.resetOn_sched (w : Word) (ws : List Word) (hs : List Hole) : (State.resetOn w ws hs).sched = [] := rfl
@[simp] theorem Block.atReset_phase (w : Word) : (Block.atReset w).phase = .idle := rfl
@[simp] theorem Block.atReset_regBase (w : Word) : (Block.atReset w).regBase = w := rfl
@[simp] theorem Block.atReset_done (w : Word) : (Block.atReset w).done = false := rfl
@[simp] theorem Block.atReset_busy (w : Word) : (Block.atReset w).busy = false := rfl

/-! ### BUSY -/

theorem Block.busy_iff (b : Block) : b.busy = true ↔ b.phase ≠ .idle := by simp [Block.busy]
theorem Block.not_busy_iff (b : Block) : b.busy = false ↔ b.phase = .idle := by simp [Block.busy]
@[simp] theorem Block.finish_busy (b : Block) : b.finish.busy = false := rfl
@[simp] theorem Block.start_busy (b : Block) : b.start.busy = true := rfl

end Sys2Proof.Machine
end

