-- ==== Sys2Proof/Laws/Ops.lean ====
section
/-! SUPPORT. What each shared operation can do, said once: for every operation that can stop, the lemma that it answers a
next state exactly in such and such a case, and which one. Later proofs cite these and do not unfold the operations. -/

namespace Sys2Proof.Machine

/-! ### Sequencing results -/

theorem andThen_next_iff {α β : Type} {r : Result α} {k : α → Result β} {b : β} :
    andThen r k = .next b ↔ ∃ a, r = .next a ∧ k a = .next b := by
  cases r <;> simp [andThen]

theorem andThen_map_next_iff {α β : Type} {r : Result α} {f : α → β} {b : β} :
    (andThen r fun a => .next (f a)) = .next b ↔ ∃ a, r = .next a ∧ b = f a := by
  cases r <;> simp [andThen, eq_comm]

@[simp] theorem andThen_next {α β : Type} (a : α) (k : α → Result β) : andThen (.next a) k = k a := rfl
@[simp] theorem andThen_fault {α β : Type} (f : Fault) (k : α → Result β) :
    andThen (.fault f : Result α) k = .fault f := rfl
@[simp] theorem andThen_refused {α β : Type} (q : Refusal) (k : α → Result β) :
    andThen (.refused q : Result α) k = .refused q := rfl

theorem inContext_next_iff {ok : Bool} {r : Result State} {t : State} :
    inContext ok r = .next t ↔ ok = true ∧ r = .next t := by
  cases ok <;> simp [inContext]

@[simp] theorem inContext_true (r : Result State) : inContext true r = r := rfl
@[simp] theorem inContext_false (r : Result State) : inContext false r = .refused .outOfContext := rfl

/-! ### Memory accesses -/

@[simp] theorem State.backed_setBlk_same (s : State) (b : Block) (h : b.regBase = s.blk.regBase) (a : Nat) :
    (s.setBlk b).backed a = s.backed a := by
  simp [State.backed, State.notMemory, State.blocks, Block.window, h]

@[simp] theorem State.backed_setMem (s : State) (m : Memory) (a : Nat) : (s.setMem m).backed a = s.backed a := rfl

/-- A byte read answers the written byte of a backed address. -/
theorem State.readByte_next_iff {s : State} {a : Nat} {v : Byte} :
    s.readByte a = .next v ↔ a < Config.addrSpace ∧ s.backed a = true ∧ Memory.read s.mem a = some v := by
  unfold State.readByte
  split_ifs with h1 h2
  · simp; omega
  · simp at h2; simp [h2]
  · simp at h2
    cases hm : Memory.read s.mem a <;> simp [h2]
    omega

/-- A word write completes exactly on backed addresses of the address space, and changes the memory alone. -/
theorem State.writeWord_next_iff {s : State} {a : Nat} {v : Word} {t : State} :
    s.writeWord a v = .next t ↔
      a + 4 ≤ Config.addrSpace ∧ (s.backed a && s.backed (a + 1) && s.backed (a + 2) && s.backed (a + 3)) = true
        ∧ t = s.setMem (Memory.writeWord s.mem a v) := by
  unfold State.writeWord
  split_ifs with h1 h2
  · simp; omega
  · simp only [Host.Outcome.next.injEq, h2, true_and]
    constructor
    · rintro rfl; exact ⟨by omega, rfl⟩
    · rintro ⟨-, rfl⟩; rfl
  · simp [h2]

/-- A slot's write completes exactly when the slot is there to write. -/
theorem State.writeWord_slotAddr {s : State} {i : Nat} (h : s.slotOk i = true) (v : Word) :
    s.writeWord (s.blk.slotAddr i) v = .next (s.setMem (Memory.writeWord s.mem (s.blk.slotAddr i) v)) := by
  simp only [State.slotOk, Bool.and_eq_true, decide_eq_true_eq] at h
  rw [State.writeWord_next_iff]
  exact ⟨h.1.1.1.1, by simp [h.1.1.1.2, h.1.1.2, h.1.2, h.2], rfl⟩

theorem State.slotOk_le {s : State} {i : Nat} (h : s.slotOk i = true) : s.blk.slotAddr i + 4 ≤ Config.addrSpace := by
  simp only [State.slotOk, Bool.and_eq_true, decide_eq_true_eq] at h
  exact h.1.1.1.1

@[simp] theorem State.readBytes_zero (s : State) (a : Nat) : s.readBytes a 0 = .next [] := rfl

theorem State.readBytes_succ_next_iff {s : State} {a n : Nat} {bs : List Byte} :
    s.readBytes a (n + 1) = .next bs ↔
      ∃ v vs, s.readByte a = .next v ∧ s.readBytes (a + 1) n = .next vs ∧ bs = v :: vs := by
  simp only [State.readBytes, andThen_next_iff, Host.Outcome.next.injEq]
  constructor
  · rintro ⟨v, hv, vs, hvs, rfl⟩; exact ⟨v, vs, hv, hvs, rfl⟩
  · rintro ⟨v, vs, hv, hvs, rfl⟩; exact ⟨v, hv, vs, hvs, rfl⟩

theorem State.readBytes_length {s : State} {a n : Nat} {bs : List Byte} (h : s.readBytes a n = .next bs) :
    bs.length = n := by
  induction n generalizing a bs with
  | zero => simp at h; simp [← h]
  | succ n ih =>
    obtain ⟨v, vs, -, hvs, rfl⟩ := State.readBytes_succ_next_iff.1 h
    simp [ih hvs]

/-- Reading bytes in two parts. -/
theorem State.readBytes_append_iff {s : State} {a n k : Nat} {bs : List Byte} :
    s.readBytes a (n + k) = .next bs ↔
      ∃ us vs, s.readBytes a n = .next us ∧ s.readBytes (a + n) k = .next vs ∧ bs = us ++ vs := by
  induction n generalizing a bs with
  | zero => simp
  | succ n ih =>
    rw [Nat.add_right_comm, State.readBytes_succ_next_iff]
    constructor
    · rintro ⟨v, vs, hv, hvs, rfl⟩
      obtain ⟨us, ws, hus, hws, rfl⟩ := ih.1 hvs
      refine ⟨v :: us, ws, State.readBytes_succ_next_iff.2 ⟨v, us, hv, hus, rfl⟩, ?_, rfl⟩
      rwa [Nat.add_right_comm] at hws
    · rintro ⟨us, ws, hus, hws, rfl⟩
      obtain ⟨v, vs, hv, hvs, rfl⟩ := State.readBytes_succ_next_iff.1 hus
      refine ⟨v, vs ++ ws, hv, ih.2 ⟨vs, ws, hvs, ?_, rfl⟩, rfl⟩
      rwa [Nat.add_right_comm]

/-! ### The shared operations of the sequencer -/

/-- The guard of a read: past the end the operation ends, otherwise CUR passes the bytes. -/
theorem consume_next_iff {n : Nat} {s t : State} {k : State → Result State} :
    consume n s k = .next t ↔
      (s.blk.need n = true ∧ k (s.setBlk (s.blk.advance n)) = .next t) ∨ (s.blk.need n = false ∧ t = s.finish) := by
  unfold consume
  cases s.blk.need n <;> simp [eq_comm]

theorem consume_need {n : Nat} {s : State} {k : State → Result State} (h : s.blk.need n = true) :
    consume n s k = k (s.setBlk (s.blk.advance n)) := by simp [consume, h]

theorem consume_short {n : Nat} {s : State} {k : State → Result State} (h : s.blk.need n = false) :
    consume n s k = .next s.finish := by simp [consume, h]

theorem Block.need_le {b : Block} {n m : Nat} (h : b.need n = true) (hm : m ≤ n) : b.need m = true := by
  simp only [Block.need, decide_eq_true_eq] at h ⊢
  omega

/-- CUR does not wrap when the bytes are inside the input. -/
theorem Block.advance_cur_toNat {b : Block} {n : Nat} (h : b.need n = true) :
    (b.advance n).cur.toNat = b.cur.toNat + n := by
  have := b.inLen.isLt
  simp only [Block.need, decide_eq_true_eq] at h
  simp only [Block.advance_cur, BitVec.toNat_add, BitVec.toNat_ofNat]
  omega

theorem Block.need_advance {b : Block} {n m : Nat} (h : b.need n = true) : (b.advance n).need m = b.need (n + m) := by
  simp only [Block.need, Block.advance_cur_toNat h, Block.advance_inLen]
  congr 1
  apply propext
  omega

@[simp] theorem Block.slotAddr_setCur (b : Block) (n i : Nat) : (b.advance n).slotAddr i = b.slotAddr i := rfl

/-- Finalising a slot: the value in ACC and in the slot, and IDX past it (spec/10_state.md R26). -/
theorem finaliseSlot_next_iff {v : Word} {s t : State} :
    finaliseSlot v s = .next t ↔
      ∃ u, s.writeWord (s.blk.slotAddr s.blk.idx.toNat) v = .next u
        ∧ t = u.setBlk { u.blk with acc := v, idx := u.blk.idx + 1#32 } :=
  andThen_map_next_iff

theorem storeFirst_next_iff {v : Word} {s t : State} :
    storeFirst v s = .next t ↔
      ∃ u, s.writeWord (s.blk.slotAddr 0) v = .next u
        ∧ t = (u.setBlk { u.blk with acc := v, idx := 1#32 }).nextPhase :=
  andThen_map_next_iff

theorem addDelta_next_iff {d : Word} {s t : State} :
    addDelta d s = .next t ↔ ∃ u, finaliseSlot (s.blk.acc + d) s = .next u ∧ t = u.nextPhase :=
  andThen_map_next_iff

theorem resolveSlot_next_iff {o : Word} {s t : State} :
    resolveSlot o s = .next t ↔ ∃ u, finaliseSlot (s.blk.acc + o) s = .next u ∧ t = u.setBlk u.blk.nextSlot :=
  andThen_map_next_iff

/-- START answers: ignored while busy, else the started block if no duty is broken. -/
theorem startOperation_next_iff {s t : State} :
    startOperation s = .next t ↔
      (s.blk.busy = true ∧ t = s) ∨ (s.blk.busy = false ∧ s.brokenDuty = none ∧ t = s.setBlk s.blk.start) := by
  unfold startOperation
  cases hb : s.blk.busy
  · cases hd : s.brokenDuty <;> simp [eq_comm]
  · simp [eq_comm]

theorem writeConfig_busy {f : Block → Block} {s : State} (h : s.blk.busy = true) : writeConfig f s = s := by
  simp [writeConfig, h]

theorem writeConfig_idle {f : Block → Block} {s : State} (h : s.blk.busy = false) :
    writeConfig f s = s.setBlk (f s.blk) := by simp [writeConfig, h]

/-- NEXT() has three outcomes (spec/40_sequencer.md R84). -/
theorem Block.nextPhase_cases (b : Block) :
    (b.idx = b.width ∧ b.nextPhase = b.finish)
      ∨ (b.idx ≠ b.width ∧ b.blkcnt.toNat < nblock b.width ∧ b.nextPhase = { b with phase := .bctrl })
      ∨ (b.idx ≠ b.width ∧ nblock b.width ≤ b.blkcnt.toNat ∧ b.nextPhase = { b with phase := .rem }) := by
  unfold Block.nextPhase
  by_cases h1 : b.idx = b.width
  · exact .inl ⟨h1, by simp [h1]⟩
  · by_cases h2 : b.blkcnt.toNat < nblock b.width
    · exact .inr (.inl ⟨h1, h2, by simp [h1, h2]⟩)
    · exact .inr (.inr ⟨h1, by omega, by simp [h1, h2]⟩)

/-- The end of a BRES step has two outcomes (spec/42_block.md R112). -/
theorem Block.nextSlot_cases (b : Block) :
    (b.slot = 15#4 ∧ b.nextSlot = { b with blkcnt := b.blkcnt + 1#28 }.nextPhase)
      ∨ (b.slot ≠ 15#4 ∧ b.nextSlot = { b with slot := b.slot + 1#4 }) := by
  unfold Block.nextSlot
  by_cases h : b.slot = 15#4 <;> simp [h]

/-- BPACK has two outcomes (spec/42_block.md R106). -/
theorem Block.unpack_cases (b : Block) (n : BitVec 4) (r : BitVec 120) :
    (b.half = 0#1 ∧ b.unpack n r = { b with
        pack := r, ofs := unpackOffsets b.ofs r n.toNat b.half.toNat, half := 1#1 })
      ∨ (b.half ≠ 0#1 ∧ b.unpack n r = { b with
        pack := r, ofs := unpackOffsets b.ofs r n.toNat b.half.toNat, slot := 0#4, phase := .bres }) := by
  unfold Block.unpack
  by_cases h : b.half = 0#1
  · exact .inl ⟨h, by simp [h]⟩
  · exact .inr ⟨h, by simp [h]⟩

end Sys2Proof.Machine
end

