-- ==== Sys2Proof/Laws/PerInstr.lean ====
section
/-! SUPPORT. Statements made per instruction: the length of an instruction's bytes (spec/30_encoding.md R72, R75). -/

namespace Sys2Proof

@[simp] theorem leBytes_length (n v : Nat) : (leBytes n v).length = n := by
  induction n generalizing v with
  | zero => rfl
  | succ n ih => simp [leBytes, ih]

namespace Laws.TokenLength

/-- The encoding of an instruction has the length that R72 gives its token. -/
def Statement (i : Instr) : Prop := (encode i).length = i.byteLen

theorem pixS32 (lit : Word) : Statement (.pixS32 lit) := by simp [Statement, encode, Instr.byteLen]
theorem pixS16 (lit : BitVec 16) : Statement (.pixS16 lit) := by simp [Statement, encode, Instr.byteLen]
theorem pixB (b : Byte) : Statement (.pixB b) := rfl
theorem blk (n0 n1 : BitVec 4) : Statement (.blk n0 n1) := rfl
theorem half (n : BitVec 4) (run : BitVec 120) : Statement (.half n run) := by simp [Statement, encode, Instr.byteLen]
theorem slotEsc32 (lit : Word) : Statement (.slotEsc32 lit) := by simp [Statement, encode, Instr.byteLen]
theorem slotEsc16 (lit : BitVec 16) : Statement (.slotEsc16 lit) := by simp [Statement, encode, Instr.byteLen]
theorem slotField : Statement .slotField := rfl
theorem dltS32 (lit : Word) : Statement (.dltS32 lit) := by simp [Statement, encode, Instr.byteLen]
theorem dltS16 (lit : BitVec 16) : Statement (.dltS16 lit) := by simp [Statement, encode, Instr.byteLen]
theorem dltB (b : Byte) : Statement (.dltB b) := rfl
theorem hostStart (data : Word) : Statement (.hostStart data) := by simp [Statement, encode, Instr.byteLen]
theorem hostCtrl0 (data : Word) : Statement (.hostCtrl0 data) := by simp [Statement, encode, Instr.byteLen]
theorem hostWrStatus (data : Word) : Statement (.hostWrStatus data) := by simp [Statement, encode, Instr.byteLen]
theorem hostWrInBase (data : Word) : Statement (.hostWrInBase data) := by simp [Statement, encode, Instr.byteLen]
theorem hostWrInLen (data : Word) : Statement (.hostWrInLen data) := by simp [Statement, encode, Instr.byteLen]
theorem hostWrOutBase (data : Word) : Statement (.hostWrOutBase data) := by simp [Statement, encode, Instr.byteLen]
theorem hostWrWidth (data : Word) : Statement (.hostWrWidth data) := by simp [Statement, encode, Instr.byteLen]
theorem hostWrProduced (data : Word) : Statement (.hostWrProduced data) := by simp [Statement, encode, Instr.byteLen]
theorem hostWrConsumed (data : Word) : Statement (.hostWrConsumed data) := by simp [Statement, encode, Instr.byteLen]
theorem hostRd (r : Reg) : Statement (.hostRd r) := rfl

end Laws.TokenLength

end Sys2Proof
end

