-- ==== Sys2Proof/Laws/Step.lean ====
section
/-! SUPPORT. What a step can do, said once: the stream tokens (`TokenStep`), the block's step (`blockStep_cases`), the host's
instructions (`exec_host_cases`) and the turns. Invariants are proved from these, without unfolding `exec` or `step`. -/

namespace Sys2Proof.Machine

/-- The active block with slot `i` written in memory. -/
def State.storeSlot (s : State) (i : Nat) (v : Word) : State := s.setMem (Memory.writeWord s.mem (s.blk.slotAddr i) v)

@[simp] theorem State.storeSlot_blk (s : State) (i : Nat) (v : Word) : (s.storeSlot i v).blk = s.blk := rfl
@[simp] theorem State.storeSlot_mem (s : State) (i : Nat) (v : Word) :
    (s.storeSlot i v).mem = Memory.writeWord s.mem (s.blk.slotAddr i) v := rfl
@[simp] theorem State.storeSlot_others (s : State) (i : Nat) (v : Word) : (s.storeSlot i v).others = s.others := rfl
@[simp] theorem State.storeSlot_holes (s : State) (i : Nat) (v : Word) : (s.storeSlot i v).holes = s.holes := rfl
@[simp] theorem State.storeSlot_rdata (s : State) (i : Nat) (v : Word) : (s.storeSlot i v).rdata = s.rdata := rfl
@[simp] theorem State.storeSlot_hostBytes (s : State) (i : Nat) (v : Word) :
    (s.storeSlot i v).hostBytes = s.hostBytes := rfl
@[simp] theorem State.storeSlot_draws (s : State) (i : Nat) (v : Word) : (s.storeSlot i v).draws = s.draws := rfl
@[simp] theorem State.storeSlot_sched (s : State) (i : Nat) (v : Word) : (s.storeSlot i v).sched = s.sched := rfl

@[simp] theorem Block.advance_advance (b : Block) (m n : Nat) : (b.advance m).advance n = b.advance (m + n) := by
  simp only [Block.advance, BitVec.ofNat_add, BitVec.add_assoc]

theorem State.slotOk_setBlk (s : State) (b : Block) (hr : b.regBase = s.blk.regBase) (ho : b.outHi = s.blk.outHi) (i : Nat) :
    (s.setBlk b).slotOk i = s.slotOk i := by
  have ha : (s.setBlk b).blk.slotAddr i = s.blk.slotAddr i := by simp [Block.slotAddr, Block.outBase, ho]
  simp only [State.slotOk, ha, State.backed_setBlk_same s b hr]

theorem State.writeWord_slot_iff {s t : State} {i : Nat} {v : Word} :
    s.writeWord (s.blk.slotAddr i) v = .next t ↔ s.slotOk i = true ∧ t = s.storeSlot i v := by
  rw [State.writeWord_next_iff]
  simp only [State.slotOk, Bool.and_eq_true, decide_eq_true_eq, State.storeSlot]
  tauto

/-- What a stream token, or a token cut short, does to the machine when it answers a next state. -/
inductive TokenStep (s : State) : State → Prop
  /-- The input ran out (spec/40_sequencer.md R86, R88): `n` bytes were read and the operation ends. -/
  | short (n : Nat) (h : n = 0 ∨ s.blk.need n = true) : TokenStep s (endShort n s)
  /-- FIRST (spec/41_first_pixel.md R98). -/
  | first (n : Nat) (v : Word) (hp : s.blk.phase = .first) (hn : s.blk.need n = true) (hs : s.slotOk 0 = true) :
    TokenStep s ((s.storeSlot 0 v).setBlk { s.blk.advance n with acc := v, idx := 1#32 }.nextPhase)
  /-- BCTRL (spec/42_block.md R104). -/
  | bctrl (n0 n1 : BitVec 4) (hp : s.blk.phase = .bctrl) (hn : s.blk.need 1 = true) :
    TokenStep s (s.setBlk ((s.blk.advance 1).setWidths n0 n1))
  /-- BPACK (R106). -/
  | bpack (run : BitVec 120) (hp : s.blk.phase = .bpack) (hn : s.blk.need s.blk.nbit.toNat = true) :
    TokenStep s (s.setBlk ((s.blk.advance s.blk.nbit.toNat).unpack s.blk.nbit run))
  /-- BRES (R112). -/
  | bres (n : Nat) (o : Word) (hp : s.blk.phase = .bres) (hn : n = 0 ∨ s.blk.need n = true)
    (hs : s.slotOk s.blk.idx.toNat = true) :
    TokenStep s ((s.storeSlot s.blk.idx.toNat (s.blk.acc + o)).setBlk
      { s.blk.advance n with acc := s.blk.acc + o, idx := s.blk.idx + 1#32 }.nextSlot)
  /-- REM (spec/43_remainder.md R123). -/
  | rem (n : Nat) (d : Word) (hp : s.blk.phase = .rem) (hn : s.blk.need n = true)
    (hs : s.slotOk s.blk.idx.toNat = true) :
    TokenStep s ((s.storeSlot s.blk.idx.toNat (s.blk.acc + d)).setBlk
      { s.blk.advance n with acc := s.blk.acc + d, idx := s.blk.idx + 1#32 }.nextPhase)

@[simp] theorem Block.advance_zero (b : Block) : b.advance 0 = b := by simp [Block.advance]

theorem storeFirst_advance_iff {s t : State} {n : Nat} {v : Word} :
    storeFirst v (s.setBlk (s.blk.advance n)) = .next t ↔
      s.slotOk 0 = true
        ∧ t = (s.storeSlot 0 v).setBlk { s.blk.advance n with acc := v, idx := 1#32 }.nextPhase := by
  rw [storeFirst_next_iff]
  simp only [State.setBlk_blk]
  have key (u : State) : (s.setBlk (s.blk.advance n)).writeWord ((s.blk.advance n).slotAddr 0) v = .next u ↔
      s.slotOk 0 = true ∧ u = (s.setBlk (s.blk.advance n)).storeSlot 0 v := by
    rw [← s.slotOk_setBlk (s.blk.advance n) rfl rfl]
    exact State.writeWord_slot_iff
  constructor
  · rintro ⟨u, hu, rfl⟩
    obtain ⟨hs, rfl⟩ := (key u).1 hu
    exact ⟨hs, rfl⟩
  · rintro ⟨hs, rfl⟩
    exact ⟨_, (key _).2 ⟨hs, rfl⟩, rfl⟩

theorem finaliseSlot_advance_iff {s t : State} {n : Nat} {v : Word} :
    finaliseSlot v (s.setBlk (s.blk.advance n)) = .next t ↔
      s.slotOk s.blk.idx.toNat = true
        ∧ t = (s.storeSlot s.blk.idx.toNat v).setBlk
          { s.blk.advance n with acc := v, idx := s.blk.idx + 1#32 } := by
  rw [finaliseSlot_next_iff]
  simp only [State.setBlk_blk, Block.advance_idx]
  have key (u : State) :
      (s.setBlk (s.blk.advance n)).writeWord ((s.blk.advance n).slotAddr s.blk.idx.toNat) v = .next u ↔
      s.slotOk s.blk.idx.toNat = true ∧ u = (s.setBlk (s.blk.advance n)).storeSlot s.blk.idx.toNat v := by
    rw [← s.slotOk_setBlk (s.blk.advance n) rfl rfl]
    exact State.writeWord_slot_iff
  constructor
  · rintro ⟨u, hu, rfl⟩
    obtain ⟨hs, rfl⟩ := (key u).1 hu
    exact ⟨hs, rfl⟩
  · rintro ⟨hs, rfl⟩
    exact ⟨_, (key _).2 ⟨hs, rfl⟩, rfl⟩

theorem addDelta_advance_iff {s t : State} {n : Nat} {d : Word} :
    addDelta d (s.setBlk (s.blk.advance n)) = .next t ↔
      s.slotOk s.blk.idx.toNat = true
        ∧ t = (s.storeSlot s.blk.idx.toNat (s.blk.acc + d)).setBlk
          { s.blk.advance n with acc := s.blk.acc + d, idx := s.blk.idx + 1#32 }.nextPhase := by
  rw [addDelta_next_iff]
  simp only [State.setBlk_blk, Block.advance_acc, finaliseSlot_advance_iff]
  constructor
  · rintro ⟨u, ⟨hs, rfl⟩, rfl⟩
    exact ⟨hs, rfl⟩
  · rintro ⟨hs, rfl⟩
    exact ⟨_, ⟨hs, rfl⟩, rfl⟩

theorem resolveSlot_advance_iff {s t : State} {n : Nat} {o : Word} :
    resolveSlot o (s.setBlk (s.blk.advance n)) = .next t ↔
      s.slotOk s.blk.idx.toNat = true
        ∧ t = (s.storeSlot s.blk.idx.toNat (s.blk.acc + o)).setBlk
          { s.blk.advance n with acc := s.blk.acc + o, idx := s.blk.idx + 1#32 }.nextSlot := by
  rw [resolveSlot_next_iff]
  simp only [State.setBlk_blk, Block.advance_acc, finaliseSlot_advance_iff]
  constructor
  · rintro ⟨u, ⟨hs, rfl⟩, rfl⟩
    exact ⟨hs, rfl⟩
  · rintro ⟨hs, rfl⟩
    exact ⟨_, ⟨hs, rfl⟩, rfl⟩

/-- One guarded read: the operation ends with nothing read, or the rest runs past the bytes. -/
theorem tokenStep_consume {s t : State} {n : Nat} {k : State → Result State} (h : consume n s k = .next t)
    (hk : s.blk.need n = true → k (s.setBlk (s.blk.advance n)) = .next t → TokenStep s t) : TokenStep s t := by
  rcases consume_next_iff.1 h with ⟨hn, h⟩ | ⟨-, rfl⟩
  · exact hk hn h
  · simpa [endShort] using TokenStep.short (s := s) 0 (.inl rfl)

/-- A lead byte and then a literal: each ends the operation, or the rest runs past both (spec/40_sequencer.md R88). -/
theorem tokenStep_consume_two {s t : State} {m n : Nat} {k : State → Result State}
    (h : (consume m s fun s => consume n s k) = .next t)
    (hk : s.blk.need (m + n) = true → k (s.setBlk (s.blk.advance (m + n))) = .next t → TokenStep s t) :
    TokenStep s t := by
  refine tokenStep_consume h fun hm h => ?_
  rcases consume_next_iff.1 h with ⟨hn, h⟩ | ⟨-, rfl⟩
  · simp only [State.setBlk_blk, State.setBlk_setBlk, Block.advance_advance, Block.need_advance hm] at hn h
    exact hk hn h
  · exact TokenStep.short m (.inr hm)

theorem exec_pixS32_tokenStep {lit : Word} {s t : State} (h : exec (.pixS32 lit) s = .next t) : TokenStep s t := by
  obtain ⟨hp, h⟩ := inContext_next_iff.1 (show execPixS32 lit s = .next t from h)
  refine tokenStep_consume_two h fun hn h => ?_
  obtain ⟨hs, rfl⟩ := storeFirst_advance_iff.1 h
  exact .first _ _ (by simpa using hp) hn hs

theorem exec_pixS16_tokenStep {lit : BitVec 16} {s t : State} (h : exec (.pixS16 lit) s = .next t) : TokenStep s t := by
  obtain ⟨hp, h⟩ := inContext_next_iff.1 (show execPixS16 lit s = .next t from h)
  refine tokenStep_consume_two h fun hn h => ?_
  obtain ⟨hs, rfl⟩ := storeFirst_advance_iff.1 h
  exact .first _ _ (by simpa using hp) hn hs

theorem exec_pixB_tokenStep {b : Byte} {s t : State} (h : exec (.pixB b) s = .next t) : TokenStep s t := by
  obtain ⟨hp, h⟩ := inContext_next_iff.1 (show execPixB b s = .next t from h)
  refine tokenStep_consume h fun hn h => ?_
  obtain ⟨hs, rfl⟩ := storeFirst_advance_iff.1 h
  exact .first _ _ (by simpa using hp) hn hs

theorem exec_dltS32_tokenStep {lit : Word} {s t : State} (h : exec (.dltS32 lit) s = .next t) : TokenStep s t := by
  obtain ⟨hp, h⟩ := inContext_next_iff.1 (show execDltS32 lit s = .next t from h)
  refine tokenStep_consume_two h fun hn h => ?_
  obtain ⟨hs, rfl⟩ := addDelta_advance_iff.1 h
  exact .rem _ _ (by simpa using hp) hn hs

theorem exec_dltS16_tokenStep {lit : BitVec 16} {s t : State} (h : exec (.dltS16 lit) s = .next t) : TokenStep s t := by
  obtain ⟨hp, h⟩ := inContext_next_iff.1 (show execDltS16 lit s = .next t from h)
  refine tokenStep_consume_two h fun hn h => ?_
  obtain ⟨hs, rfl⟩ := addDelta_advance_iff.1 h
  exact .rem _ _ (by simpa using hp) hn hs

theorem exec_dltB_tokenStep {b : Byte} {s t : State} (h : exec (.dltB b) s = .next t) : TokenStep s t := by
  obtain ⟨hp, h⟩ := inContext_next_iff.1 (show execDltB b s = .next t from h)
  refine tokenStep_consume h fun hn h => ?_
  obtain ⟨hs, rfl⟩ := addDelta_advance_iff.1 h
  exact .rem _ _ (by simpa using hp) hn hs

theorem exec_blk_tokenStep {n0 n1 : BitVec 4} {s t : State} (h : exec (.blk n0 n1) s = .next t) : TokenStep s t := by
  obtain ⟨hp, h⟩ := inContext_next_iff.1 (show execBlk n0 n1 s = .next t from h)
  refine tokenStep_consume h fun hn h => ?_
  cases h
  exact .bctrl n0 n1 (by simpa using hp) hn

theorem exec_half_tokenStep {n : BitVec 4} {run : BitVec 120} {s t : State} (h : exec (.half n run) s = .next t) :
    TokenStep s t := by
  obtain ⟨hp, h⟩ := inContext_next_iff.1 (show execHalf n run s = .next t from h)
  simp only [Bool.and_eq_true, decide_eq_true_eq] at hp
  obtain ⟨hp, rfl⟩ := hp
  refine tokenStep_consume h fun hn h => ?_
  cases h
  exact .bpack run hp hn

theorem exec_slotEsc32_tokenStep {lit : Word} {s t : State} (h : exec (.slotEsc32 lit) s = .next t) : TokenStep s t := by
  obtain ⟨hp, h⟩ := inContext_next_iff.1 (show execSlotEsc32 lit s = .next t from h)
  simp only [Bool.and_eq_true, decide_eq_true_eq] at hp
  refine tokenStep_consume h fun hn h => ?_
  obtain ⟨hs, rfl⟩ := resolveSlot_advance_iff.1 h
  exact .bres 4 _ hp.1 (.inr hn) hs

theorem exec_slotEsc16_tokenStep {lit : BitVec 16} {s t : State} (h : exec (.slotEsc16 lit) s = .next t) :
    TokenStep s t := by
  obtain ⟨hp, h⟩ := inContext_next_iff.1 (show execSlotEsc16 lit s = .next t from h)
  simp only [Bool.and_eq_true, decide_eq_true_eq] at hp
  refine tokenStep_consume h fun hn h => ?_
  obtain ⟨hs, rfl⟩ := resolveSlot_advance_iff.1 h
  exact .bres 2 _ hp.1 (.inr hn) hs

theorem exec_slotField_tokenStep {s t : State} (h : exec .slotField s = .next t) : TokenStep s t := by
  obtain ⟨hp, h⟩ := inContext_next_iff.1 (show execSlotField s = .next t from h)
  simp only [Bool.and_eq_true, decide_eq_true_eq] at hp
  have h' : resolveSlot (offset32 s.blk.slotOffset) (s.setBlk (s.blk.advance 0)) = .next t := by simpa using h
  obtain ⟨hs, rfl⟩ := resolveSlot_advance_iff.1 h'
  exact .bres 0 _ hp.1 (.inl rfl) hs

/-- What a host instruction does to the machine when it answers a next state. -/
inductive HostStep (s : State) : State → Prop
  /-- Nothing: a write to CTRL with bit 0 clear or to a read-only register, or any write while busy. -/
  | ignored : HostStep s s
  /-- START in IDLE, with every duty kept (spec/44_host_interface.md R135). -/
  | started (hi : s.blk.busy = false) (hd : s.brokenDuty = none) : HostStep s (s.setBlk s.blk.start)
  /-- A configuration register written in IDLE (R132, R133). -/
  | configured (b : Block) (hi : s.blk.busy = false) (hb : b.phase = s.blk.phase) (hr : b.regBase = s.blk.regBase)
    (hd : b.done = s.blk.done) : HostStep s (s.setBlk b)
  /-- A register read (R131). -/
  | read (r : Reg) : HostStep s { s with rdata := s.blk.readReg r }

theorem hostStep_writeConfig {f : Block → Block} {s : State} (hp : (f s.blk).phase = s.blk.phase)
    (hr : (f s.blk).regBase = s.blk.regBase) (hd : (f s.blk).done = s.blk.done) : HostStep s (writeConfig f s) := by
  unfold writeConfig
  cases hb : s.blk.busy
  · exact .configured _ hb hp hr hd
  · exact .ignored

/-- An instruction of the HOST context (spec/30_encoding.md R75). -/
def Instr.isHost (i : Instr) : Bool := i.fits .host

theorem exec_host_cases {i : Instr} {s t : State} (hi : Instr.isHost i = true) (h : exec i s = .next t) :
    HostStep s t := by
  cases i with
  | hostStart data =>
    rcases startOperation_next_iff.1 (show startOperation s = .next t from h) with ⟨-, rfl⟩ | ⟨hb, hd, rfl⟩
    · exact .ignored
    · exact .started hb hd
  | hostCtrl0 data => cases h; exact .ignored
  | hostWrStatus data => cases h; exact .ignored
  | hostWrProduced data => cases h; exact .ignored
  | hostWrConsumed data => cases h; exact .ignored
  | hostWrInBase data => cases h; exact hostStep_writeConfig rfl rfl rfl
  | hostWrInLen data => cases h; exact hostStep_writeConfig rfl rfl rfl
  | hostWrOutBase data => cases h; exact hostStep_writeConfig rfl rfl rfl
  | hostWrWidth data => cases h; exact hostStep_writeConfig rfl rfl rfl
  | hostRd r => cases h; exact .read r
  | pixS32 _ | pixS16 _ | pixB _ | blk _ _ | half _ _ | slotEsc32 _ | slotEsc16 _ | slotField | dltS32 _ | dltS16 _
  | dltB _ => simp [Instr.isHost, Instr.fits] at hi

/-- What a stream token does when it answers a next state. -/
theorem exec_token_cases {i : Instr} {s t : State} (hi : Instr.isHost i = false) (h : exec i s = .next t) :
    TokenStep s t := by
  cases i with
  | pixS32 lit => exact exec_pixS32_tokenStep h
  | pixS16 lit => exact exec_pixS16_tokenStep h
  | pixB b => exact exec_pixB_tokenStep h
  | blk n0 n1 => exact exec_blk_tokenStep h
  | half n run => exact exec_half_tokenStep h
  | slotEsc32 lit => exact exec_slotEsc32_tokenStep h
  | slotEsc16 lit => exact exec_slotEsc16_tokenStep h
  | slotField => exact exec_slotField_tokenStep h
  | dltS32 lit => exact exec_dltS32_tokenStep h
  | dltS16 lit => exact exec_dltS16_tokenStep h
  | dltB b => exact exec_dltB_tokenStep h
  | hostStart _ | hostCtrl0 _ | hostWrStatus _ | hostWrInBase _ | hostWrInLen _ | hostWrOutBase _ | hostWrWidth _
  | hostWrProduced _ | hostWrConsumed _ | hostRd _ => simp [Instr.isHost, Instr.fits] at hi

/-- Every instruction is a stream token or a host instruction, and does what those do. -/
theorem exec_cases {i : Instr} {s t : State} (h : exec i s = .next t) : TokenStep s t ∨ HostStep s t := by
  cases hi : Instr.isHost i
  · exact .inl (exec_token_cases hi h)
  · exact .inr (exec_host_cases hi h)

/-- The stream contexts decode to stream tokens. -/
theorem decode_stream_isHost {c : Ctx} {bs rest : List Byte} {i : Instr} (hc : c ≠ .host)
    (h : decode c bs = .ok (i, rest)) : Instr.isHost i = false := by
  cases c with
  | first | rem =>
    cases bs with
    | nil => simp [decode, decodeSingle] at h
    | cons b bs =>
      simp only [decode, decodeSingle] at h
      split_ifs at h <;> simp only [Except.ok.injEq, Prod.mk.injEq] at h <;> rw [← h.1] <;> rfl
  | bctrl =>
    cases bs with
    | nil => simp [decode, decodeControl] at h
    | cons b bs =>
      simp only [decode, decodeControl, Except.ok.injEq, Prod.mk.injEq] at h
      rw [← h.1]
      rfl
  | bpack n =>
    simp only [decode, decodeRun] at h
    split_ifs at h
    simp only [Except.ok.injEq, Prod.mk.injEq] at h
    rw [← h.1]
    rfl
  | bres o =>
    simp only [decode, decodeSlot] at h
    split_ifs at h
    cases hl : literalClass o <;> simp only [hl, Except.ok.injEq, Prod.mk.injEq] at h <;> rw [← h.1] <;> rfl
  | host => exact absurd rfl hc

/-- The host decoder gives host instructions. -/
theorem decode_host_isHost {bs rest : List Byte} {i : Instr} (h : decode .host bs = .ok (i, rest)) :
    Instr.isHost i = true := by
  cases bs with
  | nil => simp [decode, decodeHost] at h
  | cons k bs =>
    simp only [decode, decodeHost] at h
    split_ifs at h
    · simp only [Except.ok.injEq, Prod.mk.injEq] at h
      obtain ⟨rfl, -⟩ := h
      cases Reg.ofIndex (k.extractLsb' 0 3) <;> simp only [writeInstr] <;> first | rfl | (split_ifs <;> rfl)
    · simp only [Except.ok.injEq, Prod.mk.injEq] at h
      obtain ⟨rfl, -⟩ := h
      rfl

/-- A register access that answers a next state does what a host instruction does. -/
theorem hostAccess_cases {a : HostAccess} {s t : State} (h : hostAccess a s = .next t) : HostStep s t := by
  unfold hostAccess at h
  cases hd : decodeAccess s.blk.regBase a with
  | error e => simp [hd] at h
  | ok p =>
    obtain ⟨i, rest⟩ := p
    simp only [hd] at h
    refine exec_host_cases ?_ h
    unfold decodeAccess at hd
    cases hb : accessBytes s.blk.regBase a with
    | error e => simp [hb] at hd
    | ok bs => exact decode_host_isHost (by simpa [hb] using hd)

/-! ### The block's step -/

/-- The ZFILL step (spec/40_sequencer.md R82, R83). -/
theorem zfillStep_next_iff {s t : State} :
    zfillStep s = .next t ↔
      (s.blk.width = 0#32 ∧ t = s.finish)
        ∨ (s.blk.width ≠ 0#32 ∧ s.slotOk s.blk.zi.toNat = true
          ∧ t = (s.storeSlot s.blk.zi.toNat 0#32).setBlk s.blk.nextZero) := by
  unfold zfillStep
  by_cases hw : s.blk.width = 0#32
  · rw [if_pos hw]
    simp only [hw, ne_eq, not_true_eq_false, false_and, or_false, true_and, Host.Outcome.next.injEq]
    exact eq_comm
  · rw [if_neg hw, andThen_map_next_iff]
    simp only [State.writeWord_slot_iff, hw, false_and, false_or, ne_eq, not_false_eq_true, true_and]
    constructor
    · rintro ⟨u, ⟨hs, rfl⟩, rfl⟩
      exact ⟨hs, rfl⟩
    · rintro ⟨hs, rfl⟩
      exact ⟨_, ⟨hs, rfl⟩, rfl⟩

/-- The decoder's rejections read at most the lead byte, and that only for a single-pixel token. -/
theorem decode_error_consumed {c : Ctx} {bs : List Byte} {e : DecodeError} (h : decode c bs = .error e) :
    e.consumed = 0 ∨ (e.consumed = 1 ∧ c.leadLen = 1 ∧ bs ≠ []) := by
  cases c with
  | first | rem =>
    cases bs with
    | nil => simp only [decode, decodeSingle] at h; cases h; exact .inl rfl
    | cons b bs =>
      simp only [decode, decodeSingle] at h
      split_ifs at h
      cases h
      exact .inr ⟨rfl, rfl, by simp⟩
  | bctrl =>
    cases bs with
    | nil => simp only [decode, decodeControl] at h; cases h; exact .inl rfl
    | cons b bs => simp [decode, decodeControl] at h
  | bpack n =>
    simp only [decode, decodeRun] at h
    split_ifs at h
    cases h
    exact .inl rfl
  | bres o =>
    simp only [decode, decodeSlot] at h
    split_ifs at h
    · cases h
      exact .inl rfl
    · cases hc : literalClass o <;> simp [hc] at h
  | host =>
    cases bs with
    | nil => simp only [decode, decodeHost] at h; cases h; exact .inl rfl
    | cons b bs =>
      simp only [decode, decodeHost] at h
      split_ifs at h
      all_goals (cases h; exact .inl rfl)

/-- Fetching answers the decoding of the bytes that it read, all of them inside the input. -/
theorem fetch_next_cases {c : Ctx} {s : State} {f : Fetched} (h : fetch c s = .next f) :
    (s.blk.need c.leadLen = false ∧ f = toFetched (decode c []))
      ∨ ∃ bs, s.blk.need bs.length = true ∧ c.leadLen ≤ bs.length ∧ s.inputBytes 0 bs.length = .next bs
        ∧ f = toFetched (decode c bs) := by
  unfold fetch at h
  split_ifs at h with hn
  · right
    obtain ⟨lead, hl, h⟩ := andThen_next_iff.1 h
    have hlen := State.readBytes_length hl
    split_ifs at h with hn2
    · obtain ⟨tail, ht, h⟩ := andThen_next_iff.1 h
      have htl := State.readBytes_length ht
      cases h
      refine ⟨lead ++ tail, by simpa [hlen, htl] using hn2, by simp [hlen], ?_, rfl⟩
      simp only [List.length_append, hlen, htl]
      exact State.readBytes_append_iff.2 ⟨lead, tail, hl, by simpa [State.inputBytes, Block.inAddr, Nat.add_assoc] using ht, rfl⟩
    · cases h
      exact ⟨lead, by rwa [hlen], hlen.ge, by rwa [hlen], rfl⟩
  · cases h
    exact .inl ⟨by simpa using hn, rfl⟩

/-- The block's step when it decodes: it does what a stream token, or one cut short, does. -/
theorem blockStep_token {s t : State} {c : Ctx} (hc : s.blk.ctx = some c) (h : blockStep s = .next t) :
    TokenStep s t := by
  simp only [blockStep, hc] at h
  obtain ⟨f, hf, h⟩ := andThen_next_iff.1 h
  have hhost : c ≠ .host := by
    rintro rfl
    cases hp : s.blk.phase <;> simp [Block.ctx, hp] at hc
  cases f with
  | token i =>
    obtain ⟨bs, hb⟩ : ∃ bs, Fetched.token i = toFetched (decode c bs) := by
      rcases fetch_next_cases hf with ⟨-, hf⟩ | ⟨bs, -, -, -, hf⟩
      · exact ⟨[], hf⟩
      · exact ⟨bs, hf⟩
    cases hd : decode c bs with
    | error e => simp [hd, toFetched] at hb
    | ok p =>
      obtain ⟨j, rest⟩ := p
      simp only [hd, toFetched, Fetched.token.injEq] at hb
      subst hb
      exact exec_token_cases (decode_stream_isHost hhost hd) h
  | short n =>
    cases h
    refine .short n ?_
    rcases fetch_next_cases hf with ⟨-, hf⟩ | ⟨bs, hn, hl, -, hf⟩
    · cases hd : decode c [] with
      | ok p => simp [hd, toFetched] at hf
      | error e =>
        simp only [hd, toFetched, Fetched.short.injEq] at hf
        rcases decode_error_consumed hd with h0 | ⟨-, -, hne⟩
        · exact .inl (hf.trans h0)
        · exact absurd rfl hne
    · cases hd : decode c bs with
      | ok p => simp [hd, toFetched] at hf
      | error e =>
        simp only [hd, toFetched, Fetched.short.injEq] at hf
        rcases decode_error_consumed hd with h0 | ⟨h1, hl1, -⟩
        · exact .inl (hf.trans h0)
        · right
          exact Block.need_le hn (by omega)

/-- One step of the block, without its definition: nothing in IDLE, a ZFILL step, or a token. -/
theorem blockStep_cases {s t : State} (h : blockStep s = .next t) :
    (s.blk.phase = .idle ∧ t = s) ∨ (s.blk.phase = .zfill ∧ zfillStep s = .next t)
      ∨ (s.blk.phase ≠ .idle ∧ s.blk.phase ≠ .zfill ∧ TokenStep s t) := by
  cases hp : s.blk.phase with
  | idle =>
    have hc : s.blk.ctx = none := by simp [Block.ctx, hp]
    simp only [blockStep, hc, Block.busy, hp] at h
    cases h
    exact .inl ⟨rfl, rfl⟩
  | zfill =>
    have hc : s.blk.ctx = none := by simp [Block.ctx, hp]
    exact .inr (.inl ⟨rfl, by simpa [blockStep, hc, Block.busy, hp] using h⟩)
  | first =>
    exact .inr (.inr ⟨by simp, by simp, blockStep_token (c := .first) (by simp [Block.ctx, hp]) h⟩)
  | bctrl =>
    exact .inr (.inr ⟨by simp, by simp, blockStep_token (c := .bctrl) (by simp [Block.ctx, hp]) h⟩)
  | bpack =>
    exact .inr (.inr ⟨by simp, by simp, blockStep_token (c := .bpack s.blk.nbit) (by simp [Block.ctx, hp]) h⟩)
  | bres =>
    exact .inr (.inr ⟨by simp, by simp, blockStep_token (c := .bres s.blk.slotOffset) (by simp [Block.ctx, hp]) h⟩)
  | rem =>
    exact .inr (.inr ⟨by simp, by simp, blockStep_token (c := .rem) (by simp [Block.ctx, hp]) h⟩)

/-! ### Turns -/

/-- Selecting a block: the active one is it already, or it changes places with one of the others. -/
theorem swapIn_some {base : Word} {cur b : Block} {l l' : List Block} (h : swapIn base cur l = some (b, l')) :
    b.regBase = base ∧ (b :: l').Perm (cur :: l) := by
  induction l generalizing l' with
  | nil => simp [swapIn] at h
  | cons c cs ih =>
    simp only [swapIn] at h
    split_ifs at h with hc
    · simp only [Option.some.injEq, Prod.mk.injEq] at h
      obtain ⟨rfl, rfl⟩ := h
      exact ⟨hc, List.Perm.swap ..⟩
    · cases hs : swapIn base cur cs with
      | none => simp [hs] at h
      | some p =>
        obtain ⟨d, ds⟩ := p
        simp only [hs, Option.some.injEq, Prod.mk.injEq] at h
        obtain ⟨rfl, rfl⟩ := h
        obtain ⟨hd, hp⟩ := ih hs
        refine ⟨hd, ?_⟩
        calc (d :: c :: ds).Perm (c :: d :: ds) := List.Perm.swap ..
          _ |>.Perm (c :: cur :: cs) := hp.cons c
          _ |>.Perm (cur :: c :: cs) := List.Perm.swap ..

/-- Selecting keeps the blocks, up to their order, and everything else. -/
theorem State.select_some {s t : State} {base : Word} (h : s.select base = some t) :
    t.blk.regBase = base ∧ t.blocks.Perm s.blocks ∧ t.mem = s.mem ∧ t.holes = s.holes ∧ t.rdata = s.rdata
      ∧ t.hostBytes = s.hostBytes ∧ t.draws = s.draws ∧ t.sched = s.sched := by
  unfold State.select at h
  split_ifs at h with hb
  · cases h
    exact ⟨hb, List.Perm.refl _, rfl, rfl, rfl, rfl, rfl, rfl⟩
  · cases hs : swapIn base s.blk s.others with
    | none => simp [hs] at h
    | some p =>
      obtain ⟨b, bs⟩ := p
      simp only [hs, Option.some.injEq] at h
      subst h
      obtain ⟨hr, hp⟩ := swapIn_some hs
      exact ⟨hr, hp, rfl, rfl, rfl, rfl, rfl, rfl⟩

theorem onBlock_next_iff {base : Word} {f : State → Result State} {s t : State} :
    onBlock base f s = .next t ↔ ∃ u, s.select base = some u ∧ f u = .next t := by
  unfold onBlock
  cases s.select base <;> simp

/-- An address is in a window exactly as far as 32 bytes from REG_BASE on, without wrapping (spec/20_memory.md R46). -/
theorem inWindow_eq_true_iff {base addr : Word} :
    inWindow base addr = true ↔ base.toNat ≤ addr.toNat ∧ addr.toNat < base.toNat + 32 := decide_eq_true_iff

/-- A range is busy exactly when it meets a region of some running block. -/
theorem State.regionBusy_eq_true_iff {s : State} {a n : Nat} :
    s.regionBusy a n = true ↔ ∃ b ∈ s.blocks, b.busy = true ∧ (b.inputMeets a n = true ∨ b.outputMeets a n = true) := by
  simp [State.regionBusy]

/-- Another agent's write that completes (spec/20_memory.md R60). -/
theorem memWrite_next_iff {a : Nat} {data : List Byte} {s t : State} :
    memWrite a data s = .next t ↔
      a + data.length ≤ Config.addrSpace ∧ s.regionBusy a data.length = false
        ∧ s.unbackedIn a data.length = false ∧ t = s.setMem (Memory.writeBytes s.mem a data) := by
  unfold memWrite
  split_ifs with h1 h2 h3
  · simp only [false_iff]; omega
  · simp [h2]
  · simp [h3]
  · simp only [Host.Outcome.next.injEq]
    constructor
    · rintro rfl
      exact ⟨by omega, by simpa using h2, by simpa using h3, rfl⟩
    · rintro ⟨-, -, -, rfl⟩
      rfl

/-- Another agent's read that completes. -/
theorem memRead_next_iff {a n : Nat} {s t : State} :
    memRead a n s = .next t ↔
      s.regionBusy a n = false ∧ ∃ bs, s.readBytes a n = .next bs ∧ t = { s with hostBytes := bs } := by
  unfold memRead
  split_ifs with h
  · simp [h]
  · simp only [Bool.not_eq_true] at h
    simp [h, andThen_map_next_iff]

/-- One step of the machine, by the turn it takes. -/
theorem step_cases {s t : State} (h : step s = .next t) :
    (s.sched = [] ∧ blockStep s = .next t)
      ∨ ∃ u us, s.sched = u :: us ∧ takeTurn u { s with sched := us } = .next t := by
  unfold step nextTurn at h
  cases hs : s.sched with
  | nil => simp only [hs] at h; exact .inl ⟨rfl, h⟩
  | cons u us => simp only [hs] at h; exact .inr ⟨u, us, rfl, h⟩

end Sys2Proof.Machine
end

