-- ==== Sys2Proof/Tests/Slice0.lean ====
section
/-! SUPPORT. Small tests, each of one step or one decoding, with the expected result taken from the spec's examples and test
vectors (named beside each), and a witness for the hypotheses of every statement. -/

namespace Sys2Proof.Tests

open Sys2Proof Sys2Proof.Machine

/-- Whether a result is a next state of which something holds. -/
def nextAnd (r : Result State) (p : State → Bool) : Bool :=
  match r with
  | .next t => p t
  | .fault _ => false
  | .refused _ => false

/-- Whether a result is a refusal, and which. -/
def refusedAs (r : Result State) (q : Refusal) : Bool :=
  match r with
  | .next _ => false
  | .fault _ => false
  | .refused q' => q' == q

/-- A block over a line at 0x1000 and an output at 0x2000, idle. -/
def blockOver (len width : Nat) : Block :=
  { Block.atReset 0xFFFFFFE0#32 with
    inBase := 0x1000#32, inLen := BitVec.ofNat 32 len, outHi := 0x800#30, width := BitVec.ofNat 32 width }

/-- The machine with a block over the bytes of a line. -/
def lineOver (line : List Byte) (width : Nat) (f : Block → Block) : State :=
  { State.reset with blk := f (blockOver line.length width), mem := Memory.writeBytes [] 0x1000 line }

/-- In FIRST, ZFILL done. -/
def inFirst (b : Block) : Block := { b.start with phase := .first, zi := b.width }
/-- In BCTRL of the first block. -/
def inBctrl (b : Block) : Block := { b.start with phase := .bctrl, zi := b.width, idx := 1#32 }
/-- In BPACK of the first block. -/
def inBpack (n0 n1 : BitVec 4) (h : BitVec 1) (b : Block) : Block :=
  { b.start with phase := .bpack, zi := b.width, idx := 1#32, nbit0 := n0, nbit1 := n1, half := h }
/-- In BRES of the first block, with every offset `o`. -/
def inBres (o : BitVec 16) (slot : BitVec 4) (acc : Word) (b : Block) : Block :=
  { b.start with
    phase := .bres, zi := b.width, slot := slot, acc := acc, ofs := Vector.replicate 16 o
    idx := 1#32 + slot.setWidth 32 }
/-- In REM of a line with no block, at slot 1. -/
def inRem (acc : Word) (b : Block) : Block := { b.start with phase := .rem, zi := b.width, idx := 1#32, acc := acc }

/-! ### Well-formedness: an ill-formed term for each check (R63, R67, R75) -/

theorem test_wellFormed_refuses :
    (Instr.pixB 0xFE#8).wellFormed = false ∧ (Instr.dltB 0xFF#8).wellFormed = false
      ∧ (Instr.half 1#4 0x100#120).wellFormed = false ∧ (Instr.half 0#4 1#120).wellFormed = false
      ∧ (Instr.hostStart 0xFFFFFFFE#32).wellFormed = false ∧ (Instr.hostCtrl0 1#32).wellFormed = false := by decide

theorem test_wellFormed_accepts :
    (Instr.pixB 0xFD#8).wellFormed = true ∧ (Instr.dltB 0x00#8).wellFormed = true
      ∧ (Instr.half 1#4 0xFF#120).wellFormed = true ∧ (Instr.hostStart 1#32).wellFormed = true
      ∧ (Instr.hostCtrl0 0xFFFFFFFE#32).wellFormed = true := by decide

/-! ### Decoding: words written out from the formats, one for every constructor -/

/-- V10: little-endian assembly, 0x12345678. -/
theorem test_decode_pixS32 :
    decode .first [0xFF#8, 0x78#8, 0x56#8, 0x34#8, 0x12#8] = .ok (.pixS32 0x12345678#32, []) := by rfl
/-- P1: FE E8 03 is PIX.S16 1000. -/
theorem test_decode_pixS16 : decode .first [0xFE#8, 0xE8#8, 0x03#8] = .ok (.pixS16 1000#16, []) := by rfl
/-- V3: 0xFD is the last one-byte form; V11: bytes after it are left. -/
theorem test_decode_pixB : decode .first [0xFD#8, 0x99#8] = .ok (.pixB 0xFD#8, [0x99#8]) := by rfl
/-- V13: control byte 38 is NBIT0 = 8, NBIT1 = 3. -/
theorem test_decode_blk : decode .bctrl [0x38#8] = .ok (.blk 8#4 3#4, []) := by rfl
/-- V22: run 23 1E D5 of width 3 is PACK = 0xD51E23. -/
theorem test_decode_half : decode (.bpack 3#4) [0x23#8, 0x1E#8, 0xD5#8] = .ok (.half 3#4 0xD51E23#120, []) := by rfl
/-- V19: a run of width 0 is no byte. -/
theorem test_decode_half_zero : decode (.bpack 0#4) [] = .ok (.half 0#4 0#120, []) := by rfl
/-- P1: LIT32 100000 is A0 86 01 00; R70: offset 128 escapes long. -/
theorem test_decode_slotEsc32 :
    decode (.bres 128#16) [0xA0#8, 0x86#8, 0x01#8, 0x00#8] = .ok (.slotEsc32 100000#32, []) := by rfl
/-- P1: LIT16 -5000 is 78 EC; R70: offset 127 escapes short. -/
theorem test_decode_slotEsc16 : decode (.bres 127#16) [0x78#8, 0xEC#8] = .ok (.slotEsc16 0xEC78#16, []) := by rfl
/-- R70: offset 126 reads no byte. -/
theorem test_decode_slotField : decode (.bres 126#16) [0x78#8] = .ok (.slotField, [0x78#8]) := by rfl
/-- P2: FF 60 79 FE FF is DLT.S32 -100000. -/
theorem test_decode_dltS32 :
    decode .rem [0xFF#8, 0x60#8, 0x79#8, 0xFE#8, 0xFF#8] = .ok (.dltS32 0xFFFE7960#32, []) := by rfl
/-- P2: FE E8 03 is DLT.S16 1000. -/
theorem test_decode_dltS16 : decode .rem [0xFE#8, 0xE8#8, 0x03#8] = .ok (.dltS16 1000#16, []) := by rfl
/-- P2: 84 is DLT.B 5. -/
theorem test_decode_dltB : decode .rem [0x84#8] = .ok (.dltB 0x84#8, []) := by rfl
/-- R75, R76: key 8 with data[0] = 1. -/
theorem test_decode_hostStart :
    decode .host [0x08#8, 0x01#8, 0x00#8, 0x00#8, 0x00#8] = .ok (.hostStart 1#32, []) := by rfl
/-- H5: a write of 0xFFFFFFFE to CTRL. -/
theorem test_decode_hostCtrl0 :
    decode .host [0x08#8, 0xFE#8, 0xFF#8, 0xFF#8, 0xFF#8] = .ok (.hostCtrl0 0xFFFFFFFE#32, []) := by rfl
/-- R130, R76: the other write keys, 9 to F. -/
theorem test_decode_hostWrites :
    decode .host [0x09#8, 0x04#8, 0x03#8, 0x02#8, 0x01#8] = .ok (.hostWrStatus 0x01020304#32, [])
      ∧ decode .host [0x0A#8, 0x04#8, 0x03#8, 0x02#8, 0x01#8] = .ok (.hostWrInBase 0x01020304#32, [])
      ∧ decode .host [0x0B#8, 0x04#8, 0x03#8, 0x02#8, 0x01#8] = .ok (.hostWrInLen 0x01020304#32, [])
      ∧ decode .host [0x0C#8, 0x04#8, 0x03#8, 0x02#8, 0x01#8] = .ok (.hostWrOutBase 0x01020304#32, [])
      ∧ decode .host [0x0D#8, 0x04#8, 0x03#8, 0x02#8, 0x01#8] = .ok (.hostWrWidth 0x01020304#32, [])
      ∧ decode .host [0x0E#8, 0x04#8, 0x03#8, 0x02#8, 0x01#8] = .ok (.hostWrProduced 0x01020304#32, [])
      ∧ decode .host [0x0F#8, 0x04#8, 0x03#8, 0x02#8, 0x01#8] = .ok (.hostWrConsumed 0x01020304#32, []) :=
  ⟨rfl, rfl, rfl, rfl, rfl, rfl, rfl⟩
/-- R131: keys 0 to 7 read the register at offset 4 times the key. -/
theorem test_decode_hostRd :
    decode .host [0x00#8] = .ok (.hostRd .ctrl, []) ∧ decode .host [0x04#8] = .ok (.hostRd .outBase, [])
      ∧ decode .host [0x07#8] = .ok (.hostRd .consumed, []) := ⟨rfl, rfl, rfl⟩
/-- R138: narrow, misaligned and out-of-window accesses are rejected by name. -/
theorem test_access_rejected :
    accessBytes 0x4000#32 ⟨false, 0x4004#32, 2, 0#32⟩ = .error .accessWidth
      ∧ accessBytes 0x4000#32 ⟨false, 0x4002#32, 4, 0#32⟩ = .error .accessMisaligned
      ∧ accessBytes 0x4000#32 ⟨false, 0x4020#32, 4, 0#32⟩ = .error .outsideWindow
      ∧ accessBytes 0x4000#32 ⟨false, 0x3FFC#32, 4, 0#32⟩ = .error .outsideWindow
      ∧ accessBytes 0x4000#32 ⟨false, 0x401C#32, 4, 0#32⟩ = .ok [0x07#8]
      ∧ accessBytes 0xFFFFFFF0#32 ⟨false, 0#32, 4, 0#32⟩ = .error .outsideWindow
      ∧ accessBytes 0xFFFFFFF0#32 ⟨false, 0xFFFFFFFC#32, 4, 0#32⟩ = .ok [0x03#8] := ⟨rfl, rfl, rfl, rfl, rfl, rfl, rfl⟩
/-- The words the host asks for: access keys and lead bytes (log entry 11). -/
theorem test_table_words :
    decodeTableWord 8 0xFF = some (.pixS32 0#32) ∧ decodeTableWord 8 0xFE = some (.pixS16 0#16)
      ∧ decodeTableWord 8 0x8 = some (.hostCtrl0 0#32) ∧ decodeTableWord 16 0x108 = some (.hostStart 1#32)
      ∧ decodeTableWord 8 0xD = some (.hostWrWidth 0#32) ∧ decodeTableWord 8 0x1 = some (.hostRd .status) := by decide

/-! ### First pixel -/

/-- V1 and V3 through V6: the values of the forms (R63). -/
theorem test_single_values :
    biased 0x00#8 = BitVec.ofInt 32 (-127) ∧ biased 0xFD#8 = 126#32 ∧ literal16 0x8000#16 = BitVec.ofInt 32 (-32768)
      ∧ literal16 0xFFFF#16 = BitVec.ofInt 32 (-1) := by decide
/-- V3: the step at 0xFD stores 126 in slot 0 and ends the line of one slot. -/
theorem test_step_pixB :
    nextAnd (step (lineOver [0xFD#8] 1 inFirst)) (fun t => Memory.readWord t.mem 0x2000 == some 126#32
      && t.blk.cur == 1#32 && t.blk.idx == 1#32 && t.blk.phase == .idle && t.blk.done && !t.blk.trunc) = true := by decide
/-- V4: FE 00 80 stores -32768. -/
theorem test_step_pixS16 :
    nextAnd (step (lineOver [0xFE#8, 0x00#8, 0x80#8] 1 inFirst)) (fun t =>
      Memory.readWord t.mem 0x2000 == some 0xFFFF8000#32 && t.blk.cur == 3#32) = true := by decide
/-- P4, line A: FF FF FF FF 7F stores 2147483647 and REM follows for WIDTH 2. -/
theorem test_step_pixS32 :
    nextAnd (step (lineOver [0xFF#8, 0xFF#8, 0xFF#8, 0xFF#8, 0x7F#8, 0x80#8] 2 inFirst)) (fun t =>
      Memory.readWord t.mem 0x2000 == some 0x7FFFFFFF#32 && t.blk.cur == 5#32 && t.blk.phase == .rem) = true := by decide
/-- T3: FE 10 ends with the lead byte consumed, nothing produced, TRUNC set. -/
theorem test_step_cut_literal :
    nextAnd (step (lineOver [0xFE#8, 0x10#8] 1 inFirst)) (fun t => t.blk.cur == 1#32 && t.blk.idx == 0#32
      && t.blk.statusWord == 6#32) = true := by decide

/-! ### Blocks -/

/-- V13: the step at 38 sets the widths and goes to BPACK. -/
theorem test_step_blk :
    nextAnd (step (lineOver [0x38#8] 17 inBctrl)) (fun t => t.blk.nbit0 == 8#4 && t.blk.nbit1 == 3#4
      && t.blk.half == 0#1 && t.blk.phase == .bpack && t.blk.cur == 1#32) = true := by decide
/-- V22: the offsets 0, 1, -3, 4, -2, -1, 2, 3 in the second half, and BRES at slot 0 next. -/
theorem test_step_half :
    nextAnd (step (lineOver [0x23#8, 0x1E#8, 0xD5#8] 17 (inBpack 8#4 3#4 1#1))) (fun t =>
      t.blk.ofs.toList.map BitVec.toInt == [0, 0, 0, 0, 0, 0, 0, 0, 0, 1, -3, 4, -2, -1, 2, 3]
        && t.blk.pack == 0xD51E23#120 && t.blk.phase == .bres && t.blk.slot == 0#4) = true := by decide
/-- V26: width 15, fields that span three bytes. -/
theorem test_offsets_width15 :
    ((List.range 8).map fun f => (provisional (BitVec.ofNat 120 (leValue [0x00#8, 0x80#8, 0xFF#8, 0xFF#8, 0xFF#8, 0x0F#8,
      0x00#8, 0xD8#8, 0x07#8, 0xF4#8, 0x03#8, 0xFE#8, 0x01#8, 0x03#8, 0x00#8])) 15 f).toInt)
      = [-16383, 16384, 0, 1, 126, 127, 128, -16382] := by decide
/-- R114's example: ACC = 10 and o = -3 give 7, and slot 15 ends the block (WIDTH 17: the operation). -/
theorem test_step_slotField :
    nextAnd (step (lineOver [] 17 (inBres 0xFFFD#16 15#4 10#32))) (fun t => t.blk.acc == 7#32
      && Memory.readWord t.mem 0x2040 == some 7#32 && t.blk.blkcnt == 1#28 && t.blk.phase == .idle) = true := by decide
/-- R115's example: ACC = 100 and the literal 00 80 give -32668. -/
theorem test_step_slotEsc16 :
    nextAnd (step (lineOver [0x00#8, 0x80#8] 17 (inBres 127#16 0#4 100#32))) (fun t =>
      t.blk.acc == BitVec.ofInt 32 (-32668) && t.blk.cur == 2#32 && t.blk.slot == 1#4 && t.blk.phase == .bres)
      = true := by decide
/-- R116's example: ACC = 1 and the literal FF FF FF 7F wrap to -2147483648. -/
theorem test_step_slotEsc32 :
    nextAnd (step (lineOver [0xFF#8, 0xFF#8, 0xFF#8, 0x7F#8] 17 (inBres 128#16 3#4 1#32))) (fun t =>
      t.blk.acc == 0x80000000#32 && t.blk.cur == 4#32 && t.blk.idx == 5#32) = true := by decide
/-- T9: two bytes left of a four-byte literal end the operation at the slot. -/
theorem test_step_cut_escape :
    nextAnd (step (lineOver [0xA0#8, 0x86#8] 17 (inBres 128#16 4#4 1#32))) (fun t =>
      t.blk.cur == 0#32 && t.blk.idx == 5#32 && t.blk.statusWord == 6#32) = true := by decide

/-! ### Remainder -/

/-- R124's example: ACC = 5, b = 80 give 6. -/
theorem test_step_dltB :
    nextAnd (step (lineOver [0x80#8] 2 (inRem 5#32))) (fun t => Memory.readWord t.mem 0x2004 == some 6#32
      && t.blk.idx == 2#32 && t.blk.statusWord == 2#32) = true := by decide
/-- R125's example: ACC = 16, FE 00 01 give 272. -/
theorem test_step_dltS16 :
    nextAnd (step (lineOver [0xFE#8, 0x00#8, 0x01#8] 3 (inRem 16#32))) (fun t => t.blk.acc == 272#32
      && t.blk.cur == 3#32 && t.blk.phase == .rem) = true := by decide
/-- V36: the minimum plus -1 wraps to the maximum. -/
theorem test_step_dltS32 :
    nextAnd (step (lineOver [0xFF#8, 0xFF#8, 0xFF#8, 0xFF#8, 0xFF#8] 2 (inRem 0x80000000#32))) (fun t =>
      t.blk.acc == 0x7FFFFFFF#32 && t.blk.cur == 5#32) = true := by decide

/-! ### Sequencer, host and reset -/

/-- R82's example: the third ZFILL step of WIDTH 3 zeroes the word at OUT_BASE + 8 and goes to FIRST. -/
theorem test_step_zfill :
    nextAnd (step (lineOver [] 3 fun b => { b.start with zi := 2#32 })) (fun t => Memory.readWord t.mem 0x2008 == some 0#32
      && t.blk.zi == 3#32 && t.blk.phase == .first) = true := by decide
/-- V44: WIDTH = 0 ends in one step with DONE only, and no memory access. -/
theorem test_step_zfill_width0 :
    nextAnd (step (lineOver [0x7F#8] 0 Block.start)) (fun t => t.blk.statusWord == 2#32 && t.blk.cur == 0#32
      && t.mem == [(0x1000, 0x7F#8)]) = true := by decide
/-- H2: 0x00001003 written to OUT_BASE reads back 0x00001000. -/
theorem test_outBase :
    nextAnd (exec (.hostWrOutBase 0x1003#32) State.reset) (fun t => t.blk.readReg .outBase == 0x1000#32) = true := by decide
/-- H6: START makes BUSY read 1 at once. -/
theorem test_start :
    nextAnd (exec (.hostStart 1#32) (lineOver [0x7F#8] 1 id)) (fun t => t.blk.statusWord == 1#32) = true := by decide
/-- H7: a WIDTH write while busy is ignored. -/
theorem test_busy_write :
    nextAnd (exec (.hostWrWidth 9#32) (lineOver [0x7F#8] 1 Block.start)) (fun t => t.blk.width == 1#32) = true := by decide
/-- H1: a read of STATUS after reset returns 0 on the host port. -/
theorem test_read_status :
    nextAnd (step { State.reset with rdata := 5#32, sched := [.access 0xFFFFFFE0#32 ⟨false, 0xFFFFFFE4#32, 4, 0#32⟩] })
      (fun t => t.rdata == 0#32 && t.sched == []) = true := by decide
/-- R60 item 3: START over overlapping regions is refused. -/
theorem test_start_overlap :
    refusedAs (exec (.hostStart 1#32) (lineOver [0x7F#8] 1 fun b => { b with outHi := 0x400#30 })) .regionsOverlap = true := by
  decide
/-- R60 item 5, R141 item 1: another agent's write into a busy block's input is refused, one beside it lands, and a read of
its input is refused while busy and answered in IDLE. -/
theorem test_agent_write :
    refusedAs (step { lineOver [0x7F#8] 1 inFirst with sched := [.memWrite 0x1000#32 [0#8]] }) .regionInUse = true
      ∧ nextAnd (step { lineOver [0x7F#8] 1 inFirst with sched := [.memWrite 0x1001#32 [9#8]] }) (fun t =>
        Memory.read t.mem 0x1001 == some 9#8) = true
      ∧ refusedAs (step { lineOver [0x7F#8] 1 inFirst with sched := [.memRead 0x1000#32 1] }) .regionInUse = true
      ∧ nextAnd (step { lineOver [0x7F#8] 1 id with sched := [.memRead 0x1000#32 1] }) (fun t => t.hostBytes == [0x7F#8])
        = true := by decide
/-- R162: reset while busy abandons the operation; the input region stays. -/
theorem test_reset_busy :
    nextAnd (step { lineOver [0x7F#8] 1 inFirst with sched := [.reset 0xFFFFFFE0#32] }) (fun t =>
      t.blk.phase == .idle && t.blk.width == 0#32 && Memory.read t.mem 0x1000 == some 0x7F#8 && t.draws == 1)
      = true := by decide
/-- The host's placed words run as the first instruction after reset: a register write, and a first pixel. -/
theorem test_placed_words :
    nextAnd (step (State.reset.withFetchWord 8 0x1)) (fun t => t.rdata == 0#32 && t.sched == []) = true
      ∧ nextAnd (step (State.reset.withFetchWord 24 0x00110D)) (fun t => t.blk.width == 0x11#32) = true
      ∧ nextAnd (step (State.reset.withFetchWord 8 0xFF)) (fun t => t.blk.idx == 1#32 && t.blk.cur == 5#32) = true := by
  decide

/-! ### Witnesses: for every statement with hypotheses, a state and operands that meet all of them -/

/-- A next state is answered when a check on it passes. -/
theorem next_of_nextAnd (r : Result State) (p : State → Bool) (h : nextAnd r p = true) : ∃ t, r = .next t ∧ p t = true := by
  cases r with
  | next t => exact ⟨t, rfl, h⟩
  | fault _ => cases h
  | refused _ => cases h

/-- A line of one slot, the whole address space below 2^32 used: input at 0, output in the last word. -/
def atEdges (f : Block → Block) : State :=
  { State.reset with
    blk := f { Block.atReset 0x8000#32 with inBase := 0#32, inLen := 5#32, outHi := 0x3FFFFFFF#30, width := 1#32 }
    mem := Memory.writeBytes [] 0 [0xFF#8, 1#8, 2#8, 3#8, 4#8] }

/-- A line over a zeroed output. -/
def zeroed (line : List Byte) (width : Nat) (f : Block → Block) : State :=
  { lineOver line width f with mem := Memory.writeWord (Memory.writeBytes [] 0x1000 line) 0x2000 0#32 }

theorem test_witness_DecodeReadsBackEncode :
    ∀ p ∈ [(Ctx.first, Instr.pixB 0xFD#8), (.first, .pixS16 0x8000#16), (.first, .pixS32 0xFFFFFFFF#32), (.bctrl, .blk 15#4 0#4),
      (.bpack 0#4, .half 0#4 0#120), (.bpack 15#4, .half 15#4 (BitVec.allOnes 120)), (.bres 126#16, .slotField),
      (.bres 127#16, .slotEsc16 0x7FFF#16), (.bres 128#16, .slotEsc32 1#32), (.rem, .dltB 0#8), (.rem, .dltS16 1#16),
      (.rem, .dltS32 1#32), (.host, .hostStart 1#32), (.host, .hostCtrl0 0xFFFFFFFE#32), (.host, .hostRd .consumed)],
      p.2.wellFormed = true ∧ p.2.fits p.1 = true := by decide
theorem test_witness_EncodeRestoresDecodedBytes :
    decode (.bpack 15#4) (List.replicate 16 0xFF#8) = .ok (.half 15#4 (BitVec.allOnes 120), [0xFF#8]) := by rfl
theorem test_witness_DecoderFollowsOpcodeTable :
    decode .first [0xFE#8, 0#8, 0#8] = .ok (.pixS16 0#16, []) ∧ decode .host [0x0F#8, 0#8, 0#8, 0#8, 0#8] = .ok (.hostWrConsumed 0#32, []) :=
  ⟨rfl, rfl⟩
theorem test_witness_StreamDecodesWheneverLongEnough :
    Ctx.rem ≠ .host ∧ Ctx.rem.leadLen + Ctx.rem.tailLen [0xFF#8, 0#8, 0#8, 0#8, 0#8] = 5
      ∧ decode .rem [0xFF#8, 0#8, 0#8, 0#8] = .error .literalCut := ⟨by decide, rfl, rfl⟩
theorem test_witness_FieldBitsComeFromRunBytes : (List.replicate 15 (0xA5#8 : Byte)).length ≤ 15 ∧ 7 < 8 ∧ 14 < 15 := by decide
theorem test_witness_ProvisionalOffsetsAreExact : 15 ≤ 15 ∧ (provisional (BitVec.allOnes 120) 15 7).toInt = 16384 := by decide
theorem test_witness_EscapesExactlyAtSentinelRawValues :
    7 ≤ 15 ∧ 8 ≤ 15 ∧ rawField 254#120 8 0 = 254 ∧ literalClass (provisional 254#120 8 0) = .esc16
      ∧ literalClass (provisional 255#120 8 0) = .esc32 ∧ literalClass (provisional 127#120 7 0) = .field := by decide
theorem test_witness_CanonicalMemoriesThatReadAlikeAreEqual :
    Memory.wf [(0, 1#8), (0xFFFFFFFF, 2#8)] = true
      ∧ Memory.writeBytes (Memory.writeBytes [] 0xFFFFFFFF [2#8]) 0 [1#8] = [(0, 1#8), (0xFFFFFFFF, 2#8)] := by decide
theorem test_witness_AgentWriteLands :
    let s := { lineOver [0x7F#8] 1 inFirst with sched := [.memWrite 0x1001#32 [9#8]] }
    s.sched = .memWrite 0x1001#32 [9#8] :: [] ∧ 0x1001 + 1 ≤ Config.addrSpace ∧ s.regionBusy 0x1001 1 = false
      ∧ s.unbackedIn 0x1001 1 = false := ⟨rfl, by decide, by decide, by decide⟩
theorem test_witness_BusyRegionsAreOutOfBounds :
    let s := lineOver [0x7F#8] 1 inFirst
    s.blk ∈ s.blocks ∧ s.blk.busy = true ∧ 0x1000 + 1 ≤ Config.addrSpace
      ∧ SharesByte 0x1000 1 s.blk.inBase.toNat s.blk.inLen.toNat
      ∧ SharesByte 0x2003 1 s.blk.outBase.toNat (4 * s.blk.width.toNat) :=
  ⟨List.mem_cons_self, by decide, by decide, ⟨0x1000, by decide⟩, ⟨0x2003, by decide⟩⟩
theorem test_witness_StepRunsTokenAtCursor :
    let s := atEdges inFirst
    let bs : List Byte := [0xFF#8, 1#8, 2#8, 3#8, 4#8]
    s.blk.ctx = some .first ∧ s.Line bs ∧ decode .first bs = .ok (.pixS32 0x04030201#32, []) ∧ s.sched = []
      ∧ ({ s with sched := [.block 0x8000#32] }).sched = .block s.blk.regBase :: [] :=
  ⟨rfl, ⟨by decide, rfl⟩, rfl, rfl, rfl⟩
theorem test_witness_StepRunsHostAccess :
    let a : HostAccess := ⟨true, 0x801C#32, 4, 1#32⟩
    let s := { atEdges id with sched := [.access 0x8000#32 a] }
    s.sched = .access 0x8000#32 a :: [] ∧ ({ s with sched := [] }).select 0x8000#32 = some (atEdges id)
      ∧ decodeAccess 0x8000#32 a = .ok (.hostWrConsumed 1#32, []) := ⟨rfl, rfl, rfl⟩
theorem test_witness_AccessesDecodeByTheirOffset :
    (0xFFFFFFE0#32).toNat % 4 = 0 ∧ (0xFFFFFFE0#32).toNat + (0x1C#32).toNat < Config.addrSpace
      ∧ (0xFFFFFFFC#32).toNat % 4 = 0 ∧ (0xFFFFFFFC#32).toNat + (0#32).toNat < Config.addrSpace ∧ (1#32).getLsbD 0 = true ∧ (0xFFFFFFFE#32).getLsbD 0 = false := by decide
theorem test_witness_IdleBlockTakesNoStep :
    State.reset.blk.phase = .idle ∧ State.reset.sched = []
      ∧ ({ State.reset with sched := [.block 0xFFFFFFE0#32] }).sched = .block State.reset.blk.regBase :: [] := ⟨rfl, rfl, rfl⟩
theorem test_witness_CutTokenEndsTheOperation :
    let s := lineOver [0xFF#8, 1#8, 2#8, 3#8] 1 inFirst
    s.sched = [] ∧ s.blk.ctx = some .first ∧ s.Line [0xFF#8, 1#8, 2#8, 3#8] ∧ s.blk.cur.toNat + 4 = s.blk.inLen.toNat
      ∧ decode .first [0xFF#8, 1#8, 2#8, 3#8] = .error .literalCut := ⟨rfl, rfl, ⟨by decide, rfl⟩, by decide, rfl⟩
theorem test_witness_BadAccessesAreRefused :
    let s (a : HostAccess) : State := { atEdges id with sched := [.access 0x8000#32 a] }
    (s ⟨false, 0x8000#32, 2, 0#32⟩).sched = .access (atEdges id).blk.regBase ⟨false, 0x8000#32, 2, 0#32⟩ :: [] ∧ 2 ≠ 4
      ∧ (0x8001#32).toNat % 4 ≠ 0 ∧ (0x7FFC#32).toNat < (atEdges id).blk.regBase.toNat
      ∧ (atEdges id).blk.regBase.toNat + 32 ≤ (0x8020#32).toNat := ⟨rfl, by decide, by decide, by decide, by decide⟩
theorem test_witness_LineGeometry :
    1 ≤ (1#32).toNat ∧ nblock 1#32 = 0 ∧ nblock 16#32 = 0 ∧ nblock 17#32 = 1 ∧ 0 < nblock 17#32
      ∧ 1 ≤ (BitVec.allOnes 32).toNat := by decide
theorem test_witness_ZfillZeroesSlotsInOrder :
    let s (w : Nat) := lineOver [] w Block.start
    (s 0).sched = [] ∧ (s 0).blk.phase = .zfill ∧ (s 0).blk.width = 0#32 ∧ (s 1).blk.phase = .zfill ∧ (s 1).blk.width ≠ 0#32
      ∧ (s 1).slotOk (s 1).blk.zi.toNat = true := ⟨rfl, rfl, rfl, rfl, by decide, by decide⟩
theorem test_witness_NextPhaseFollowsGeometry :
    let b (idx cnt w : Nat) : Block :=
      { Block.atReset 0#32 with idx := BitVec.ofNat 32 idx, blkcnt := BitVec.ofNat 28 cnt, width := BitVec.ofNat 32 w }
    (b 17 1 17).idx = (b 17 1 17).width
      ∧ ((b 1 0 17).idx ≠ (b 1 0 17).width ∧ (b 1 0 17).blkcnt.toNat < ((b 1 0 17).width.toNat - 1) / 16)
      ∧ ((b 17 1 18).idx ≠ (b 17 1 18).width ∧ ¬(b 17 1 18).blkcnt.toNat < ((b 17 1 18).width.toNat - 1) / 16) := by decide
theorem test_witness_PhasesFollowTheirOrder :
    let s := lineOver [] 0 Block.start
    s.consistent = true ∧ s.sched = [] ∧ s.blk.phase = .zfill ∧ ∃ t, step s = .next t ∧ (t.blk.phase == .idle) = true :=
  ⟨by decide, rfl, rfl, next_of_nextAnd _ (fun t => t.blk.phase == .idle) (by decide)⟩
theorem test_witness_CursorAndIndexOnlyAdvance :
    let s := atEdges inFirst
    s.consistent = true ∧ s.blk.busy = true ∧ s.sched = [] ∧ ∃ t, step s = .next t ∧ (t.blk.cur == 5#32) = true :=
  ⟨by decide, by decide, rfl, next_of_nextAnd _ (fun t => t.blk.cur == 5#32) (by decide)⟩
theorem test_witness_EveryStepLowersTheStepBound :
    let s := lineOver [] 17 (inBres 0#16 14#4 0#32)
    s.consistent = true ∧ s.blk.busy = true ∧ s.sched = [] ∧ ∃ t, step s = .next t ∧ t.blk.busy = true :=
  ⟨by decide, by decide, rfl, next_of_nextAnd _ (fun t => t.blk.busy) (by decide)⟩
theorem test_witness_RunningBlockAlwaysSteps :
    let s := lineOver [0x7F#8] 1 inFirst
    s.consistent = true ∧ s.blk.busy = true ∧ s.sched = [] ∧ (∀ i, i < s.blk.width.toNat → s.slotOk i = true)
      ∧ ∀ k, k < s.blk.inLen.toNat → ∃ v, s.readByte (s.blk.inAddr k) = .next v := by
  refine ⟨by decide, by decide, rfl, by decide, fun k hk => ⟨0x7F#8, ?_⟩⟩
  have : k = 0 := Nat.lt_one_iff.mp hk
  subst this
  rfl
theorem test_witness_BlockWritesOnlyItsOutputRegion :
    let s := lineOver [0x7F#8] 1 inFirst
    s.consistent = true ∧ s.sched = [] ∧ ∃ t, step s = .next t ∧ (Memory.readWord t.mem 0x2000 == some 0#32) = true :=
  ⟨by decide, rfl, next_of_nextAnd _ (fun t => Memory.readWord t.mem 0x2000 == some 0#32) (by decide)⟩
theorem test_witness_BlockReadsOnlyItsInput :
    let s := lineOver [0x7F#8, 0x80#8] 2 (fun b => { inRem 5#32 b with cur := 1#32 })
    let s' := { s with mem := Memory.writeBytes s.mem 0x1000 [0xAA#8], rdata := 7#32 }
    s.sched = [] ∧ s'.sched = [] ∧ s'.blk = s.blk ∧ s'.others = s.others ∧ s'.holes = s.holes ∧ s'.mem ≠ s.mem
      ∧ (∀ k, s.blk.cur.toNat ≤ k → k < s.blk.inLen.toNat →
        Memory.read s'.mem (s.blk.inAddr k) = Memory.read s.mem (s.blk.inAddr k))
      ∧ ∃ t, step s = .next t ∧ (t.blk.acc == 6#32) = true := by
  refine ⟨rfl, rfl, rfl, rfl, rfl, by decide, fun k h1 h2 => ?_, next_of_nextAnd _ (fun t => t.blk.acc == 6#32) (by decide)⟩
  have : k = 1 := Nat.le_antisymm (Nat.lt_succ_iff.mp h2) h1
  subst this
  rfl
theorem test_witness_PhaseStepsPerformDecode :
    let s := atEdges Block.start
    let line : List Byte := [0xFF#8, 1#8, 2#8, 3#8, 4#8]
    s.sched = [] ∧ s.blk = s.blk.start ∧ s.blk.placed = true ∧ s.HoldsLine line
      ∧ ∀ i, i < s.blk.width.toNat → s.slotOk i = true := ⟨rfl, rfl, by decide, ⟨rfl, rfl⟩, by decide⟩
theorem test_witness_PixBStoresBiasedByte :
    (0xFD#8).toNat < 254 ∧ (lineOver [0xFD#8] 1 inFirst).blk.phase = .first ∧ (lineOver [0xFD#8] 1 inFirst).blk.need 1 = true
      ∧ (lineOver [0xFD#8] 1 inFirst).slotOk 0 = true := by decide
theorem test_witness_PixS16StoresSignedLiteral :
    (lineOver [0xFE#8, 0#8, 0x80#8] 1 inFirst).blk.phase = .first ∧ (lineOver [0xFE#8, 0#8, 0x80#8] 1 inFirst).blk.need 3 = true
      ∧ (lineOver [0xFE#8, 0#8, 0x80#8] 1 inFirst).slotOk 0 = true := by decide
theorem test_witness_PixS32StoresLiteral :
    (atEdges inFirst).blk.phase = .first ∧ (atEdges inFirst).blk.need 5 = true ∧ (atEdges inFirst).slotOk 0 = true := by decide
theorem test_witness_CutLiteralKeepsOnlyLeadByte :
    let f (line : List Byte) := (lineOver line 1 inFirst).blk
    let r (line : List Byte) := (lineOver line 2 (inRem 0#32)).blk
    (f []).phase = .first ∧ (f []).need 1 = false ∧ (f [0xFE#8, 1#8]).need 1 = true ∧ (f [0xFE#8, 1#8]).need 3 = false
      ∧ (f [0xFF#8, 1#8, 2#8, 3#8]).need 1 = true ∧ (f [0xFF#8, 1#8, 2#8, 3#8]).need 5 = false
      ∧ (r []).phase = .rem ∧ (r []).need 1 = false ∧ (r [0xFE#8]).need 1 = true ∧ (r [0xFE#8]).need 3 = false
      ∧ (r [0xFF#8]).need 1 = true ∧ (r [0xFF#8]).need 5 = false := by decide
theorem test_witness_BlkSetsBothWidths :
    (lineOver [0x38#8] 17 inBctrl).blk.phase = .bctrl ∧ (lineOver [0x38#8] 17 inBctrl).blk.need 1 = true := by decide
theorem test_witness_HalfUnpacksEightOffsets :
    let b (n0 n1 : BitVec 4) (h : BitVec 1) := (lineOver (List.replicate 15 0xFF#8) 17 (inBpack n0 n1 h)).blk
    (List.replicate 15 (0xFF#8 : Byte)).length = (15#4).toNat ∧ (b 0#4 15#4 0#1).phase = .bpack ∧ (b 0#4 15#4 0#1).nbit = 0#4 ∧ (b 0#4 15#4 0#1).need 0 = true
      ∧ (b 0#4 15#4 1#1).nbit = 15#4 ∧ (b 0#4 15#4 1#1).need 15 = true := by decide
theorem test_witness_SlotFieldAddsItsOffset :
    let s := lineOver [] 17 (inBres 126#16 15#4 0#32)
    s.blk.phase = .bres ∧ s.blk.slotOffset.toInt ≤ 126 ∧ s.slotOk s.blk.idx.toNat = true := by decide
theorem test_witness_SlotEsc16AddsItsLiteral :
    let s := lineOver [0#8, 0x80#8] 17 (inBres 127#16 0#4 0#32)
    s.blk.phase = .bres ∧ s.blk.slotOffset.toInt = 127 ∧ s.blk.need 2 = true ∧ s.slotOk s.blk.idx.toNat = true := by decide
theorem test_witness_SlotEsc32AddsItsLiteral :
    let s := lineOver [0#8, 0#8, 0#8, 0x80#8] 17 (inBres 128#16 15#4 0#32)
    s.blk.phase = .bres ∧ 128 ≤ s.blk.slotOffset.toInt ∧ s.blk.need 4 = true ∧ s.slotOk s.blk.idx.toNat = true := by decide
theorem test_witness_SlotFifteenEndsTheBlock :
    (inBres 0#16 14#4 0#32 (blockOver 0 17)).slot ≠ 15#4 ∧ (inBres 0#16 15#4 0#32 (blockOver 0 17)).slot = 15#4 := by decide
theorem test_witness_CutBlockEndsTheOperation :
    (lineOver [] 17 inBctrl).blk.phase = .bctrl ∧ (lineOver [] 17 inBctrl).blk.need 1 = false
      ∧ (lineOver [1#8] 17 (inBpack 2#4 0#4 0#1)).blk.phase = .bpack ∧ (lineOver [1#8] 17 (inBpack 2#4 0#4 0#1)).blk.need 2 = false
      ∧ (lineOver [1#8] 17 (inBres 127#16 0#4 0#32)).blk.phase = .bres
      ∧ (lineOver [1#8] 17 (inBres 127#16 0#4 0#32)).blk.slotOffset.toInt = 127
      ∧ (lineOver [1#8] 17 (inBres 127#16 0#4 0#32)).blk.need 2 = false
      ∧ 128 ≤ (lineOver [1#8, 2#8, 3#8] 17 (inBres 128#16 0#4 0#32)).blk.slotOffset.toInt
      ∧ (lineOver [1#8, 2#8, 3#8] 17 (inBres 128#16 0#4 0#32)).blk.need 4 = false := by decide
theorem test_witness_DltBAddsBiasedByte :
    let s := lineOver [0#8] 2 (inRem 0x80000000#32)
    (0#8).toNat < 254 ∧ s.blk.phase = .rem ∧ s.blk.need 1 = true ∧ s.slotOk s.blk.idx.toNat = true := by decide
theorem test_witness_DltS16AddsSignedLiteral :
    let s := lineOver [0xFE#8, 0#8, 1#8] 2 (inRem 16#32)
    s.blk.phase = .rem ∧ s.blk.need 3 = true ∧ s.slotOk s.blk.idx.toNat = true := by decide
theorem test_witness_DltS32AddsLiteral :
    let s := lineOver [0xFF#8, 0#8, 0#8, 1#8, 0#8] 2 (inRem 0#32)
    s.blk.phase = .rem ∧ s.blk.need 5 = true ∧ s.slotOk s.blk.idx.toNat = true := by decide
theorem test_witness_StartClearsAndEntersZfill : (atEdges id).blk.phase = .idle ∧ ¬(atEdges id).BreaksDuty := by
  refine ⟨rfl, ?_⟩
  rintro (h | h | ⟨x, h1, h2⟩ | ⟨x, h, hb⟩ | ⟨c, hc, _⟩)
  · exact absurd h (by decide)
  · exact absurd h (by decide)
  · change (0 ≤ x ∧ x < 0 + 5) at h1
    change (0xFFFFFFFC ≤ x ∧ x < 0xFFFFFFFC + 4 * 1) at h2
    omega
  · change (0 ≤ x ∧ x < 0 + 5) ∨ (0xFFFFFFFC ≤ x ∧ x < 0xFFFFFFFC + 4 * 1) at h
    have hw : ¬(0x8000 ≤ x ∧ x < 0x8000 + 32) := by omega
    have : (atEdges id).backed x = (!decide (0x8000 ≤ x ∧ x < 0x8000 + 32) && true) := rfl
    rw [this, decide_eq_false hw] at hb
    exact Bool.noConfusion hb
  · cases hc
theorem test_witness_StartOverBrokenDutyIsRefused :
    let s (f : Block → Block) := lineOver [0x7F#8] 1 f
    (s id).blk.phase = .idle
      ∧ (s fun b => { b with inBase := 0xFFFFFFFF#32, inLen := 2#32 }).BreaksDuty
      ∧ (s fun b => { b with outHi := 0x3FFFFFFF#30, width := 2#32 }).BreaksDuty
      ∧ (s fun b => { b with outHi := 0x400#30 }).BreaksDuty
      ∧ (s fun b => { b with inBase := 0xFFFFFFFF#32 }).BreaksDuty
      ∧ ({ s id with others := [(inFirst (blockOver 1 1))] }).BreaksDuty :=
  ⟨rfl, .inl (by decide), .inr (.inl (by decide)), .inr (.inr (.inl ⟨0x1000, by decide⟩)),
    .inr (.inr (.inr (.inl ⟨0xFFFFFFFF, by decide⟩))),
    .inr (.inr (.inr (.inr ⟨_, List.mem_cons_self, by decide, .inr (.inl ⟨0x2000, by decide⟩)⟩)))⟩
theorem test_witness_BusyIgnoresEveryHostWrite : (lineOver [0x7F#8] 1 Block.start).blk.phase ≠ .idle := by decide
theorem test_witness_ConfigWritesStoreWhenIdle : State.reset.blk.phase = .idle := by decide
theorem test_witness_OutBaseWriteDropsLowBits : (lineOver [0x7F#8] 1 id).blk.phase = .idle := by decide
theorem test_witness_StepChangesAtMostOneBlock :
    let s := { State.reset with others := [Block.atReset 0x8000#32]
                                sched := [.access 0x8000#32 ⟨true, 0x8014#32, 4, 9#32⟩] }
    ∃ t, step s = .next t ∧ (t.blk.width == 9#32 && t.others == [Block.atReset 0xFFFFFFE0#32]) = true :=
  next_of_nextAnd _ (fun t => t.blk.width == 9#32 && t.others == [Block.atReset 0xFFFFFFE0#32]) (by decide)
theorem test_witness_ResetInputClearsTheBlock :
    let s := { lineOver [0x7F#8] 1 inFirst with sched := [.reset 0xFFFFFFE0#32] }
    s.sched = .reset s.blk.regBase :: [] ∧ s.blk.phase ≠ .idle ∧ State.reset.blk.phase = .idle := ⟨rfl, by decide, rfl⟩
theorem test_witness_StepKeepsMemoryCanonical :
    Memory.wf (lineOver [0x7F#8] 1 inFirst).mem = true ∧ ∃ t, step (lineOver [0x7F#8] 1 inFirst) = .next t ∧ t.blk.done = true :=
  ⟨by decide, next_of_nextAnd _ (fun t => t.blk.done) (by decide)⟩
theorem test_witness_StepKeepsRegistersConsistent :
    (lineOver [0x38#8] 17 inBctrl).consistent = true ∧ ∃ t, step (lineOver [0x38#8] 17 inBctrl) = .next t ∧ t.blk.busy = true :=
  ⟨by decide, next_of_nextAnd _ (fun t => t.blk.busy) (by decide)⟩
theorem test_witness_StepKeepsOutputInvariant :
    (zeroed [0x7F#8] 1 inFirst).Inv ∧ ∃ t, step (zeroed [0x7F#8] 1 inFirst) = .next t ∧ t.blk.done = true := by
  refine ⟨⟨by decide, ⟨by decide, by decide⟩, fun b hb => ?_⟩, next_of_nextAnd _ (fun t => t.blk.done) (by decide)⟩
  have : b = (zeroed [0x7F#8] 1 inFirst).blk := List.mem_singleton.mp hb
  subst this
  refine (show (∀ i, 0 ≤ i → i < 1 → Memory.readWord (zeroed [0x7F#8] 1 inFirst).mem (0x2000 + 4 * i) = some 0#32)
    ∧ (1 ≤ 0 → _) from ⟨fun i _ h => ?_, fun h => absurd h (by decide)⟩)
  have : i = 0 := Nat.lt_one_iff.mp h
  subst this
  rfl
/-- A platform of three blocks, N_INST = 3. -/
theorem test_witness_ResetStateIsZero :
    Block.atReset 0x9000#32 ∈ (State.resetOn 0x8000#32 [0x8020#32, 0x9000#32] [⟨0, 16⟩]).blocks := by decide
theorem test_witness_OnlyStartAndResetClearFlags :
    let done (b : Block) : Block := { b with done := true, trunc := true }
    let a : HostAccess := ⟨true, 0x8000#32, 4, 1#32⟩
    let s (u : Turn) : State := { atEdges done with sched := [u] }
    (s (.access 0x8000#32 a)).consistent = true
      ∧ (∃ t, step (s (.access 0x8000#32 a)) = .next t
        ∧ (t.blk.regBase == 0x8000#32 && (s (.access 0x8000#32 a)).blk.done && !t.blk.done && !t.blk.trunc) = true)
      ∧ ∃ t, step (s (.reset 0x8000#32)) = .next t
        ∧ (t.blk.regBase == 0x8000#32 && (s (.reset 0x8000#32)).blk.trunc && !t.blk.trunc && !t.blk.done) = true :=
  ⟨by decide, next_of_nextAnd _ _ (by decide), next_of_nextAnd _ _ (by decide)⟩
theorem test_witness_CursorStaysInsideInputInEveryPhase :
    State.reset.blk.cur.toNat ≤ State.reset.blk.inLen.toNat ∧ ∃ t, step State.reset = .next t ∧ t.blk.done = false :=
  ⟨by decide, State.reset, rfl, rfl⟩

end Sys2Proof.Tests
end

section
/-! PROOFS. The step on a whole token at the cursor (spec/00_scope.md R12, spec/30_encoding.md R62): how long a decoded token
is, what `fetch` answers on a line's bytes, and what the turn of the block does with it. -/

namespace Sys2Proof.Machine

/-! ### The length of a decoded token -/

/-- A single-pixel token takes its lead byte and the literal that the byte asks for (spec/30_encoding.md R64). -/
theorem decodeSingle_length {lit32 : Word → Instr} {lit16 : BitVec 16 → Instr} {short : Byte → Instr} {b : Byte}
    {bs rest : List Byte} {i : Instr} (h : decodeSingle lit32 lit16 short (b :: bs) = .ok (i, rest)) :
    bs.length = leadLiteralLen b + rest.length := by
  simp only [decodeSingle] at h
  split_ifs at h with hcut hlong hshort <;> obtain ⟨-, rfl⟩ := Prod.mk.inj (Except.ok.inj h)
  · simp only [leadLiteralLen, if_pos hlong, List.length_drop] at hcut ⊢
    omega
  · simp only [leadLiteralLen, if_neg hlong, if_pos hshort, List.length_drop] at hcut ⊢
    omega
  · simp [leadLiteralLen, hlong, hshort]

/-- A packed run of width `n` takes `n` bytes (spec/30_encoding.md R67). -/
theorem decodeRun_length {n : BitVec 4} {bs rest : List Byte} {i : Instr} (h : decodeRun n bs = .ok (i, rest)) :
    bs.length = n.toNat + rest.length := by
  simp only [decodeRun] at h
  split_ifs at h with hcut
  obtain ⟨-, rfl⟩ := Prod.mk.inj (Except.ok.inj h)
  simp only [List.length_drop]
  omega

/-- A slot takes the literal of its offset's class (spec/30_encoding.md R70). -/
theorem decodeSlot_length {o : BitVec 16} {bs rest : List Byte} {i : Instr} (h : decodeSlot o bs = .ok (i, rest)) :
    bs.length = (literalClass o).literalLen + rest.length := by
  simp only [decodeSlot] at h
  split_ifs at h with hcut
  cases hk : literalClass o <;> simp only [hk, LitClass.literalLen] at h hcut ⊢ <;>
    obtain ⟨-, rfl⟩ := Prod.mk.inj (Except.ok.inj h)
  case field => omega
  case esc16 | esc32 => simp only [List.length_drop]; omega

/-- In a stream context a decoded token is as long as its two guarded parts (spec/30_encoding.md R72, R88). -/
theorem decode_stream_length {c : Ctx} {bs rest : List Byte} {i : Instr} (hc : c ≠ .host)
    (h : decode c bs = .ok (i, rest)) : bs.length = c.leadLen + c.tailLen bs + rest.length := by
  cases c with
  | first | rem =>
    cases bs with
    | nil => cases h
    | cons b bs =>
      have := decodeSingle_length h
      simp only [List.length_cons, Ctx.leadLen, Ctx.tailLen]
      omega
  | bctrl =>
    cases bs with
    | nil => cases h
    | cons b bs =>
      obtain ⟨-, rfl⟩ := Prod.mk.inj (Except.ok.inj h)
      simp [Ctx.leadLen, Ctx.tailLen, Nat.add_comm]
  | bpack n => exact decodeRun_length h
  | bres o => exact decodeSlot_length h
  | host => exact absurd rfl hc

/-- The length of a token's second part is known from its first part alone (spec/30_encoding.md R64). -/
theorem Ctx.tailLen_append {c : Ctx} {lead : List Byte} (hl : lead.length = c.leadLen) (tail : List Byte) :
    c.tailLen (lead ++ tail) = c.tailLen lead := by
  cases c with
  | first | rem =>
    cases lead with
    | nil => cases hl
    | cons b lead => rfl
  | bctrl | bpack _ | bres _ | host => rfl

/-! ### Fetching -/

/-- The block itself decodes in a stream context only (spec/30_encoding.md R62). -/
theorem Block.ctx_ne_host {b : Block} {c : Ctx} (h : b.ctx = some c) : c ≠ .host := by
  rintro rfl
  cases hp : b.phase <;> simp [Block.ctx, hp] at h

/-- Over a line whose bytes are exactly the two parts of a token, `fetch` answers their decoding. -/
theorem fetch_of_line {c : Ctx} {s : State} {bs : List Byte} (hline : s.Line bs)
    (hlen : bs.length = c.leadLen + c.tailLen bs) : fetch c s = .next (toFetched (decode c bs)) := by
  obtain ⟨hneed, hread⟩ := hline
  rw [hlen] at hneed hread
  obtain ⟨lead, tail, hlead, htail, rfl⟩ := State.readBytes_append_iff.1 hread
  have htl := Ctx.tailLen_append (State.readBytes_length hlead) tail
  rw [htl] at hneed htail
  have hlead' : s.inputBytes 0 c.leadLen = .next lead := hlead
  have htail' : s.inputBytes c.leadLen (c.tailLen lead) = .next tail := by
    simpa [State.inputBytes, Block.inAddr, Nat.add_assoc] using htail
  simp only [fetch, Block.need_le hneed (Nat.le_add_right ..), hlead', htail', hneed, if_true, andThen_next]

/-- The block's step over a whole token at the cursor is the token's meaning (spec/00_scope.md R12). -/
theorem blockStep_of_line {c : Ctx} {s : State} {bs : List Byte} {i : Instr} (hc : s.blk.ctx = some c)
    (hline : s.Line bs) (hd : decode c bs = .ok (i, [])) : blockStep s = exec i s := by
  have hf := fetch_of_line hline (decode_stream_length (Block.ctx_ne_host hc) hd)
  simp only [blockStep, hc, hf, hd, toFetched, andThen_next, runFetched]

/-! ### The schedule -/

/-- What is read from memory does not depend on the turns to come. -/
@[simp] theorem State.readBytes_withSched (s : State) (us : List Turn) (a n : Nat) :
    { s with sched := us }.readBytes a n = s.readBytes a n := by
  induction n generalizing a with
  | zero => rfl
  | succ n ih =>
    simp only [State.readBytes, ih]
    rfl

/-- The line at the cursor does not depend on the turns to come. -/
theorem State.Line.withSched {s : State} {bs : List Byte} (h : s.Line bs) (us : List Turn) :
    { s with sched := us }.Line bs := by
  simpa [State.Line, State.inputBytes] using h

/-- With nothing scheduled the active block steps (log entry 1). -/
theorem step_of_sched_nil {s : State} (h : s.sched = []) : step s = blockStep s := by
  simp only [step, nextTurn, h]

/-- A turn of the active block is its step, with the turn taken off the schedule (log entry 1). -/
theorem step_of_sched_block {s : State} {us : List Turn} (h : s.sched = .block s.blk.regBase :: us) :
    step s = blockStep { s with sched := us } := by
  simp only [step, nextTurn, h, takeTurn, onBlock, State.select, if_true]

/-- Settles O13: the token at the cursor is fetched whole, so the step is its meaning. -/
theorem stepRunsTokenAtCursor : Obligations.StepRunsTokenAtCursor := by
  intro s c bs i hc hline hd
  refine ⟨fun hs => ?_, fun us hs => ?_⟩
  · rw [step_of_sched_nil hs]
    exact blockStep_of_line hc hline hd
  · rw [step_of_sched_block hs]
    exact blockStep_of_line hc (hline.withSched us) hd

end Sys2Proof.Machine
end

section
/-! PROOFS. The reset state of a platform (spec/10_state.md R37). -/

namespace Sys2Proof.Machine

/-- STATUS after reset: no flag is set (spec/10_state.md R18, R37). -/
@[simp] theorem Block.atReset_statusWord (w : Word) : (Block.atReset w).statusWord = 0#32 :=
  show (0#1 ++ 0#1 ++ 0#1).setWidth 32 = 0#32 by decide

/-- OUT_BASE after reset, with its two hardwired bits (spec/10_state.md R21, R37). -/
@[simp] theorem Block.atReset_outBase (w : Word) : (Block.atReset w).outBase = 0#32 :=
  show 0#30 ++ 0#2 = 0#32 by decide

/-- Every host register of a block reads 0 after reset. -/
@[simp] theorem Block.atReset_readReg (w : Word) (r : Reg) : (Block.atReset w).readReg r = 0#32 := by
  cases r with
  | status => exact Block.atReset_statusWord w
  | outBase => exact Block.atReset_outBase w
  | ctrl | inBase | inLen | width | produced | consumed => rfl

/-- Every provisional offset of a block is 0 after reset. -/
theorem Block.atReset_ofs_getElem (w : Word) (j : Fin 16) : (Block.atReset w).ofs[j] = 0#16 :=
  Vector.getElem_replicate j.isLt

/-- A platform has a block at each REG_BASE it was given, each at its reset values (spec/00_scope.md R8). -/
theorem State.resetOn_blocks (w : Word) (ws : List Word) (hs : List Hole) :
    (State.resetOn w ws hs).blocks = (w :: ws).map Block.atReset := rfl

/-- Settles O53: every block of a platform is `Block.atReset` of its REG_BASE. -/
theorem resetStateIsZero : Obligations.ResetStateIsZero := by
  refine ⟨rfl, fun base others holes => ⟨?_, fun b hb => ?_⟩⟩
  · rw [State.resetOn_blocks, List.map_map]
    exact List.map_id _
  · obtain ⟨w, -, rfl⟩ := List.mem_map.1 (State.resetOn_blocks base others holes ▸ hb)
    exact ⟨Block.atReset_readReg w, rfl, rfl, rfl, rfl, rfl, rfl, rfl, rfl, rfl, Block.atReset_ofs_getElem w⟩

end Sys2Proof.Machine
end

section
/-! PROOFS. One step seen from the block whose turn it is: the block changes places with the active one, then one agent acts.
The frames of the agents: what each leaves alone, and which registers the block itself never writes. -/

namespace Sys2Proof.Machine

/-! ### The agents -/

/-- What one agent does to the machine once the block of the turn is the active one. -/
inductive AgentStep (s : State) : State → Prop
  /-- The block's own step. -/
  | block {t : State} (h : blockStep s = .next t) : AgentStep s t
  /-- A register access. -/
  | host {t : State} (h : HostStep s t) : AgentStep s t
  /-- The reset input. -/
  | reset : AgentStep s (resetBlock s)
  /-- A write of another agent, outside every running block's regions. -/
  | memWrite (a : Nat) (data : List Byte) (hfree : s.regionBusy a data.length = false) :
    AgentStep s (s.setMem (Memory.writeBytes s.mem a data))
  /-- A read of another agent. -/
  | memRead (bs : List Byte) : AgentStep s { s with hostBytes := bs }

/-- A turn brings its block to the front, and then its agent acts. -/
theorem takeTurn_agentStep {u : Turn} {s t : State} (h : takeTurn u s = .next t) :
    ∃ s', s'.blocks.Perm s.blocks ∧ s'.mem = s.mem ∧ AgentStep s' t := by
  cases u with
  | block base =>
    obtain ⟨s', hsel, h⟩ := onBlock_next_iff.1 h
    obtain ⟨-, hp, hm, -⟩ := State.select_some hsel
    exact ⟨s', hp, hm, .block h⟩
  | access base a =>
    obtain ⟨s', hsel, h⟩ := onBlock_next_iff.1 h
    obtain ⟨-, hp, hm, -⟩ := State.select_some hsel
    exact ⟨s', hp, hm, .host (hostAccess_cases h)⟩
  | reset base =>
    obtain ⟨s', hsel, h⟩ := onBlock_next_iff.1 h
    obtain ⟨-, hp, hm, -⟩ := State.select_some hsel
    cases h
    exact ⟨s', hp, hm, .reset⟩
  | memWrite addr data =>
    obtain ⟨-, hfree, -, rfl⟩ := memWrite_next_iff.1 h
    exact ⟨s, .refl _, rfl, .memWrite _ _ hfree⟩
  | memRead addr count =>
    obtain ⟨-, bs, -, rfl⟩ := memRead_next_iff.1 h
    exact ⟨s, .refl _, rfl, .memRead bs⟩

/-- A step of the machine is the act of one agent, on the same blocks up to their order and the same memory. -/
theorem step_agentStep {s t : State} (h : step s = .next t) :
    ∃ s', s'.blocks.Perm s.blocks ∧ s'.mem = s.mem ∧ AgentStep s' t := by
  rcases step_cases h with ⟨-, h⟩ | ⟨u, us, -, h⟩
  · exact ⟨s, .refl _, rfl, .block h⟩
  · obtain ⟨s', hp, hm, ha⟩ := takeTurn_agentStep h
    exact ⟨s', hp, hm, ha⟩

/-! ### The reset input -/

@[simp] theorem resetBlock_blk (s : State) : (resetBlock s).blk = Block.atReset s.blk.regBase := by
  unfold resetBlock; dsimp only; split_ifs <;> rfl
@[simp] theorem resetBlock_others (s : State) : (resetBlock s).others = s.others := by
  unfold resetBlock; dsimp only; split_ifs <;> rfl
@[simp] theorem resetBlock_sched (s : State) : (resetBlock s).sched = s.sched := by
  unfold resetBlock; dsimp only; split_ifs <;> rfl

/-- Only a running block's reset touches memory (spec/70_reset_and_hazards.md R162). -/
theorem resetBlock_mem_idle {s : State} (h : s.blk.busy = false) : (resetBlock s).mem = s.mem := by
  simp [resetBlock, h]

theorem resetBlock_mem_busy {s : State} (h : s.blk.busy = true) :
    (resetBlock s).mem = Memory.drawWords s.mem s.blk.outBase.toNat s.draws s.blk.width.toNat := by
  simp [resetBlock, h]

theorem resetBlock_mem_wf {s : State} (h : Memory.wf s.mem = true) : Memory.wf (resetBlock s).mem = true := by
  cases hb : s.blk.busy
  · rwa [resetBlock_mem_idle hb]
  · rw [resetBlock_mem_busy hb]
    exact Memory.wf_drawWords h _ _ _

/-- A reset writes nothing outside the block's output region (spec/70_reset_and_hazards.md R162). -/
theorem resetBlock_memSameExcept (s : State) :
    MemSameExcept s (resetBlock s) s.blk.outBase.toNat (4 * s.blk.width.toNat) := by
  intro x hx
  cases hb : s.blk.busy
  · rw [resetBlock_mem_idle hb]
  · rw [resetBlock_mem_busy hb, Memory.read_drawWords_other _ _ _ _ _ hx]

/-! ### The configuration -/

/-- Two blocks at the same REG_BASE with the same configuration registers (spec/10_state.md R19 to R22). -/
structure Block.SameConfig (b c : Block) : Prop where
  regBase : c.regBase = b.regBase
  inBase : c.inBase = b.inBase
  inLen : c.inLen = b.inLen
  outHi : c.outHi = b.outHi
  width : c.width = b.width

theorem Block.SameConfig.slotAddr {b c : Block} (h : b.SameConfig c) (i : Nat) : c.slotAddr i = b.slotAddr i := by
  simp [Block.slotAddr, Block.outBase, h.outHi]

/-- No token writes the configuration. -/
theorem TokenStep.sameConfig {s t : State} (h : TokenStep s t) : s.blk.SameConfig t.blk := by
  cases h with
  | short n _ => exact ⟨rfl, rfl, rfl, rfl, rfl⟩
  | first n v _ _ _ => constructor <;> simp
  | bctrl n0 n1 _ _ => exact ⟨rfl, rfl, rfl, rfl, rfl⟩
  | bpack run _ _ => constructor <;> simp
  | bres n o _ _ _ => constructor <;> simp
  | rem n d _ _ _ => constructor <;> simp

/-- The block never writes its configuration (spec/10_state.md R19 to R22). -/
theorem blockStep_sameConfig {s t : State} (h : blockStep s = .next t) : s.blk.SameConfig t.blk := by
  rcases blockStep_cases h with ⟨-, rfl⟩ | ⟨-, h⟩ | ⟨-, -, h⟩
  · exact ⟨rfl, rfl, rfl, rfl, rfl⟩
  · rcases zfillStep_next_iff.1 h with ⟨-, rfl⟩ | ⟨-, -, rfl⟩ <;> exact ⟨rfl, rfl, rfl, rfl, rfl⟩
  · exact h.sameConfig

/-- In IDLE the block's step is no step (spec/60_exceptions.md R159). -/
theorem blockStep_of_idle {s : State} (h : s.blk.phase = .idle) : blockStep s = .next s := by
  simp [blockStep, Block.ctx, Block.busy, h]

/-- The step of a block that does not run changes nothing. -/
theorem blockStep_eq_of_not_busy {s t : State} (h : blockStep s = .next t) (hb : s.blk.busy = false) : t = s := by
  rw [blockStep_of_idle ((Block.not_busy_iff _).1 hb)] at h
  cases h
  rfl

/-- The block's step leaves the other blocks alone. -/
theorem blockStep_others {s t : State} (h : blockStep s = .next t) : t.others = s.others := by
  rcases blockStep_cases h with ⟨-, rfl⟩ | ⟨-, h⟩ | ⟨-, -, h⟩
  · rfl
  · rcases zfillStep_next_iff.1 h with ⟨-, rfl⟩ | ⟨-, -, rfl⟩ <;> rfl
  · cases h <;> rfl

/-- A register access leaves the other blocks alone. -/
theorem HostStep.others {s t : State} (h : HostStep s t) : t.others = s.others := by cases h <;> rfl

/-- A register access leaves memory alone. -/
theorem HostStep.mem {s t : State} (h : HostStep s t) : t.mem = s.mem := by cases h <;> rfl

/-- No agent acts on any block but the active one (spec/60_exceptions.md R157). -/
theorem AgentStep.others {s t : State} (h : AgentStep s t) : t.others = s.others := by
  cases h with
  | block h => exact blockStep_others h
  | host h => exact h.others
  | reset => exact resetBlock_others s
  | memWrite | memRead => rfl

end Sys2Proof.Machine
end

section
/-! PROOFS. The registers of a running block fit its phase, and every step keeps it so (spec/10_state.md R28 to R34, R38). -/

namespace Sys2Proof.Machine

/-! ### The invariant by phase -/

/-- What every decoding phase asks: no flag set, CUR inside the input, ZI past the last slot. -/
structure Block.Decoding (b : Block) : Prop where
  notDone : b.done = false
  notTrunc : b.trunc = false
  cur_le : b.cur.toNat ≤ b.inLen.toNat
  zeroed : b.zi = b.width

theorem Block.consistent_of_idle {b : Block} (h : b.phase = .idle) : b.consistent = true := by
  simp [Block.consistent, h]

theorem Block.consistent_zfill_iff {b : Block} (h : b.phase = .zfill) :
    b.consistent = true ↔ (b.done = false ∧ b.trunc = false) ∧ b.cur = 0#32 ∧ b.idx = 0#32 ∧ b.acc = 0#32
      ∧ b.blkcnt = 0#28 ∧ (b.zi.toNat < b.width.toNat ∨ b.width = 0#32 ∧ b.zi = 0#32) := by
  simp [Block.consistent, h]

theorem Block.consistent_first_iff {b : Block} (h : b.phase = .first) :
    b.consistent = true ↔ (b.done = false ∧ b.trunc = false) ∧ b.cur = 0#32 ∧ b.idx = 0#32 ∧ b.acc = 0#32
      ∧ b.blkcnt = 0#28 ∧ 0 < b.width.toNat ∧ b.zi = b.width := by
  simp [Block.consistent, h]

theorem Block.decoding_iff {b : Block} :
    b.Decoding ↔ b.done = false ∧ b.trunc = false ∧ b.cur.toNat ≤ b.inLen.toNat ∧ b.zi = b.width :=
  ⟨fun ⟨h1, h2, h3, h4⟩ => ⟨h1, h2, h3, h4⟩, fun ⟨h1, h2, h3, h4⟩ => ⟨h1, h2, h3, h4⟩⟩

theorem Block.consistent_bctrl_iff {b : Block} (h : b.phase = .bctrl ∨ b.phase = .bpack) :
    b.consistent = true ↔ b.Decoding ∧ b.blkcnt.toNat < nblock b.width ∧ b.idx.toNat = 1 + 16 * b.blkcnt.toNat := by
  rw [Block.decoding_iff]
  rcases h with h | h <;>
    simp only [Block.consistent, h, Bool.and_eq_true, Bool.not_eq_true', decide_eq_true_eq] <;> tauto

theorem Block.consistent_bres_iff {b : Block} (h : b.phase = .bres) :
    b.consistent = true ↔ b.Decoding ∧ b.blkcnt.toNat < nblock b.width
      ∧ b.idx.toNat = 1 + 16 * b.blkcnt.toNat + b.slot.toNat := by
  rw [Block.decoding_iff]
  simp only [Block.consistent, h, Bool.and_eq_true, Bool.not_eq_true', decide_eq_true_eq]
  tauto

theorem Block.consistent_rem_iff {b : Block} (h : b.phase = .rem) :
    b.consistent = true ↔ b.Decoding ∧ b.blkcnt.toNat = nblock b.width
      ∧ 1 + 16 * nblock b.width ≤ b.idx.toNat ∧ b.idx.toNat < b.width.toNat := by
  rw [Block.decoding_iff]
  simp only [Block.consistent, h, Bool.and_eq_true, Bool.not_eq_true', decide_eq_true_eq]
  tauto

/-! ### What a consistent block's registers satisfy in every phase -/

/-- The blocks of a line end inside it (spec/40_sequencer.md R95), so BLKCNT's 28 bits hold their number (R30). -/
theorem nblock_bounds (w : Word) : 16 * nblock w ≤ w.toNat - 1 ∧ nblock w < 2 ^ 28 := by
  have := w.isLt
  unfold nblock
  omega

/-- A consistent running block in any phase: no flag is set, CUR is inside the input, IDX is inside the line (R25, R26). -/
theorem Block.busy_bounds {b : Block} (hc : b.consistent = true) (hb : b.busy = true) :
    b.done = false ∧ b.trunc = false ∧ b.cur.toNat ≤ b.inLen.toNat ∧ b.idx.toNat ≤ b.width.toNat := by
  obtain ⟨hw, -⟩ := nblock_bounds b.width
  cases hp : b.phase with
  | idle => exact absurd hp ((Block.busy_iff b).1 hb)
  | zfill =>
    obtain ⟨⟨hd, ht⟩, hcur, hidx, -⟩ := (Block.consistent_zfill_iff hp).1 hc
    exact ⟨hd, ht, by simp [hcur], by simp [hidx]⟩
  | first =>
    obtain ⟨⟨hd, ht⟩, hcur, hidx, -⟩ := (Block.consistent_first_iff hp).1 hc
    exact ⟨hd, ht, by simp [hcur], by simp [hidx]⟩
  | bctrl =>
    obtain ⟨h, hk, hidx⟩ := (Block.consistent_bctrl_iff (.inl hp)).1 hc
    exact ⟨h.notDone, h.notTrunc, h.cur_le, by omega⟩
  | bpack =>
    obtain ⟨h, hk, hidx⟩ := (Block.consistent_bctrl_iff (.inr hp)).1 hc
    exact ⟨h.notDone, h.notTrunc, h.cur_le, by omega⟩
  | bres =>
    obtain ⟨h, hk, hidx⟩ := (Block.consistent_bres_iff hp).1 hc
    exact ⟨h.notDone, h.notTrunc, h.cur_le, by omega⟩
  | rem =>
    obtain ⟨h, hk, -, hidx⟩ := (Block.consistent_rem_iff hp).1 hc
    exact ⟨h.notDone, h.notTrunc, h.cur_le, hidx.le⟩

/-- In the phases that finalise a slot, IDX names one of the line's slots (R26). -/
theorem Block.idx_lt_width {b : Block} (hc : b.consistent = true)
    (hp : b.phase = .first ∨ b.phase = .bres ∨ b.phase = .rem) : b.idx.toNat < b.width.toNat := by
  obtain ⟨hw, -⟩ := nblock_bounds b.width
  rcases hp with hp | hp | hp
  · obtain ⟨-, -, hidx, -, -, hpos, -⟩ := (Block.consistent_first_iff hp).1 hc
    simpa [hidx] using hpos
  · obtain ⟨-, hk, hidx⟩ := (Block.consistent_bres_iff hp).1 hc
    omega
  · exact ((Block.consistent_rem_iff hp).1 hc).2.2.2

/-! ### The operations of the sequencer keep it -/

/-- CUR past the bytes that `need` allows, or past none. -/
theorem Block.advance_cur_of_fits {b : Block} {n : Nat} (hn : n = 0 ∨ b.need n = true) :
    (b.advance n).cur.toNat = b.cur.toNat + n := by
  rcases hn with rfl | hn
  · simp
  · exact Block.advance_cur_toNat hn

theorem Block.advance_cur_le {b : Block} {n : Nat} (hn : n = 0 ∨ b.need n = true) (h : b.cur.toNat ≤ b.inLen.toNat) :
    (b.advance n).cur.toNat ≤ b.inLen.toNat := by
  rw [Block.advance_cur_of_fits hn]
  rcases hn with rfl | hn
  · exact h
  · simpa [Block.need] using hn

/-- A token inside the input leaves the block decoding. -/
theorem Block.Decoding.advance {b : Block} {n : Nat} (h : b.Decoding) (hn : n = 0 ∨ b.need n = true) :
    (b.advance n).Decoding :=
  ⟨h.notDone, h.notTrunc, Block.advance_cur_le hn h.cur_le, h.zeroed⟩

/-- A counter below WIDTH, as IDX and ZI are, does not wrap when it rises by 1. -/
theorem toNat_succ_of_lt {x w : Word} (h : x.toNat < w.toNat) : (x + 1#32).toNat = x.toNat + 1 := by
  have := w.isLt
  rw [BitVec.toNat_add, BitVec.toNat_ofNat]
  omega

/-- NEXT() picks the phase that BLKCNT and IDX fit (spec/40_sequencer.md R84). -/
theorem Block.Decoding.nextPhase_consistent {b : Block} (h : b.Decoding) (hk : b.blkcnt.toNat ≤ nblock b.width)
    (hlow : 1 + 16 * b.blkcnt.toNat ≤ b.idx.toNat) (hidx : b.idx.toNat ≤ b.width.toNat)
    (hmore : b.blkcnt.toNat < nblock b.width → b.idx.toNat = 1 + 16 * b.blkcnt.toNat) : b.nextPhase.consistent = true := by
  have hd (p : Phase) : { b with phase := p }.Decoding := ⟨h.notDone, h.notTrunc, h.cur_le, h.zeroed⟩
  rcases b.nextPhase_cases with ⟨-, hb⟩ | ⟨-, hlt, hb⟩ | ⟨hne, hge, hb⟩ <;> rw [hb]
  · exact Block.consistent_of_idle rfl
  · exact (Block.consistent_bctrl_iff (.inl rfl)).2 ⟨hd _, hlt, hmore hlt⟩
  · have hlt : b.idx.toNat < b.width.toNat := lt_of_le_of_ne hidx fun he => hne (BitVec.eq_of_toNat_eq he)
    have hk' : b.blkcnt.toNat = nblock b.width := le_antisymm hk hge
    exact (Block.consistent_rem_iff rfl).2 ⟨hd _, hk', hk' ▸ hlow, hlt⟩

/-- After a slot of a block the registers fit the next slot, or what NEXT() picks (spec/42_block.md R112, R118). -/
theorem Block.Decoding.nextSlot_consistent {b : Block} (h : b.Decoding) (hp : b.phase = .bres)
    (hk : b.blkcnt.toNat < nblock b.width) (hidx : b.idx.toNat = 2 + 16 * b.blkcnt.toNat + b.slot.toNat) :
    b.nextSlot.consistent = true := by
  obtain ⟨hw, hmax⟩ := nblock_bounds b.width
  rcases b.nextSlot_cases with ⟨hlast, hb⟩ | ⟨hslot, hb⟩ <;> rw [hb]
  · have hs : b.slot.toNat = 15 := by simp [hlast]
    have hcnt : (b.blkcnt + 1#28).toNat = b.blkcnt.toNat + 1 := by
      rw [BitVec.toNat_add, BitVec.toNat_ofNat]
      omega
    have hd : { b with blkcnt := b.blkcnt + 1#28 }.Decoding := ⟨h.notDone, h.notTrunc, h.cur_le, h.zeroed⟩
    refine hd.nextPhase_consistent ?_ ?_ ?_ fun _ => ?_ <;> simp only [hcnt] <;> omega
  · have hs : (b.slot + 1#4).toNat = b.slot.toNat + 1 := by
      have hlt := b.slot.isLt
      have hne : b.slot.toNat ≠ 15 := fun he => hslot (BitVec.eq_of_toNat_eq he)
      rw [BitVec.toNat_add, BitVec.toNat_ofNat]
      omega
    refine (Block.consistent_bres_iff (by exact hp)).2 ⟨⟨h.notDone, h.notTrunc, h.cur_le, h.zeroed⟩, hk, ?_⟩
    simp only [hs]
    omega

/-! ### The block's step keeps it -/

/-- A token leaves the registers consistent with the phase it goes to. -/
theorem TokenStep.consistent {s t : State} (h : TokenStep s t) (hc : s.blk.consistent = true) :
    t.blk.consistent = true := by
  cases h with
  | short n _ => exact Block.consistent_of_idle rfl
  | first n v hp hn _ =>
    obtain ⟨⟨hd, ht⟩, hcur, -, -, hcnt, hw, hz⟩ := (Block.consistent_first_iff hp).1 hc
    have h := Block.Decoding.advance (b := s.blk) ⟨hd, ht, by simp [hcur], hz⟩ (.inr hn)
    have hd' : { s.blk.advance n with acc := v, idx := 1#32 }.Decoding := ⟨h.notDone, h.notTrunc, h.cur_le, h.zeroed⟩
    refine hd'.nextPhase_consistent ?_ ?_ ?_ fun _ => ?_ <;> simp [hcnt]
    omega
  | bctrl n0 n1 hp hn =>
    obtain ⟨h, hk, hidx⟩ := (Block.consistent_bctrl_iff (.inl hp)).1 hc
    have h := h.advance (.inr hn)
    exact (Block.consistent_bctrl_iff (.inr rfl)).2 ⟨⟨h.notDone, h.notTrunc, h.cur_le, h.zeroed⟩, hk, hidx⟩
  | bpack run hp hn =>
    obtain ⟨h, hk, hidx⟩ := (Block.consistent_bctrl_iff (.inr hp)).1 hc
    have h := h.advance (.inr hn)
    rw [State.setBlk_blk]
    rcases Block.unpack_cases (s.blk.advance s.blk.nbit.toNat) s.blk.nbit run with ⟨-, hb⟩ | ⟨-, hb⟩ <;> rw [hb]
    · exact (Block.consistent_bctrl_iff (.inr (by exact hp))).2 ⟨⟨h.notDone, h.notTrunc, h.cur_le, h.zeroed⟩, hk, hidx⟩
    · exact (Block.consistent_bres_iff rfl).2 ⟨⟨h.notDone, h.notTrunc, h.cur_le, h.zeroed⟩, hk, hidx⟩
  | bres n o hp hn _ =>
    have hlt := Block.idx_lt_width hc (.inr (.inl hp))
    obtain ⟨h, hk, hidx⟩ := (Block.consistent_bres_iff hp).1 hc
    have h := h.advance hn
    have hd : { s.blk.advance n with acc := s.blk.acc + o, idx := s.blk.idx + 1#32 }.Decoding :=
      ⟨h.notDone, h.notTrunc, h.cur_le, h.zeroed⟩
    refine hd.nextSlot_consistent hp hk ?_
    simp only [Block.advance_blkcnt, Block.advance_slot, toNat_succ_of_lt hlt]
    omega
  | rem n d hp hn _ =>
    have hlt := Block.idx_lt_width hc (.inr (.inr hp))
    obtain ⟨h, hk, hlow, -⟩ := (Block.consistent_rem_iff hp).1 hc
    have h := h.advance (.inr hn)
    have hd : { s.blk.advance n with acc := s.blk.acc + d, idx := s.blk.idx + 1#32 }.Decoding :=
      ⟨h.notDone, h.notTrunc, h.cur_le, h.zeroed⟩
    refine hd.nextPhase_consistent hk.le ?_ ?_ fun hmore => absurd hmore (by simp [hk]) <;>
      simp only [Block.advance_blkcnt, Block.advance_width, toNat_succ_of_lt hlt] <;> omega

/-- The ZFILL step leaves the registers consistent (spec/40_sequencer.md R82). -/
theorem zfillStep_consistent {s t : State} (h : zfillStep s = .next t) (hp : s.blk.phase = .zfill)
    (hc : s.blk.consistent = true) : t.blk.consistent = true := by
  rcases zfillStep_next_iff.1 h with ⟨-, rfl⟩ | ⟨hw, -, rfl⟩
  · exact Block.consistent_of_idle rfl
  · obtain ⟨hf, hcur, hidx, hacc, hcnt, hz⟩ := (Block.consistent_zfill_iff hp).1 hc
    have hz : s.blk.zi.toNat < s.blk.width.toNat := hz.resolve_right fun hz => hw hz.1
    by_cases hlast : s.blk.zi + 1#32 = s.blk.width
    · have hp' : s.blk.nextZero.phase = .first := by simp [Block.nextZero, hlast]
      exact (Block.consistent_first_iff hp').2 ⟨hf, hcur, hidx, hacc, hcnt, by rw [Block.nextZero_width]; omega, hlast⟩
    · have hp' : s.blk.nextZero.phase = .zfill := by simp [Block.nextZero, hlast]
      have hne : (s.blk.zi + 1#32).toNat ≠ s.blk.width.toNat := fun he => hlast (BitVec.eq_of_toNat_eq he)
      refine (Block.consistent_zfill_iff hp').2 ⟨hf, hcur, hidx, hacc, hcnt, .inl ?_⟩
      rw [toNat_succ_of_lt hz] at hne
      rw [Block.nextZero_zi, Block.nextZero_width, toNat_succ_of_lt hz]
      omega

/-- The block's step keeps its registers consistent. -/
theorem blockStep_consistent {s t : State} (h : blockStep s = .next t) (hc : s.blk.consistent = true) :
    t.blk.consistent = true := by
  rcases blockStep_cases h with ⟨-, rfl⟩ | ⟨hp, h⟩ | ⟨-, -, h⟩
  · exact hc
  · exact zfillStep_consistent h hp hc
  · exact h.consistent hc

/-! ### Every agent keeps it -/

/-- START leaves the registers as ZFILL wants them (spec/44_host_interface.md R135). -/
theorem Block.start_consistent (b : Block) : b.start.consistent = true := by
  refine (Block.consistent_zfill_iff rfl).2 ⟨⟨rfl, rfl⟩, rfl, rfl, rfl, rfl, ?_⟩
  rcases Nat.eq_zero_or_pos b.width.toNat with hw | hw
  · exact .inr ⟨BitVec.eq_of_toNat_eq hw, rfl⟩
  · exact .inl hw

/-- A register access keeps the registers consistent: in IDLE nothing is asked of them (log entry 15). -/
theorem HostStep.consistent {s t : State} (h : HostStep s t) (hc : s.blk.consistent = true) :
    t.blk.consistent = true := by
  cases h with
  | ignored | read => exact hc
  | started => exact Block.start_consistent _
  | configured b hi hb => exact Block.consistent_of_idle (hb.trans ((Block.not_busy_iff _).1 hi))

/-- Whichever agent acts, the active block's registers stay consistent. -/
theorem AgentStep.blk_consistent {s t : State} (h : AgentStep s t) (hc : s.blk.consistent = true) :
    t.blk.consistent = true := by
  cases h with
  | block h => exact blockStep_consistent h hc
  | host h => exact h.consistent hc
  | reset => exact Block.consistent_of_idle (by simp)
  | memWrite | memRead => exact hc

/-- The block's step keeps the memory's canonical form. -/
theorem blockStep_mem_wf {s t : State} (h : blockStep s = .next t) (hm : Memory.wf s.mem = true) :
    Memory.wf t.mem = true := by
  rcases blockStep_cases h with ⟨-, rfl⟩ | ⟨-, h⟩ | ⟨-, -, h⟩
  · exact hm
  · rcases zfillStep_next_iff.1 h with ⟨-, rfl⟩ | ⟨-, -, rfl⟩
    · exact hm
    · exact Memory.wf_writeWord hm _ _
  · cases h with
    | short | bctrl | bpack => exact hm
    | first | bres | rem => exact Memory.wf_writeWord hm _ _

/-- Every agent keeps the memory's canonical form. -/
theorem AgentStep.mem_wf {s t : State} (h : AgentStep s t) (hm : Memory.wf s.mem = true) : Memory.wf t.mem = true := by
  cases h with
  | block h => exact blockStep_mem_wf h hm
  | host h => rwa [h.mem]
  | reset => exact resetBlock_mem_wf hm
  | memWrite => exact Memory.wf_writeBytes hm _ _
  | memRead => exact hm

theorem State.consistent_iff {s : State} :
    s.consistent = true ↔ Memory.wf s.mem = true ∧ ∀ b ∈ s.blocks, b.consistent = true := by
  simp [State.consistent]

/-- Consistency does not depend on the order of the blocks. -/
theorem State.consistent_of_perm {s u : State} (hs : s.consistent = true) (hp : u.blocks.Perm s.blocks)
    (hm : u.mem = s.mem) : u.consistent = true := by
  obtain ⟨hwf, hb⟩ := State.consistent_iff.1 hs
  exact State.consistent_iff.2 ⟨hm ▸ hwf, fun b hmem => hb b (hp.mem_iff.1 hmem)⟩

/-- The active block of a consistent state is consistent. -/
theorem State.consistent_blk {s : State} (hs : s.consistent = true) : s.blk.consistent = true :=
  (State.consistent_iff.1 hs).2 _ List.mem_cons_self

/-- Every agent keeps the whole state consistent. -/
theorem AgentStep.consistent {s t : State} (h : AgentStep s t) (hs : s.consistent = true) : t.consistent = true := by
  obtain ⟨hwf, hb⟩ := State.consistent_iff.1 hs
  refine State.consistent_iff.2 ⟨h.mem_wf hwf, fun b hmem => ?_⟩
  rcases List.mem_cons.1 hmem with rfl | hmem
  · exact h.blk_consistent (State.consistent_blk hs)
  · exact hb b (List.mem_cons_of_mem _ (h.others ▸ hmem))

/-- Settles O56: the agent of the turn keeps the active block's registers and the memory's form, and no other block's change. -/
theorem stepKeepsRegistersConsistent : Obligations.StepKeepsRegistersConsistent := by
  intro s t hs h
  obtain ⟨u, hp, hm, ha⟩ := step_agentStep h
  exact ha.consistent (State.consistent_of_perm hs hp hm)

end Sys2Proof.Machine
end

section
/-! PROOFS. The output region of a running block (spec/10_state.md R38, spec/20_memory.md R45, R52): the block stores one
slot of its own region at a time, and no other agent writes there. -/

namespace Sys2Proof.Machine

/-! ### Output regions -/

/-- An address of the block's output region (spec/20_memory.md R45). -/
def Block.InOutput (b : Block) (x : Nat) : Prop := b.outBase.toNat ≤ x ∧ x < b.outBase.toNat + 4 * b.width.toNat

/-- The four bytes of a slot below WIDTH lie in the output region. -/
theorem Block.inOutput_of_slot {b : Block} {i x : Nat} (hi : i < b.width.toNat)
    (hx : b.slotAddr i ≤ x ∧ x < b.slotAddr i + 4) : b.InOutput x := by
  unfold Block.slotAddr at hx
  unfold Block.InOutput
  omega

theorem rangesMeet_comm (a n b m : Nat) : rangesMeet a n b m = rangesMeet b m a n := by
  unfold rangesMeet
  exact decide_eq_decide.2 (by tauto)

/-- A byte of a range that does not meet the output region is none of that region's. -/
theorem Block.not_inOutput_of_not_meets {b : Block} {a n x : Nat} (h : b.outputMeets a n = false)
    (hx : a ≤ x ∧ x < a + n) : ¬b.InOutput x := by
  simp only [Block.outputMeets, rangesMeet, decide_eq_false_iff_not] at h
  unfold Block.InOutput
  omega

/-- Two blocks that do not conflict share no byte of output (spec/60_exceptions.md R157). -/
theorem Block.not_inOutput_of_not_conflicts {b c : Block} {x : Nat} (h : b.conflicts c = false) (hx : b.InOutput x) :
    ¬c.InOutput x := by
  simp only [Block.conflicts, Bool.or_eq_false_iff] at h
  exact Block.not_inOutput_of_not_meets h.1.2 hx

/-- Conflict is mutual (spec/60_exceptions.md R157). -/
theorem Block.conflicts_comm (b c : Block) : b.conflicts c = c.conflicts b := by
  simp only [Block.conflicts, Block.outputMeets, Block.inputMeets,
    rangesMeet_comm b.inBase.toNat, rangesMeet_comm b.outBase.toNat]
  ac_rfl

/-! ### Duties -/

/-- The duties of one block among the others: if it runs, its regions are placed and conflict with no running block's. -/
def Block.KeepsDuties (b : Block) (others : List Block) : Prop :=
  b.busy = true → b.placed = true ∧ ∀ c ∈ others, c.busy = true → b.conflicts c = false

/-- The duties of the platform, block by block: the active one's, and the others' among themselves. -/
theorem State.dutiesHold_iff {s : State} :
    s.DutiesHold ↔ s.blk.KeepsDuties s.others ∧ (∀ c ∈ s.others, c.busy = true → c.placed = true)
      ∧ s.others.Pairwise fun b c => b.busy = true → c.busy = true → b.conflicts c = false := by
  simp only [State.DutiesHold, State.blocks, Block.KeepsDuties, List.pairwise_cons, List.mem_cons, forall_eq_or_imp]
  constructor
  · rintro ⟨⟨hb, ho⟩, hbo, hoo⟩
    exact ⟨fun h => ⟨hb h, fun c hc => hbo c hc h⟩, ho, hoo⟩
  · rintro ⟨hb, ho, hoo⟩
    exact ⟨⟨fun h => (hb h).1, ho⟩, fun c hc h => (hb h).2 c hc, hoo⟩

/-- The duties do not depend on the order of the blocks. -/
theorem State.DutiesHold.of_perm {s u : State} (h : s.DutiesHold) (hp : u.blocks.Perm s.blocks) : u.DutiesHold := by
  obtain ⟨hplaced, hpair⟩ := h
  refine ⟨fun b hb => hplaced b (hp.mem_iff.1 hb), (hp.pairwise_iff fun {b c} hbc hc hb => ?_).2 hpair⟩
  rw [Block.conflicts_comm]
  exact hbc hb hc

/-- A block keeps its duties while its configuration stays as it was. -/
theorem Block.KeepsDuties.of_sameConfig {b c : Block} {l : List Block} (h : b.KeepsDuties l) (hc : b.SameConfig c)
    (hbusy : c.busy = true → b.busy = true) : c.KeepsDuties l := by
  intro hb
  have hout : c.outBase = b.outBase := by simp [Block.outBase, hc.outHi]
  simpa only [Block.placed, Block.conflicts, Block.outputMeets, hout, hc.inBase, hc.inLen, hc.width] using h (hbusy hb)

/-- START's checks are the duties of the block that it starts (spec/44_host_interface.md R148, spec/60_exceptions.md R157). -/
theorem Block.start_keepsDuties {s : State} (h : s.brokenDuty = none) : s.blk.start.KeepsDuties s.others := by
  intro _
  unfold State.brokenDuty at h
  dsimp only at h
  split_ifs at h with hin hout hmeet hback hconf
  refine ⟨?_, fun c hc hbusy => ?_⟩
  · change s.blk.placed = true
    simp only [Block.placed, Bool.and_eq_true, decide_eq_true_eq]
    exact ⟨⟨not_lt.1 hin, not_lt.1 hout⟩, by simpa using hmeet⟩
  · change s.blk.conflicts c = false
    simp only [List.any_eq_true, not_exists, not_and, Bool.not_eq_true] at hconf
    simpa [hbusy] using hconf c hc

/-! ### What a running block has stored -/

/-- What R38 says of the output region of a block in a decoding phase. -/
def Block.FinalSlots (b : Block) (m : Memory) : Prop :=
  (∀ i, b.idx.toNat ≤ i → i < b.width.toNat → Memory.readWord m (b.slotAddr i) = some 0#32)
    ∧ (1 ≤ b.idx.toNat → Memory.readWord m (b.slotAddr (b.idx.toNat - 1)) = some b.acc)

theorem Block.outputHolds_zfill_iff {b : Block} {m : Memory} (h : b.phase = .zfill) :
    b.OutputHolds m ↔ ∀ i, i < b.zi.toNat → Memory.readWord m (b.slotAddr i) = some 0#32 := by
  simp only [Block.OutputHolds, h]

theorem Block.outputHolds_of_idle {b : Block} {m : Memory} (h : b.phase = .idle) : b.OutputHolds m := by
  simp only [Block.OutputHolds, h]

theorem Block.outputHolds_iff_finalSlots {b : Block} {m : Memory} (hi : b.phase ≠ .idle) (hz : b.phase ≠ .zfill) :
    b.OutputHolds m ↔ b.FinalSlots m := by
  cases hp : b.phase with
  | idle => exact absurd hp hi
  | zfill => exact absurd hp hz
  | first | bctrl | bpack | bres | rem => simp only [Block.OutputHolds, Block.FinalSlots, hp]

theorem Block.FinalSlots.outputHolds {b : Block} {m : Memory} (h : b.FinalSlots m) (hz : b.phase ≠ .zfill) :
    b.OutputHolds m := by
  by_cases hi : b.phase = .idle
  · exact Block.outputHolds_of_idle hi
  · exact (Block.outputHolds_iff_finalSlots hi hz).2 h

/-- A slot below WIDTH reads the same in two memories that agree on the output region. -/
theorem Block.readWord_slot_congr {b : Block} {m n : Memory} {i : Nat} (hi : i < b.width.toNat)
    (h : ∀ x, b.InOutput x → Memory.read n x = Memory.read m x) :
    Memory.readWord n (b.slotAddr i) = Memory.readWord m (b.slotAddr i) :=
  Memory.readWord_congr fun x h1 h2 => h x (Block.inOutput_of_slot hi ⟨h1, h2⟩)

/-- R38 of a block depends on its own output region alone. -/
theorem Block.OutputHolds.congr_mem {b : Block} {m n : Memory} (h : b.OutputHolds m) (hc : b.consistent = true)
    (hm : b.busy = true → ∀ x, b.InOutput x → Memory.read n x = Memory.read m x) : b.OutputHolds n := by
  by_cases hi : b.phase = .idle
  · exact Block.outputHolds_of_idle hi
  have hbusy := (Block.busy_iff b).2 hi
  have hslot {i : Nat} (hlt : i < b.width.toNat) := Block.readWord_slot_congr hlt (hm hbusy)
  by_cases hz : b.phase = .zfill
  · obtain ⟨-, -, -, -, -, hzi⟩ := (Block.consistent_zfill_iff hz).1 hc
    rw [Block.outputHolds_zfill_iff hz] at h ⊢
    intro i hlt
    rcases hzi with hzi | ⟨-, hzi⟩
    · rw [hslot (hlt.trans hzi), h i hlt]
    · simp [hzi] at hlt
  · obtain ⟨hzero, hacc⟩ := (Block.outputHolds_iff_finalSlots hi hz).1 h
    obtain ⟨-, -, -, hidx⟩ := Block.busy_bounds hc hbusy
    refine Block.FinalSlots.outputHolds ⟨fun i h1 h2 => ?_, fun h1 => ?_⟩ hz
    · rw [hslot h2, hzero i h1 h2]
    · rw [hslot (by omega), hacc h1]

/-! ### The slot that a step of the block stores -/

theorem Block.nextPhase_ne_zfill (b : Block) : b.nextPhase.phase ≠ .zfill := by
  rcases b.nextPhase_cases with ⟨-, hb⟩ | ⟨-, -, hb⟩ | ⟨-, -, hb⟩ <;> simp [hb]

theorem Block.nextSlot_ne_zfill {b : Block} (h : b.phase ≠ .zfill) : b.nextSlot.phase ≠ .zfill := by
  rcases b.nextSlot_cases with ⟨-, hb⟩ | ⟨-, hb⟩ <;> rw [hb]
  · exact Block.nextPhase_ne_zfill _
  · exact h

theorem Block.unpack_ne_zfill {b : Block} (h : b.phase ≠ .zfill) (n : BitVec 4) (run : BitVec 120) :
    (b.unpack n run).phase ≠ .zfill := by
  rcases b.unpack_cases n run with ⟨-, hb⟩ | ⟨-, hb⟩ <;> rw [hb]
  · exact h
  · simp

/-- No token leads back to ZFILL (spec/40_sequencer.md R79). -/
theorem TokenStep.ne_zfill {s t : State} (h : TokenStep s t) : t.blk.phase ≠ .zfill := by
  cases h with
  | short | bctrl => simp [endShort, State.finish]
  | bpack run hp _ => exact Block.unpack_ne_zfill (by simp [hp]) _ _
  | bres n o hp _ _ => exact Block.nextSlot_ne_zfill (by simp [hp])
  | first | rem => exact Block.nextPhase_ne_zfill _

/-- A token finalises the slot that IDX names, with ACC the value stored, or it stores nothing (spec/10_state.md R26, R27). -/
theorem TokenStep.stores {s t : State} (h : TokenStep s t) (hc : s.blk.consistent = true) :
    (t.mem = s.mem ∧ t.blk.idx = s.blk.idx ∧ t.blk.acc = s.blk.acc)
      ∨ (s.blk.idx.toNat < s.blk.width.toNat ∧ s.slotOk s.blk.idx.toNat = true ∧ t.blk.idx = s.blk.idx + 1#32
        ∧ t.mem = Memory.writeWord s.mem (s.blk.slotAddr s.blk.idx.toNat) t.blk.acc) := by
  cases h with
  | short | bctrl => exact .inl ⟨rfl, rfl, rfl⟩
  | bpack => exact .inl ⟨rfl, by simp, by simp⟩
  | first n v hp _ hs =>
    obtain ⟨-, -, hidx, -⟩ := (Block.consistent_first_iff hp).1 hc
    exact .inr ⟨Block.idx_lt_width hc (.inl hp), by simpa [hidx] using hs, by simp [hidx], by simp [hidx]⟩
  | bres n o hp _ hs => exact .inr ⟨Block.idx_lt_width hc (.inr (.inl hp)), hs, by simp, by simp⟩
  | rem n d hp _ hs => exact .inr ⟨Block.idx_lt_width hc (.inr (.inr hp)), hs, by simp, by simp⟩

/-- A write of one slot of the line changes no byte outside the output region. -/
theorem Block.read_writeWord_slot {b : Block} {i x : Nat} (hi : i < b.width.toNat) (m : Memory) (v : Word)
    (hx : ¬b.InOutput x) : Memory.read (Memory.writeWord m (b.slotAddr i) v) x = Memory.read m x :=
  Memory.read_writeWord_other m _ x v fun h => hx (Block.inOutput_of_slot hi h)

/-- The block writes nothing outside its output region (spec/20_memory.md R45). -/
theorem blockStep_memSameExcept {s t : State} (h : blockStep s = .next t) (hc : s.blk.consistent = true) :
    MemSameExcept s t s.blk.outBase.toNat (4 * s.blk.width.toNat) := by
  intro x hx
  rcases blockStep_cases h with ⟨-, rfl⟩ | ⟨hp, h⟩ | ⟨-, -, h⟩
  · rfl
  · rcases zfillStep_next_iff.1 h with ⟨-, rfl⟩ | ⟨hw, -, rfl⟩
    · rfl
    · obtain ⟨-, -, -, -, -, hz⟩ := (Block.consistent_zfill_iff hp).1 hc
      exact Block.read_writeWord_slot (hz.resolve_right fun hz => hw hz.1) s.mem 0#32 hx
  · rcases h.stores hc with ⟨hm, -⟩ | ⟨hlt, -, -, hm⟩ <;> rw [hm]
    exact Block.read_writeWord_slot hlt s.mem _ hx

/-! ### R38 of the stepping block -/

/-- Storing the slot that IDX names moves R38 on by one slot. -/
theorem Block.FinalSlots.store {b c : Block} {m : Memory} (h : b.FinalSlots m) (hcfg : b.SameConfig c)
    (hidx : c.idx.toNat = b.idx.toNat + 1) (hfit : b.slotAddr b.idx.toNat + 4 ≤ Config.addrSpace) :
    c.FinalSlots (Memory.writeWord m (b.slotAddr b.idx.toNat) c.acc) := by
  refine ⟨fun i h1 h2 => ?_, fun _ => ?_⟩
  · rw [hcfg.slotAddr, Memory.readWord_writeWord_other _ _ _ _ (by unfold Block.slotAddr; omega)]
    exact h.1 i (by omega) (hcfg.width ▸ h2)
  · rw [hcfg.slotAddr, show c.idx.toNat - 1 = b.idx.toNat by omega]
    exact Memory.readWord_writeWord _ _ _ hfit

/-- A token keeps R38 of its block. -/
theorem TokenStep.outputHolds {s t : State} (h : TokenStep s t) (hc : s.blk.consistent = true)
    (hf : s.blk.FinalSlots s.mem) : t.blk.OutputHolds t.mem := by
  refine Block.FinalSlots.outputHolds ?_ h.ne_zfill
  have hcfg := h.sameConfig
  rcases h.stores hc with ⟨hm, hidx, hacc⟩ | ⟨hlt, hok, hidx, hm⟩
  · simpa only [Block.FinalSlots, hm, hidx, hacc, hcfg.width, hcfg.slotAddr] using hf
  · rw [hm]
    exact hf.store hcfg (by rw [hidx, toNat_succ_of_lt hlt]) (State.slotOk_le hok)

/-- The ZFILL step keeps R38 of its block: one more slot is zero, and after the last one all are. -/
theorem zfillStep_outputHolds {s t : State} (h : zfillStep s = .next t) (hp : s.blk.phase = .zfill)
    (hc : s.blk.consistent = true) (ho : s.blk.OutputHolds s.mem) : t.blk.OutputHolds t.mem := by
  rcases zfillStep_next_iff.1 h with ⟨-, rfl⟩ | ⟨hw, hok, rfl⟩
  · exact Block.outputHolds_of_idle rfl
  obtain ⟨-, -, hidx, -, -, hz⟩ := (Block.consistent_zfill_iff hp).1 hc
  have hz : s.blk.zi.toNat < s.blk.width.toNat := hz.resolve_right fun hz => hw hz.1
  have hzi := toNat_succ_of_lt hz
  have hzero (i : Nat) (hi : i < s.blk.zi.toNat + 1) :
      Memory.readWord (Memory.writeWord s.mem (s.blk.slotAddr s.blk.zi.toNat) 0#32) (s.blk.slotAddr i) = some 0#32 := by
    rcases Nat.lt_succ_iff_lt_or_eq.1 hi with hi | rfl
    · rw [Memory.readWord_writeWord_other _ _ _ _ (by unfold Block.slotAddr; omega)]
      exact (Block.outputHolds_zfill_iff hp).1 ho i hi
    · exact Memory.readWord_writeWord _ _ _ (State.slotOk_le hok)
  by_cases hlast : s.blk.zi + 1#32 = s.blk.width
  · have hp' : s.blk.nextZero.phase = .first := by simp [Block.nextZero, hlast]
    have hf : s.blk.nextZero.FinalSlots (Memory.writeWord s.mem (s.blk.slotAddr s.blk.zi.toNat) 0#32) :=
      ⟨fun i _ hi => hzero i (by rwa [Block.nextZero_width, ← hlast, hzi] at hi), fun h => by simp [hidx] at h⟩
    exact hf.outputHolds (by simp [hp'])
  · have hp' : s.blk.nextZero.phase = .zfill := by simp [Block.nextZero, hlast]
    exact (Block.outputHolds_zfill_iff hp').2 fun i hi => hzero i (hzi ▸ hi)

/-- The block's step keeps R38 of its block. -/
theorem blockStep_outputHolds {s t : State} (h : blockStep s = .next t) (hc : s.blk.consistent = true)
    (ho : s.blk.OutputHolds s.mem) : t.blk.OutputHolds t.mem := by
  rcases blockStep_cases h with ⟨-, rfl⟩ | ⟨hp, h⟩ | ⟨hi, hz, h⟩
  · exact ho
  · exact zfillStep_outputHolds h hp hc ho
  · exact h.outputHolds hc ((Block.outputHolds_iff_finalSlots hi hz).1 ho)

/-- A block does not start by a step of its own (spec/60_exceptions.md R159). -/
theorem blockStep_busy {s t : State} (h : blockStep s = .next t) (hb : t.blk.busy = true) : s.blk.busy = true := by
  cases hs : s.blk.busy
  · rwa [blockStep_eq_of_not_busy h hs, hs] at hb
  · rfl

/-! ### Every agent keeps it -/

/-- A write outside every running block's regions leaves their output as it was (spec/20_memory.md R60 item 5). -/
theorem read_writeBytes_inOutput {s : State} {b : Block} {a x : Nat} {data : List Byte}
    (hfree : s.regionBusy a data.length = false) (hb : b ∈ s.blocks) (hbusy : b.busy = true) (hx : b.InOutput x) :
    Memory.read (Memory.writeBytes s.mem a data) x = Memory.read s.mem x := by
  refine Memory.read_writeBytes_other _ _ _ _ fun hin => ?_
  have hmeet : b.outputMeets a data.length = false := by
    by_contra hne
    rw [Bool.not_eq_false] at hne
    exact Bool.eq_false_iff.1 hfree (State.regionBusy_eq_true_iff.2 ⟨b, hb, hbusy, .inr hne⟩)
  exact Block.not_inOutput_of_not_meets hmeet hin hx

/-- A block that keeps its duties and changes memory in its own region alone leaves the running others' output as it was. -/
theorem MemSameExcept.read_inOutput {s t : State} {c : Block} {x : Nat}
    (h : MemSameExcept s t s.blk.outBase.toNat (4 * s.blk.width.toNat)) (hd : s.blk.KeepsDuties s.others)
    (hb : s.blk.busy = true) (hc : c ∈ s.others) (hbusy : c.busy = true) (hx : c.InOutput x) :
    Memory.read t.mem x = Memory.read s.mem x :=
  h x fun hin => Block.not_inOutput_of_not_conflicts ((hd hb).2 c hc hbusy) hin hx

/-- No agent touches the output of a running block that is not the active one. -/
theorem AgentStep.read_inOutput {s t : State} (h : AgentStep s t) (hs : s.blk.consistent = true)
    (hd : s.blk.KeepsDuties s.others) {c : Block} (hc : c ∈ s.others) (hbusy : c.busy = true) {x : Nat}
    (hx : c.InOutput x) : Memory.read t.mem x = Memory.read s.mem x := by
  cases h with
  | block h =>
    cases hb : s.blk.busy
    · rw [blockStep_eq_of_not_busy h hb]
    · exact (blockStep_memSameExcept h hs).read_inOutput hd hb hc hbusy hx
  | host h => rw [h.mem]
  | reset =>
    cases hb : s.blk.busy
    · rw [resetBlock_mem_idle hb]
    · exact (resetBlock_memSameExcept s).read_inOutput hd hb hc hbusy hx
  | memWrite a data hfree => exact read_writeBytes_inOutput hfree (List.mem_cons_of_mem _ hc) hbusy hx
  | memRead => rfl

/-- Whichever agent acts, the active block keeps its duties: START checks them, and a running block's configuration stays. -/
theorem AgentStep.keepsDuties {s t : State} (h : AgentStep s t) (hd : s.blk.KeepsDuties s.others) :
    t.blk.KeepsDuties s.others := by
  cases h with
  | block h => exact hd.of_sameConfig (blockStep_sameConfig h) (blockStep_busy h)
  | host h =>
    cases h with
    | ignored | read => exact hd
    | started _ hduty => exact Block.start_keepsDuties hduty
    | configured b hi hp => exact fun hb => absurd (hp.trans ((Block.not_busy_iff _).1 hi)) ((Block.busy_iff b).1 hb)
  | reset => exact fun hb => by simp at hb
  | memWrite | memRead => exact hd

/-- Whichever agent acts, R38 holds of the active block's output. -/
theorem AgentStep.outputHolds {s t : State} (h : AgentStep s t) (hc : s.blk.consistent = true)
    (ho : s.blk.OutputHolds s.mem) : t.blk.OutputHolds t.mem := by
  cases h with
  | block h => exact blockStep_outputHolds h hc ho
  | host h =>
    cases h with
    | ignored | read => exact ho
    | started => exact (Block.outputHolds_zfill_iff rfl).2 fun i hi => absurd hi (Nat.not_lt_zero i)
    | configured b hi hp => exact Block.outputHolds_of_idle (hp.trans ((Block.not_busy_iff _).1 hi))
  | reset => exact Block.outputHolds_of_idle (by simp)
  | memWrite a data hfree =>
    exact ho.congr_mem hc fun hb x hx => read_writeBytes_inOutput hfree List.mem_cons_self hb hx
  | memRead => exact ho

/-- The invariant does not depend on the order of the blocks. -/
theorem State.Inv.of_perm {s u : State} (h : s.Inv) (hp : u.blocks.Perm s.blocks) (hm : u.mem = s.mem) : u.Inv := by
  obtain ⟨hc, hd, ho⟩ := h
  exact ⟨State.consistent_of_perm hc hp hm, hd.of_perm hp, fun b hb => hm ▸ ho b (hp.mem_iff.1 hb)⟩

/-- Every agent keeps the invariant. -/
theorem AgentStep.inv {s t : State} (h : AgentStep s t) (hs : s.Inv) : t.Inv := by
  obtain ⟨hc, hd, ho⟩ := hs
  have hblk := State.consistent_blk hc
  obtain ⟨hduty, hothers⟩ := State.dutiesHold_iff.1 hd
  refine ⟨h.consistent hc, State.dutiesHold_iff.2 (h.others.symm ▸ ⟨h.keepsDuties hduty, hothers⟩), fun b hb => ?_⟩
  rcases List.mem_cons.1 hb with rfl | hb
  · exact h.outputHolds hblk (ho _ List.mem_cons_self)
  · have hb : b ∈ s.others := h.others ▸ hb
    have hmem : b ∈ s.blocks := List.mem_cons_of_mem _ hb
    exact (ho b hmem).congr_mem ((State.consistent_iff.1 hc).2 b hmem) fun hbusy x hx =>
      h.read_inOutput hblk hduty hb hbusy hx

/-- Settles O57: the agent of the turn keeps the active block's part of the invariant, and the other blocks' memory. -/
theorem stepKeepsOutputInvariant : Obligations.StepKeepsOutputInvariant := by
  intro s t hs h
  obtain ⟨u, hp, hm, ha⟩ := step_agentStep h
  exact ha.inv (hs.of_perm hp hm)

end Sys2Proof.Machine
end

section
/-! PROOFS. What a step does to the cursor, the index and the status flags (spec/10_state.md R18, R25, R26), and the steps
that do nothing or reset. -/

namespace Sys2Proof.Machine

/-! ### The cursor and the index -/

/-- A token moves CUR past the bytes that it has inside the input (spec/00_scope.md R11, spec/10_state.md R25). -/
theorem TokenStep.cur {s t : State} (h : TokenStep s t) :
    ∃ n, (n = 0 ∨ s.blk.need n = true) ∧ t.blk.cur = (s.blk.advance n).cur := by
  cases h with
  | short n hn => exact ⟨n, hn, rfl⟩
  | first n v _ hn _ => exact ⟨n, .inr hn, by simp⟩
  | bctrl n0 n1 _ hn => exact ⟨1, .inr hn, rfl⟩
  | bpack run _ hn => exact ⟨_, .inr hn, by simp⟩
  | bres n o _ hn _ => exact ⟨n, hn, by simp⟩
  | rem n d _ hn _ => exact ⟨n, .inr hn, by simp⟩

/-- A running block's step moves CUR up, inside the input (spec/10_state.md R25). -/
theorem blockStep_cur {s t : State} (h : blockStep s = .next t) (hc : s.blk.consistent = true)
    (hb : s.blk.busy = true) : s.blk.cur.toNat ≤ t.blk.cur.toNat ∧ t.blk.cur.toNat ≤ s.blk.inLen.toNat := by
  obtain ⟨-, -, hcur, -⟩ := Block.busy_bounds hc hb
  rcases blockStep_cases h with ⟨-, rfl⟩ | ⟨-, h⟩ | ⟨-, -, h⟩
  · exact ⟨le_rfl, hcur⟩
  · rcases zfillStep_next_iff.1 h with ⟨-, rfl⟩ | ⟨-, -, rfl⟩ <;> exact ⟨le_rfl, hcur⟩
  · obtain ⟨n, hn, ht⟩ := h.cur
    rw [ht]
    exact ⟨by rw [Block.advance_cur_of_fits hn]; omega, Block.advance_cur_le hn hcur⟩

/-- A running block's step leaves IDX, or moves it past one slot of the line (spec/10_state.md R26). -/
theorem blockStep_idx {s t : State} (h : blockStep s = .next t) (hc : s.blk.consistent = true) :
    t.blk.idx = s.blk.idx
      ∨ s.blk.idx.toNat < s.blk.width.toNat ∧ t.blk.idx.toNat = s.blk.idx.toNat + 1 := by
  rcases blockStep_cases h with ⟨-, rfl⟩ | ⟨-, h⟩ | ⟨-, -, h⟩
  · exact .inl rfl
  · rcases zfillStep_next_iff.1 h with ⟨-, rfl⟩ | ⟨-, -, rfl⟩ <;> exact .inl rfl
  · rcases h.stores hc with ⟨-, hidx, -⟩ | ⟨hlt, -, hidx, -⟩
    · exact .inl hidx
    · exact .inr ⟨hlt, by rw [hidx, toNat_succ_of_lt hlt]⟩

/-- Settles O22: CUR and IDX of the one block that steps, over a configuration that it does not write. -/
theorem cursorAndIndexOnlyAdvance : Obligations.CursorAndIndexOnlyAdvance := by
  intro s t hs hb hsched h
  rw [step_of_sched_nil hsched] at h
  have hc := State.consistent_blk hs
  have hcfg := blockStep_sameConfig h
  obtain ⟨-, -, -, hle⟩ := Block.busy_bounds hc hb
  obtain ⟨hup, hin⟩ := blockStep_cur h hc hb
  rw [hcfg.inLen, hcfg.width]
  refine ⟨hup, hin, ?_⟩
  rcases blockStep_idx h hc with hidx | ⟨hlt, hidx⟩ <;> rw [hidx]
  · exact ⟨.inl rfl, hle⟩
  · exact ⟨.inr rfl, hlt⟩

/-! ### The status flags -/

/-- A status flag goes from 1 to 0 (spec/10_state.md R18). -/
def Block.ClearsFlag (b c : Block) : Prop :=
  (b.done = true ∧ c.done = false) ∨ (b.trunc = true ∧ c.trunc = false)

theorem Block.not_clearsFlag_of_eq {b c : Block} (hd : c.done = b.done) (ht : c.trunc = b.trunc) : ¬b.ClearsFlag c := by
  simp [Block.ClearsFlag, hd, ht]

/-- The block clears no flag itself: while it runs none is set (spec/10_state.md R35). -/
theorem blockStep_not_clearsFlag {s t : State} (h : blockStep s = .next t) (hc : s.blk.consistent = true) :
    ¬s.blk.ClearsFlag t.blk := by
  cases hb : s.blk.busy
  · rw [blockStep_eq_of_not_busy h hb]
    exact Block.not_clearsFlag_of_eq rfl rfl
  · obtain ⟨hd, ht, -⟩ := Block.busy_bounds hc hb
    simp [Block.ClearsFlag, hd, ht]

/-- A write of a configuration register clears no flag. -/
theorem writeConfig_not_clearsFlag {f : Block → Block} {s : State} (hd : (f s.blk).done = s.blk.done)
    (ht : (f s.blk).trunc = s.blk.trunc) : ¬s.blk.ClearsFlag (writeConfig f s).blk := by
  cases hb : s.blk.busy
  · rw [writeConfig_idle hb]
    exact Block.not_clearsFlag_of_eq hd ht
  · rw [writeConfig_busy hb]
    exact Block.not_clearsFlag_of_eq rfl rfl

/-- Of the host's instructions only START clears a flag, in IDLE, where it enters ZFILL (R135, R137). -/
theorem exec_host_clearsFlag {i : Instr} {s t : State} (hi : Instr.isHost i = true) (h : exec i s = .next t)
    (hf : s.blk.ClearsFlag t.blk) :
    (∃ data, i = .hostStart data) ∧ s.blk.phase = .idle ∧ t.blk.phase = .zfill := by
  have same (b : Block) : ¬b.ClearsFlag b := Block.not_clearsFlag_of_eq rfl rfl
  cases i with
  | hostStart data =>
    rcases startOperation_next_iff.1 (show startOperation s = .next t from h) with ⟨-, rfl⟩ | ⟨hb, -, rfl⟩
    · exact absurd hf (same _)
    · exact ⟨⟨data, rfl⟩, (Block.not_busy_iff _).1 hb, rfl⟩
  | hostCtrl0 | hostWrStatus | hostWrProduced | hostWrConsumed | hostRd => cases h; exact absurd hf (same _)
  | hostWrInBase | hostWrInLen | hostWrOutBase | hostWrWidth =>
    cases h; exact absurd hf (writeConfig_not_clearsFlag rfl rfl)
  | pixS32 | pixS16 | pixB | blk | half | slotEsc32 | slotEsc16 | slotField | dltS32 | dltS16 | dltB =>
    simp [Instr.isHost, Instr.fits] at hi

/-- An access that is not refused is a key byte with, for a write, its four data bytes (log entry 11). -/
theorem accessBytes_ok {base : Word} {a : HostAccess} {bs : List Byte} (h : accessBytes base a = .ok bs) :
    ∃ k, k < 8 ∧ (bs = BitVec.ofNat 8 (8 + k) :: leBytes 4 a.data.toNat ∨ bs = [BitVec.ofNat 8 k]) := by
  unfold accessBytes at h
  dsimp only at h
  split_ifs at h with hsize halign hwin hoff hwrite
  all_goals
    simp only [Bool.not_eq_true', Bool.not_eq_false, inWindow_eq_true_iff] at hwin
    cases h
    refine ⟨(a.addr.toNat - base.toNat) / 4, by omega, ?_⟩
  · exact .inl rfl
  · exact .inr rfl

/-- Decoding an access uses up its bytes (spec/30_encoding.md R75). -/
theorem decodeAccess_rest {base : Word} {a : HostAccess} {i : Instr} {rest : List Byte}
    (h : decodeAccess base a = .ok (i, rest)) : rest = [] := by
  unfold decodeAccess at h
  cases hb : accessBytes base a with
  | error e => simp [hb] at h
  | ok bs =>
    simp only [hb, decode] at h
    obtain ⟨k, hk, rfl | rfl⟩ := accessBytes_ok hb
    · have hbit : ∀ k, k < 8 → (BitVec.ofNat 8 (8 + k)).getLsbD 3 = true := by decide
      simp only [decodeHost, hbit k hk, if_true] at h
      split_ifs at h
      obtain ⟨-, rfl⟩ := Prod.mk.inj (Except.ok.inj h)
      simp
    · have hbit : ∀ k, k < 8 → (BitVec.ofNat 8 k).getLsbD 3 = false := by decide
      simp only [decodeHost, hbit k hk, Bool.false_eq_true, if_false] at h
      split_ifs at h
      exact (Prod.mk.inj (Except.ok.inj h)).2.symm

/-- An access decodes to an instruction of the HOST context (spec/30_encoding.md R75). -/
theorem decodeAccess_isHost {base : Word} {a : HostAccess} {i : Instr} {rest : List Byte}
    (h : decodeAccess base a = .ok (i, rest)) : Instr.isHost i = true := by
  unfold decodeAccess at h
  cases hb : accessBytes base a with
  | error e => simp [hb] at h
  | ok bs => exact decode_host_isHost (by simpa [hb] using h)

/-- A register access that clears a flag decodes to START, in IDLE. -/
theorem hostAccess_clearsFlag {a : HostAccess} {s t : State} (h : hostAccess a s = .next t)
    (hf : s.blk.ClearsFlag t.blk) :
    ∃ data, decodeAccess s.blk.regBase a = .ok (.hostStart data, []) ∧ s.blk.phase = .idle ∧ t.blk.phase = .zfill := by
  unfold hostAccess at h
  cases hd : decodeAccess s.blk.regBase a with
  | error e => simp [hd] at h
  | ok p =>
    obtain ⟨i, rest⟩ := p
    simp only [hd] at h
    obtain rfl := decodeAccess_rest hd
    obtain ⟨⟨data, rfl⟩, hp, ht⟩ := exec_host_clearsFlag (decodeAccess_isHost hd) h hf
    exact ⟨data, rfl, hp, ht⟩

/-! ### The block of a turn -/

/-- No agent changes a block's REG_BASE (spec/00_scope.md R8). -/
theorem AgentStep.regBase {s t : State} (h : AgentStep s t) : t.blk.regBase = s.blk.regBase := by
  cases h with
  | block h => exact (blockStep_sameConfig h).regBase
  | host h =>
    cases h with
    | ignored | started | read => rfl
    | configured b _ _ hr => exact hr
  | reset => simp
  | memWrite | memRead => rfl

/-- A turn that leaves the same block active is that block's, and selecting it changed nothing. -/
theorem select_of_agentStep {base : Word} {s u t : State} (hsel : s.select base = some u) (ha : AgentStep u t)
    (hr : t.blk.regBase = s.blk.regBase) : base = s.blk.regBase ∧ u = s := by
  have hbase : base = s.blk.regBase := by rw [← (State.select_some hsel).1, ← ha.regBase, hr]
  simp only [State.select, hbase, if_true, Option.some.injEq] at hsel
  exact ⟨hbase, hsel.symm⟩

/-- Settles O58: while a block runs its flags are clear, so of the turns that keep it active only a reset, or an access that
is START in IDLE, can clear one. -/
theorem onlyStartAndResetClearFlags : Obligations.OnlyStartAndResetClearFlags := by
  intro s t hs h hr hf
  have hc := State.consistent_blk hs
  rcases step_cases h with ⟨-, h⟩ | ⟨u, us, hsched, h⟩
  · exact absurd hf (blockStep_not_clearsFlag h hc)
  cases u with
  | block base =>
    obtain ⟨u, hsel, h⟩ := onBlock_next_iff.1 h
    obtain ⟨-, rfl⟩ := select_of_agentStep hsel (.block h) hr
    have hnone := blockStep_not_clearsFlag h hc
    exact absurd hf hnone
  | access base a =>
    obtain ⟨u, hsel, h⟩ := onBlock_next_iff.1 h
    obtain ⟨rfl, rfl⟩ := select_of_agentStep hsel (.host (hostAccess_cases h)) hr
    obtain ⟨data, hd, hp, ht⟩ := hostAccess_clearsFlag h hf
    exact .inr ⟨a, data, us, hsched, hd, hp, ht⟩
  | reset base =>
    obtain ⟨u, hsel, h⟩ := onBlock_next_iff.1 h
    cases h
    obtain ⟨rfl, -⟩ := select_of_agentStep hsel .reset hr
    exact .inl ⟨us, hsched⟩
  | memWrite addr data =>
    obtain ⟨-, -, -, rfl⟩ := memWrite_next_iff.1 h
    exact absurd hf (Block.not_clearsFlag_of_eq rfl rfl)
  | memRead addr count =>
    obtain ⟨-, bs, -, rfl⟩ := memRead_next_iff.1 h
    exact absurd hf (Block.not_clearsFlag_of_eq rfl rfl)

/-! ### Reset and IDLE -/

/-- A reset turn of the active block is its reset, with the turn taken off the schedule (spec/70_reset_and_hazards.md R161). -/
theorem step_of_sched_reset {s : State} {us : List Turn} (h : s.sched = .reset s.blk.regBase :: us) :
    step s = .next (resetBlock { s with sched := us }) := by
  simp only [step, nextTurn, h, takeTurn, onBlock, State.select, if_true]

/-- Settles O52: the step is the block's reset, which writes at most its own output region. -/
theorem resetInputClearsTheBlock : Obligations.ResetInputClearsTheBlock := by
  intro s us hsched
  refine ⟨_, step_of_sched_reset hsched, resetBlock_blk _, resetBlock_others _, resetBlock_sched _, fun r => ?_,
    fun hp => ?_, ?_⟩
  · rw [resetBlock_blk, Block.atReset_readReg]
  · exact resetBlock_mem_idle ((Block.not_busy_iff _).2 hp)
  · exact resetBlock_memSameExcept { s with sched := us }

/-- Settles O17: both turns are the block's own step, which IDLE makes none. -/
theorem idleBlockTakesNoStep : Obligations.IdleBlockTakesNoStep := by
  intro s hp
  refine ⟨fun hs => ?_, fun us hs => ?_⟩
  · rw [step_of_sched_nil hs, blockStep_of_idle hp]
  · rw [step_of_sched_block hs]
    exact blockStep_of_idle hp

/-- A platform of idle blocks over a canonical memory meets the invariant: R38 speaks of running blocks (log entry 15). -/
theorem State.inv_of_idle {s : State} (hm : Memory.wf s.mem = true) (h : ∀ b ∈ s.blocks, b.phase = .idle) : s.Inv := by
  have hidle {b : Block} (hb : b ∈ s.blocks) : b.busy = false := (Block.not_busy_iff b).2 (h b hb)
  refine ⟨State.consistent_iff.2 ⟨hm, fun b hb => Block.consistent_of_idle (h b hb)⟩, ⟨fun b hb hbusy => ?_, ?_⟩,
    fun b hb => Block.outputHolds_of_idle (h b hb)⟩
  · simp [hidle hb] at hbusy
  · refine List.pairwise_of_forall_mem_list fun b hb c _ hbusy => ?_
    simp [hidle hb] at hbusy

/-- Settles O54: every block of a platform is idle after reset, and no memory is written. -/
theorem resetStateMeetsInvariant : Obligations.ResetStateMeetsInvariant := by
  have hinv (base : Word) (others : List Word) (holes : List Hole) : (State.resetOn base others holes).Inv := by
    refine State.inv_of_idle Memory.wf_nil fun b hb => ?_
    obtain ⟨w, -, rfl⟩ := List.mem_map.1 (State.resetOn_blocks base others holes ▸ hb)
    exact Block.atReset_phase w
  exact ⟨hinv _ _ _, hinv⟩

/-- Refutes O59: in IDLE, with CUR and IN_LEN at 1, the host writes 0 to IN_LEN, and CUR keeps its value (log entry 15). -/
theorem not_cursorStaysInsideInputInEveryPhase : ¬Obligations.CursorStaysInsideInputInEveryPhase := by
  intro h
  have hfail := h
    { State.reset with
      blk := { Block.atReset 0xFFFFFFE0#32 with cur := 1#32, inLen := 1#32 }
      sched := [.access 0xFFFFFFE0#32 ⟨true, 0xFFFFFFEC#32, 4, 0#32⟩] }
    { State.reset with blk := { Block.atReset 0xFFFFFFE0#32 with cur := 1#32, inLen := 0#32 } } (by decide) rfl
  exact absurd hfail (by decide)

end Sys2Proof.Machine
end

section
/-! PROOFS. The packed-integer decoder (spec/42_block.md R108, R109): a provisional offset fits its 16 bits. -/

namespace Sys2Proof.Machine

/-- A raw field is `n` bits of the run (R108). -/
theorem rawField_eq_mod (pack : BitVec 120) (n f : Nat) : rawField pack n f = (pack.toNat >>> (f * n)) % 2 ^ n := by
  rw [rawField, Nat.one_shiftLeft, Nat.and_two_pow_sub_one_eq_mod]

theorem rawField_lt (pack : BitVec 120) (n f : Nat) : rawField pack n f < 2 ^ n := by
  rw [rawField_eq_mod]
  exact Nat.mod_lt _ (Nat.two_pow_pos n)

/-- `zero_at(n)` is itself a raw value of width `n` (R69, R109). -/
theorem zeroAt_lt (n : Nat) : zeroAt n < 2 ^ n := by
  have hpos := Nat.two_pow_pos n
  unfold zeroAt
  split_ifs with hn
  · have hle : 2 ^ (n - 1) ≤ 2 ^ n := Nat.pow_le_pow_right (by decide) (Nat.sub_le n 1)
    rw [Nat.one_shiftLeft]
    omega
  · exact hpos

/-- An offset of a width up to 15 does not wrap in its 16 bits (R33, R109). -/
theorem provisional_toInt (pack : BitVec 120) {n : Nat} (f : Nat) (hn : n ≤ 15) :
    (provisional pack n f).toInt = (rawField pack n f : Int) - zeroAt n := by
  have hraw := rawField_lt pack n f
  have hzero := zeroAt_lt n
  have hmax : 2 ^ n ≤ 2 ^ 15 := Nat.pow_le_pow_right (by decide) hn
  exact BitVec.toInt_ofInt_eq_self (by decide) (by omega) (by omega)

/-- Settles O8: the offset is exact, and a raw field of width `n` is below `2 ^ n`. -/
theorem provisionalOffsetsAreExact : Obligations.ProvisionalOffsetsAreExact := by
  intro pack n f hn
  have hraw : (rawField pack n f : Int) < 2 ^ n := by exact_mod_cast rawField_lt pack n f
  rw [provisional_toInt pack f hn]
  refine ⟨rfl, ?_, ?_⟩ <;> omega

end Sys2Proof.Machine
end

section
/-! PROOFS. The shared memory (spec/20_memory.md): its canonical form is unique, and another agent's access lands where it is
allowed, is refused where it meets a running block's regions, and is what START checks for its own block (R60). -/

namespace Sys2Proof.Machine

/-! ### The canonical form -/

/-- In a list of rising addresses, what an address reads is its entry. -/
theorem Memory.read_eq_some_iff {m : Memory} (h : m.Pairwise (fun c d => c.1 < d.1)) (x : Nat) (v : Byte) :
    Memory.read m x = some v ↔ (x, v) ∈ m := by
  induction m with
  | nil => simp [Memory.read]
  | cons c m ih =>
    obtain ⟨a, b⟩ := c
    obtain ⟨hlt, hp⟩ := List.pairwise_cons.1 h
    simp only [Memory.read, List.mem_cons, Prod.mk.injEq]
    split_ifs with hx
    · have hnot : (x, v) ∉ m := fun hmem => absurd (hlt _ hmem) (by simp [hx])
      simp [hx ▸ hnot, hx, eq_comm]
    · simp [hx, ih hp]

/-- Settles O10: both lists have the same entries, and there is one order of rising addresses. -/
theorem canonicalMemoriesThatReadAlikeAreEqual : Obligations.CanonicalMemoriesThatReadAlikeAreEqual := by
  intro m n hm hn h
  obtain ⟨hm, -⟩ := (Memory.wf_iff m).1 hm
  obtain ⟨hn, -⟩ := (Memory.wf_iff n).1 hn
  have hnodup {l : Memory} (hl : l.Pairwise (fun c d => c.1 < d.1)) : l.Nodup :=
    hl.imp fun hlt heq => absurd hlt (by simp [heq])
  have hmem (c : Host.Cell) : c ∈ m ↔ c ∈ n := by
    rw [← Memory.read_eq_some_iff hm, h, Memory.read_eq_some_iff hn]
  have hperm : m.Perm n := (List.perm_ext_iff_of_nodup (hnodup hm) (hnodup hn)).2 hmem
  exact hperm.eq_of_pairwise (fun _ _ _ _ h1 h2 => absurd h1 h2.asymm) hm hn

/-- Settles O55: whichever agent acts, it writes memory by the operations that keep the form. -/
theorem stepKeepsMemoryCanonical : Obligations.StepKeepsMemoryCanonical := by
  intro s t hwf h
  obtain ⟨u, -, hm, ha⟩ := step_agentStep h
  exact ha.mem_wf (hm ▸ hwf)

/-! ### Another agent's accesses -/

/-- Each byte written inside the address space reads as written (spec/20_memory.md R44). -/
theorem Memory.read_writeBytes (bs : List Byte) (m : Memory) (x j : Nat) (hx : x + bs.length ≤ Config.addrSpace)
    (hj : j < bs.length) : Memory.read (Memory.writeBytes m x bs) (x + j) = some (bs.getD j 0#8) := by
  induction bs generalizing m x j with
  | nil => simp at hj
  | cons b bs ih =>
    simp only [List.length_cons] at hx hj
    cases j with
    | zero =>
      rw [Memory.writeBytes, Memory.read_writeBytes_other _ _ _ _ (by omega), Memory.read_write _ _ _ _ (by omega)]
      simp
    | succ j =>
      rw [Memory.writeBytes, ← Nat.add_assoc, Nat.add_right_comm, ih _ _ _ (by omega) (by omega)]
      simp

/-- A write turn is the agent's write, with the turn taken off the schedule (log entry 1). -/
theorem step_of_sched_memWrite {s : State} {addr : Word} {data : List Byte} {us : List Turn}
    (h : s.sched = .memWrite addr data :: us) : step s = memWrite addr.toNat data { s with sched := us } := by
  simp only [step, nextTurn, h, takeTurn]

/-- A read turn is the agent's read, with the turn taken off the schedule (log entry 1). -/
theorem step_of_sched_memRead {s : State} {addr : Word} {count : Nat} {us : List Turn}
    (h : s.sched = .memRead addr count :: us) : step s = memRead addr.toNat count { s with sched := us } := by
  simp only [step, nextTurn, h, takeTurn]

/-- Settles O11: the write completes, and it changes the memory alone. -/
theorem agentWriteLands : Obligations.AgentWriteLands := by
  intro s addr data us hsched hfit hfree hback
  rw [step_of_sched_memWrite hsched]
  exact ⟨_, memWrite_next_iff.2 ⟨hfit, hfree, hback, rfl⟩, rfl, rfl,
    fun j hj => Memory.read_writeBytes data s.mem addr.toNat j hfit hj,
    fun x hx => Memory.read_writeBytes_other data s.mem addr.toNat x hx⟩

/-- Two ranges meet exactly when they have a byte in common. -/
theorem rangesMeet_eq_true_iff {a n b m : Nat} : rangesMeet a n b m = true ↔ SharesByte a n b m := by
  simp only [rangesMeet, decide_eq_true_eq, SharesByte]
  constructor
  · intro h
    exact ⟨max a b, by omega, by omega⟩
  · rintro ⟨x, hxa, hxb⟩
    omega

/-- A range that shares a byte with a running block's input or output region is busy (spec/20_memory.md R41). -/
theorem State.regionBusy_of_sharesByte {s : State} {b : Block} {a n : Nat} (hb : b ∈ s.blocks) (hbusy : b.busy = true)
    (h : SharesByte a n b.inBase.toNat b.inLen.toNat ∨ SharesByte a n b.outBase.toNat (4 * b.width.toNat)) :
    s.regionBusy a n = true :=
  State.regionBusy_eq_true_iff.2 ⟨b, hb, hbusy, h.imp rangesMeet_eq_true_iff.2 rangesMeet_eq_true_iff.2⟩

theorem memWrite_regionBusy {s : State} {a : Nat} {data : List Byte} (hfit : a + data.length ≤ Config.addrSpace)
    (h : s.regionBusy a data.length = true) : memWrite a data s = .refused .regionInUse := by
  simp [memWrite, hfit.not_gt, h]

theorem memRead_regionBusy {s : State} {a n : Nat} (h : s.regionBusy a n = true) :
    memRead a n s = .refused .regionInUse := by
  simp [memRead, h]

/-- Settles O12: the shared byte makes the range busy, which both accesses test. -/
theorem busyRegionsAreOutOfBounds : Obligations.BusyRegionsAreOutOfBounds := by
  intro s b addr us hb hbusy
  refine ⟨fun data hsched hfit hmeet => ?_, fun count hsched hmeet => ?_⟩
  · rw [step_of_sched_memWrite hsched]
    exact memWrite_regionBusy hfit (State.regionBusy_of_sharesByte hb hbusy hmeet)
  · rw [step_of_sched_memRead hsched]
    exact memRead_regionBusy (State.regionBusy_of_sharesByte hb hbusy hmeet)

/-! ### The duties that START checks -/

/-- Memory does not back an address exactly when a hole or a register window covers it (spec/20_memory.md R46, R53). -/
theorem State.backed_eq_false_iff {s : State} {x : Nat} :
    s.backed x = false ↔ ∃ h ∈ s.notMemory, h.base ≤ x ∧ x < h.base + h.size := by
  simp [State.backed, Hole.covers]

/-- A range is unbacked exactly when some byte of it is (spec/20_memory.md R60 item 4). -/
theorem State.unbackedIn_eq_true_iff {s : State} {a n : Nat} :
    s.unbackedIn a n = true ↔ ∃ x, (a ≤ x ∧ x < a + n) ∧ s.backed x = false := by
  simp only [State.unbackedIn, List.any_eq_true, rangesMeet_eq_true_iff, State.backed_eq_false_iff, SharesByte]
  constructor
  · rintro ⟨h, hmem, x, hx, hcov⟩
    exact ⟨x, hx, h, hmem, hcov⟩
  · rintro ⟨x, hx, h, hmem, hcov⟩
    exact ⟨h, hmem, x, hx, hcov⟩

/-- Two blocks conflict exactly when one's output region shares a byte with a region of the other's
(spec/60_exceptions.md R157). -/
theorem Block.conflicts_eq_true_iff {b c : Block} :
    b.conflicts c = true ↔
      SharesByte b.outBase.toNat (4 * b.width.toNat) c.inBase.toNat c.inLen.toNat
        ∨ SharesByte b.outBase.toNat (4 * b.width.toNat) c.outBase.toNat (4 * c.width.toNat)
        ∨ SharesByte b.inBase.toNat b.inLen.toNat c.outBase.toNat (4 * c.width.toNat) := by
  simp only [Block.conflicts, Block.outputMeets, Block.inputMeets, Bool.or_eq_true, rangesMeet_eq_true_iff]
  tauto

/-- The duties as START tests them (spec/20_memory.md R60, spec/60_exceptions.md R157). -/
theorem State.breaksDuty_iff {s : State} :
    s.BreaksDuty ↔ Config.addrSpace < s.blk.inBase.toNat + s.blk.inLen.toNat
      ∨ Config.addrSpace < s.blk.outBase.toNat + 4 * s.blk.width.toNat
      ∨ s.blk.outputMeets s.blk.inBase.toNat s.blk.inLen.toNat = true
      ∨ (s.unbackedIn s.blk.inBase.toNat s.blk.inLen.toNat
          || s.unbackedIn s.blk.outBase.toNat (4 * s.blk.width.toNat)) = true
      ∨ (s.others.any fun c => c.busy && s.blk.conflicts c) = true := by
  simp only [State.BreaksDuty, Block.outputMeets, rangesMeet_eq_true_iff, Bool.or_eq_true, State.unbackedIn_eq_true_iff,
    or_and_right, exists_or, List.any_eq_true, Bool.and_eq_true, Block.conflicts_eq_true_iff]

/-- START finds no duty broken exactly when none is. -/
theorem State.brokenDuty_eq_none_iff {s : State} : s.brokenDuty = none ↔ ¬s.BreaksDuty := by
  rw [State.breaksDuty_iff]
  unfold State.brokenDuty
  dsimp only
  split_ifs with hin hout hmeet hback hconf
  · simp [hin]
  · simp [hout]
  · simp [hmeet]
  · simp only [hback, true_or, or_true, not_true_eq_false]
  · simp only [hconf, or_true, not_true_eq_false]
  · simp only [hin, hout, hmeet, hback, hconf, Bool.false_eq_true, or_self, not_false_eq_true]

/-- Settles O45: START tests every duty. -/
theorem startOverBrokenDutyIsRefused : Obligations.StartOverBrokenDutyIsRefused := by
  intro data s hp hbroken
  change ∃ r, startOperation s = .refused r
  cases hd : s.brokenDuty with
  | none => exact absurd hbroken (State.brokenDuty_eq_none_iff.1 hd)
  | some r => exact ⟨r, by simp [startOperation, (Block.not_busy_iff _).2 hp, hd]⟩

end Sys2Proof.Machine
end

section
/-! PROOFS. What the block's own step touches (spec/20_memory.md R42, R44, R45): it writes one slot of its output region at
most, and of memory it reads the input bytes from CUR to IN_LEN alone. -/

namespace Sys2Proof.Machine

/-! ### What the block's step leaves alone -/

/-- The block's step changes the active block and the memory alone (spec/20_memory.md R58). -/
theorem blockStep_sameAround {s t : State} (h : blockStep s = .next t) : SameAround s t := by
  rcases blockStep_cases h with ⟨-, rfl⟩ | ⟨-, h⟩ | ⟨-, -, h⟩
  · exact ⟨rfl, rfl, rfl, rfl, rfl, rfl⟩
  · rcases zfillStep_next_iff.1 h with ⟨-, rfl⟩ | ⟨-, -, rfl⟩ <;> exact ⟨rfl, rfl, rfl, rfl, rfl, rfl⟩
  · cases h <;> exact ⟨rfl, rfl, rfl, rfl, rfl, rfl⟩

/-- Settles O25: with nothing scheduled the step is the block's own. -/
theorem blockWritesOnlyItsOutputRegion : Obligations.BlockWritesOnlyItsOutputRegion := by
  intro s t hs hsched h
  rw [step_of_sched_nil hsched] at h
  exact ⟨blockStep_memSameExcept h (State.consistent_blk hs), blockStep_sameAround h⟩

/-! ### Two runs of the block -/

/-- Two states of one block on one platform, in runs from the memories `m` and `m'`: where those agreed, theirs agree. -/
structure State.Alike (m m' : Memory) (s s' : State) : Prop where
  blk : s'.blk = s.blk
  others : s'.others = s.others
  holes : s'.holes = s.holes
  mem : ∀ a, Memory.read m' a = Memory.read m a → Memory.read s'.mem a = Memory.read s.mem a

/-- If the first run answers a next state, so does the second, and the two states are alike. -/
def Follows (m m' : Memory) (r r' : Result State) : Prop :=
  ∀ t, r = .next t → ∃ t', r' = .next t' ∧ State.Alike m m' t t'

section
variable {m m' : Memory} {s s' : State}

theorem State.Alike.follows (h : State.Alike m m' s s') : Follows m m' (.next s) (.next s') := by
  rintro t ⟨⟩
  exact ⟨s', rfl, h⟩

theorem State.Alike.setBlk (h : State.Alike m m' s s') (b : Block) : State.Alike m m' (s.setBlk b) (s'.setBlk b) :=
  ⟨rfl, h.others, h.holes, h.mem⟩

theorem Follows.of_refused {q : Refusal} {r' : Result State} : Follows m m' (.refused q) r' := by
  rintro t ⟨⟩

/-- What follows alike from alike results follows alike from the start. -/
theorem Follows.andThen {r r' : Result State} {k k' : State → Result State} (hr : Follows m m' r r')
    (hk : ∀ t t', State.Alike m m' t t' → Follows m m' (k t) (k' t')) :
    Follows m m' (Machine.andThen r k) (Machine.andThen r' k') := by
  intro u hu
  obtain ⟨t, ht, hu⟩ := andThen_next_iff.1 hu
  obtain ⟨t', rfl, ha⟩ := hr t ht
  exact hk t t' ha u hu

theorem State.Alike.backed (h : State.Alike m m' s s') (a : Nat) : s'.backed a = s.backed a := by
  simp [State.backed, State.notMemory, State.blocks, h.blk, h.others, h.holes]

/-- Writing one byte in two memories keeps every agreement between them. -/
theorem Memory.read_write_congr (x : Nat) (v : Byte) {a : Nat}
    (h : Memory.read m' a = Memory.read m a) :
    Memory.read (Memory.write m' x v) a = Memory.read (Memory.write m x v) a := by
  by_cases hx : x < Config.addrSpace
  · rw [Memory.read_write _ _ _ _ hx, Memory.read_write _ _ _ _ hx, h]
  · simpa [Memory.write, hx] using h

/-- Writing one word in two memories keeps every agreement between them. -/
theorem Memory.read_writeWord_congr (x : Nat) (v : Word) {a : Nat}
    (h : Memory.read m' a = Memory.read m a) :
    Memory.read (Memory.writeWord m' x v) a = Memory.read (Memory.writeWord m x v) a :=
  Memory.read_write_congr _ _ (Memory.read_write_congr _ _ (Memory.read_write_congr _ _ (Memory.read_write_congr _ _ h)))

theorem State.Alike.writeWord (h : State.Alike m m' s s') (a : Nat) (v : Word) :
    Follows m m' (s.writeWord a v) (s'.writeWord a v) := by
  intro t ht
  obtain ⟨hfit, hback, rfl⟩ := State.writeWord_next_iff.1 ht
  refine ⟨_, State.writeWord_next_iff.2 ⟨hfit, by simpa only [h.backed] using hback, rfl⟩, h.blk, h.others, h.holes, ?_⟩
  exact fun x hx => Memory.read_writeWord_congr a v (h.mem x hx)

/-! ### The sequencer's operations in two runs -/

theorem State.Alike.finish (h : State.Alike m m' s s') : State.Alike m m' s.finish s'.finish := by
  rw [State.finish, State.finish, h.blk]
  exact h.setBlk _

theorem State.Alike.nextPhase (h : State.Alike m m' s s') : State.Alike m m' s.nextPhase s'.nextPhase := by
  rw [State.nextPhase, State.nextPhase, h.blk]
  exact h.setBlk _

theorem State.Alike.endShort (h : State.Alike m m' s s') (n : Nat) :
    State.Alike m m' (endShort n s) (endShort n s') := by
  rw [Machine.endShort, Machine.endShort, h.blk]
  exact (h.setBlk _).finish

theorem State.Alike.consume (h : State.Alike m m' s s') (n : Nat) {k : State → Result State}
    (hk : ∀ t t', State.Alike m m' t t' → Follows m m' (k t) (k t')) :
    Follows m m' (consume n s k) (consume n s' k) := by
  unfold Machine.consume
  rw [h.blk]
  split_ifs
  · exact hk _ _ (h.setBlk _)
  · exact h.finish.follows

theorem State.Alike.finaliseSlot (h : State.Alike m m' s s') (v : Word) :
    Follows m m' (finaliseSlot v s) (finaliseSlot v s') := by
  unfold Machine.finaliseSlot
  rw [h.blk]
  refine (h.writeWord _ _).andThen fun t t' ht => ?_
  rw [ht.blk]
  exact (ht.setBlk _).follows

theorem State.Alike.storeFirst (h : State.Alike m m' s s') (v : Word) :
    Follows m m' (storeFirst v s) (storeFirst v s') := by
  unfold Machine.storeFirst
  rw [h.blk]
  refine (h.writeWord _ _).andThen fun t t' ht => ?_
  rw [ht.blk]
  exact (ht.setBlk _).nextPhase.follows

theorem State.Alike.addDelta (h : State.Alike m m' s s') (d : Word) : Follows m m' (addDelta d s) (addDelta d s') := by
  unfold Machine.addDelta
  rw [h.blk]
  exact (h.finaliseSlot _).andThen fun t t' ht => ht.nextPhase.follows

theorem State.Alike.resolveSlot (h : State.Alike m m' s s') (o : Word) :
    Follows m m' (resolveSlot o s) (resolveSlot o s') := by
  unfold Machine.resolveSlot
  rw [h.blk]
  refine (h.finaliseSlot _).andThen fun t t' ht => ?_
  rw [ht.blk]
  exact (ht.setBlk _).follows

theorem Follows.inContext {r r' : Result State} {ok ok' : Bool} (h : Follows m m' r r') (hok : ok' = ok) :
    Follows m m' (inContext ok r) (inContext ok' r') := by
  subst hok
  cases ok'
  · exact .of_refused
  · exact h

/-- A stream token does the same in both runs. -/
theorem State.Alike.exec_token {i : Instr} (h : State.Alike m m' s s') (hi : Instr.isHost i = false) :
    Follows m m' (exec i s) (exec i s') := by
  cases i with
  | pixS32 lit => exact (h.consume 1 fun _ _ h => h.consume 4 fun _ _ h => h.storeFirst _).inContext (by rw [h.blk])
  | pixS16 lit => exact (h.consume 1 fun _ _ h => h.consume 2 fun _ _ h => h.storeFirst _).inContext (by rw [h.blk])
  | pixB b => exact (h.consume 1 fun _ _ h => h.storeFirst _).inContext (by rw [h.blk])
  | blk n0 n1 => exact (h.consume 1 fun _ _ h => h.blk ▸ (h.setBlk _).follows).inContext (by rw [h.blk])
  | half n run => exact (h.consume n.toNat fun _ _ h => h.blk ▸ (h.setBlk _).follows).inContext (by rw [h.blk])
  | slotEsc32 lit => exact (h.consume 4 fun _ _ h => h.resolveSlot _).inContext (by rw [h.blk])
  | slotEsc16 lit => exact (h.consume 2 fun _ _ h => h.resolveSlot _).inContext (by rw [h.blk])
  | slotField => exact (h.blk ▸ h.resolveSlot _ : Follows m m' _ _).inContext (by rw [h.blk])
  | dltS32 lit => exact (h.consume 1 fun _ _ h => h.consume 4 fun _ _ h => h.addDelta _).inContext (by rw [h.blk])
  | dltS16 lit => exact (h.consume 1 fun _ _ h => h.consume 2 fun _ _ h => h.addDelta _).inContext (by rw [h.blk])
  | dltB b => exact (h.consume 1 fun _ _ h => h.addDelta _).inContext (by rw [h.blk])
  | hostStart | hostCtrl0 | hostWrStatus | hostWrInBase | hostWrInLen | hostWrOutBase | hostWrWidth
  | hostWrProduced | hostWrConsumed | hostRd => simp [Instr.isHost, Instr.fits] at hi

theorem State.Alike.zfillStep (h : State.Alike m m' s s') : Follows m m' (zfillStep s) (zfillStep s') := by
  unfold Machine.zfillStep
  rw [h.blk]
  split_ifs
  · exact h.finish.follows
  · refine (h.writeWord _ _).andThen fun t t' ht => ?_
    rw [ht.blk]
    exact (ht.setBlk _).follows

/-! ### Fetching in two runs -/

/-- A read of bytes depends on those bytes alone. -/
theorem State.Alike.readBytes (h : State.Alike m m' s s') {a n : Nat}
    (hm : ∀ x, a ≤ x → x < a + n → Memory.read s'.mem x = Memory.read s.mem x) :
    s'.readBytes a n = s.readBytes a n := by
  induction n generalizing a with
  | zero => rfl
  | succ n ih =>
    have hbyte : s'.readByte a = s.readByte a := by
      simp only [State.readByte, h.backed, hm a le_rfl (by omega)]
    have hrest := ih (a := a + 1) fun x h1 h2 => hm x (by omega) (by omega)
    simp only [State.readBytes, hbyte, hrest]

/-- The two runs hold the same input from CUR to IN_LEN. -/
def State.SameInput (s s' : State) : Prop :=
  ∀ k, s.blk.cur.toNat ≤ k → k < s.blk.inLen.toNat →
    Memory.read s'.mem (s.blk.inAddr k) = Memory.read s.mem (s.blk.inAddr k)

/-- A read that `need` allows gives the same input bytes in both runs (spec/20_memory.md R51). -/
theorem State.Alike.inputBytes (h : State.Alike m m' s s') (hin : s.SameInput s') {k n : Nat}
    (hn : s.blk.need (k + n) = true) : s'.inputBytes k n = s.inputBytes k n := by
  unfold State.inputBytes
  rw [h.blk]
  refine h.readBytes fun x h1 h2 => ?_
  simp only [Block.need, decide_eq_true_eq] at hn
  unfold Block.inAddr at h1 h2
  have hx := hin (x - s.blk.inBase.toNat) (by omega) (by omega)
  rwa [Block.inAddr, Nat.add_sub_cancel' (by omega)] at hx

/-- Both runs fetch the same token. -/
theorem State.Alike.fetch (h : State.Alike m m' s s') (hin : s.SameInput s') (c : Ctx) : fetch c s' = fetch c s := by
  unfold Machine.fetch
  rw [h.blk]
  split_ifs with hlead
  · rw [h.inputBytes hin (by simpa using hlead)]
    congr 1
    funext lead
    split_ifs with htail
    · rw [h.inputBytes hin htail]
    · rfl
  · rfl

/-- What a stream context fetches is never a host instruction (spec/30_encoding.md R62). -/
theorem fetch_isHost {c : Ctx} {s : State} {i : Instr} (hc : c ≠ .host) (h : fetch c s = .next (.token i)) :
    Instr.isHost i = false := by
  obtain ⟨bs, hb⟩ : ∃ bs, Fetched.token i = toFetched (decode c bs) := by
    rcases fetch_next_cases h with ⟨-, hf⟩ | ⟨bs, -, -, -, hf⟩
    · exact ⟨[], hf⟩
    · exact ⟨bs, hf⟩
  cases hd : decode c bs with
  | error e => simp [hd, toFetched] at hb
  | ok p =>
    simp only [hd, toFetched, Fetched.token.injEq] at hb
    exact hb ▸ decode_stream_isHost hc hd

/-- The block's step does the same in two runs that hold the same input. -/
theorem State.Alike.blockStep (h : State.Alike m m' s s') (hin : s.SameInput s') :
    Follows m m' (blockStep s) (blockStep s') := by
  unfold Machine.blockStep
  rw [h.blk]
  cases hc : s.blk.ctx with
  | none =>
    dsimp only
    split_ifs
    · exact h.zfillStep
    · exact h.follows
  | some c =>
    dsimp only
    rw [h.fetch hin]
    intro t ht
    obtain ⟨f, hf, ht⟩ := andThen_next_iff.1 ht
    rw [hf, andThen_next]
    cases f with
    | token i => exact h.exec_token (fetch_isHost (Block.ctx_ne_host hc) hf) t ht
    | short n => exact (h.endShort n).follows t ht

end

/-- Settles O26: the two runs start alike, and their one step is the block's own. -/
theorem blockReadsOnlyItsInput : Obligations.BlockReadsOnlyItsInput := by
  intro s s' t hs hs' hblk hothers hholes hin h
  rw [step_of_sched_nil hs] at h
  have halike : State.Alike s.mem s'.mem s s' := ⟨hblk, hothers, hholes, fun _ ha => ha⟩
  obtain ⟨t', ht', hsame⟩ := halike.blockStep hin t h
  exact ⟨t', by rw [step_of_sched_nil hs', ht'], hsame.blk, hsame.mem⟩

end Sys2Proof.Machine
end

section
/-! PROOFS. DECODE() stays inside the line and inside WIDTH (spec/40_sequencer.md R80, R91): each part of it finalises at most
its own slots, and CUR passes a byte only where `need` allows it. -/

namespace Sys2Proof.Machine

/-- At most `n` slots are final, and CUR is inside the line. -/
structure Progress.Within (line : List Byte) (n : Nat) (p : Progress) : Prop where
  out_le : p.out.length ≤ n
  cur_le : p.cur ≤ line.length

theorem lineNeed_eq_true_iff {line : List Byte} {cur n : Nat} :
    lineNeed line cur n = true ↔ cur + n ≤ line.length := decide_eq_true_iff

/-- SINGLE() keeps CUR inside the line (spec/41_first_pixel.md R97, R102). -/
theorem lineSingle_cur_le {line : List Byte} {cur : Nat} (h : cur ≤ line.length) :
    (lineSingle line cur).1 ≤ line.length := by
  simp only [lineSingle, Bool.not_eq_true', ← Bool.not_eq_true, lineNeed_eq_true_iff]
  split_ifs <;> dsimp only <;> omega

section
variable {line : List Byte} {n : Nat} {p : Progress}

theorem Progress.Within.mono {k : Nat} (h : p.Within line n) (hk : n ≤ k) : p.Within line k :=
  ⟨h.out_le.trans hk, h.cur_le⟩

theorem Progress.Within.setCur (h : p.Within line n) {cur : Nat} (hcur : cur ≤ line.length) :
    Progress.Within line n { p with cur := cur } :=
  ⟨h.out_le, hcur⟩

theorem Progress.Within.push (h : p.Within line n) (v : Word) : (p.push v).Within line (n + 1) :=
  ⟨by simpa [Progress.push] using h.out_le, h.cur_le⟩

/-- What goes on stays within its bound if what it goes on from did. -/
theorem goOn_within {r : Progress × Bool} {f : Progress → Progress × Bool} (hr : r.1.Within line n)
    (hf : (f r.1).1.Within line n) : (goOn r f).1.Within line n := by
  unfold goOn
  split_ifs
  · exact hf
  · exact hr

/-- One slot of a block finalises at most one slot (spec/42_block.md R112). -/
theorem Progress.Within.lineSlot (h : p.Within line n) (o : BitVec 16) : (lineSlot line o p).1.Within line (n + 1) := by
  simp only [Machine.lineSlot, Bool.not_eq_true', ← Bool.not_eq_true, lineNeed_eq_true_iff]
  split_ifs with h32 hneed h16 hneed
  · exact (h.setCur hneed).push _
  · exact h.mono n.le_succ
  · exact (h.setCur hneed).push _
  · exact h.mono n.le_succ
  · exact h.push _

/-- The slots of a block finalise at most one slot each. -/
theorem Progress.Within.lineSlots (h : p.Within line n) (os : List (BitVec 16)) :
    (lineSlots line os p).1.Within line (n + os.length) := by
  induction os generalizing n p with
  | nil => exact h
  | cons o os ih =>
    have hslot := h.lineSlot o
    rw [List.length_cons, Nat.add_comm os.length, ← Nat.add_assoc]
    exact goOn_within (hslot.mono (Nat.le_add_right ..)) (ih hslot)

/-- A block finalises at most its 16 slots (spec/42_block.md R119). -/
theorem Progress.Within.lineBlock (h : p.Within line n) : (lineBlock line p).1.Within line (n + 16) := by
  have h16 := h.mono (Nat.le_add_right n 16)
  simp only [Machine.lineBlock, Bool.not_eq_true', ← Bool.not_eq_true, lineNeed_eq_true_iff]
  split_ifs with hctrl hrun0 hrun1
  · have hslots (os : List (BitVec 16)) (h16 : os.length = 16) := h16 ▸ (h.setCur hrun1).lineSlots os
    exact hslots _ (by simp [runOffsets])
  · exact h16.setCur hrun0
  · exact h16.setCur hctrl
  · exact h16

/-- `k` blocks finalise at most 16 slots each. -/
theorem Progress.Within.lineBlocks (h : p.Within line n) (k : Nat) :
    (lineBlocks line k p).1.Within line (n + 16 * k) := by
  induction k generalizing n p with
  | zero => exact h
  | succ k ih =>
    have hblock := h.lineBlock
    rw [Nat.mul_succ, Nat.add_comm (16 * k), ← Nat.add_assoc]
    exact goOn_within (hblock.mono (Nat.le_add_right ..)) (ih hblock)

/-- `k` remainder tokens finalise at most one slot each (spec/43_remainder.md R123). -/
theorem Progress.Within.lineRest (h : p.Within line n) (k : Nat) : (lineRest line k p).1.Within line (n + k) := by
  induction k generalizing n p with
  | zero => exact h
  | succ k ih =>
    have hcur := lineSingle_cur_le h.cur_le
    unfold Machine.lineRest
    generalize lineSingle line p.cur = r at hcur ⊢
    rcases r with ⟨cur, _ | d⟩
    · exact (h.setCur hcur).mono (Nat.le_add_right ..)
    · rw [Nat.add_comm k, ← Nat.add_assoc]
      exact ih ((h.setCur hcur).push _)

end

/-- The first pixel, the blocks and the remainder make up the line (spec/40_sequencer.md R81). -/
theorem nblock_add_nrest {w : Word} (h : w ≠ 0#32) : 1 + 16 * nblock w + nrest w = w.toNat := by
  have hpos : w.toNat ≠ 0 := fun h0 => h (BitVec.eq_of_toNat_eq h0)
  unfold nblock nrest
  omega

theorem decodeLine_within (line : List Byte) (w : Word) : (decodeLine line w).Within line w.toNat := by
  unfold decodeLine
  split_ifs with hw
  · exact ⟨Nat.zero_le _, Nat.zero_le _⟩
  have hcur := lineSingle_cur_le line.length.zero_le
  generalize lineSingle line 0 = r at hcur ⊢
  rcases r with ⟨cur, _ | v⟩
  · exact ⟨Nat.zero_le _, hcur⟩
  · have hfirst : Progress.Within line 1 ⟨[v], cur, v⟩ := ⟨le_rfl, hcur⟩
    have hblocks := hfirst.lineBlocks (nblock w)
    rw [← nblock_add_nrest hw]
    exact goOn_within (hblocks.mono (Nat.le_add_right ..)) (hblocks.lineRest _)

/-- Settles O28: the parts' bounds add up to WIDTH. -/
theorem decodeStaysInsideLineAndWidth : Obligations.DecodeStaysInsideLineAndWidth :=
  fun line w => ⟨(decodeLine_within line w).out_le, (decodeLine_within line w).cur_le⟩

end Sys2Proof.Machine
end

section
/-! PROOFS. The encoding of tokens and accesses (spec/30_encoding.md): numbers as little-endian bytes, what each format's
decoder reads, and that decoder and encoder are inverse to each other on the well-formed instructions of a context. -/

namespace Sys2Proof

/-! ### Little-endian numbers (R65, R67) -/

theorem leValue_lt (bs : List Byte) : leValue bs < 2 ^ (8 * bs.length) := by
  induction bs with
  | nil => simp [leValue]
  | cons b bs ih =>
    have hpow : 2 ^ (8 * (bs.length + 1)) = 2 ^ (8 * bs.length) * 256 := Nat.pow_add ..
    simp only [leValue, List.length_cons, hpow]
    omega

/-- A number of `n` bytes is the value of its bytes. -/
theorem leValue_leBytes {n v : Nat} (h : v < 2 ^ (8 * n)) : leValue (leBytes n v) = v := by
  induction n generalizing v with
  | zero => exact (Nat.lt_one_iff.1 h).symm
  | succ n ih =>
    have hpow : 2 ^ (8 * (n + 1)) = 2 ^ (8 * n) * 256 := Nat.pow_add ..
    rw [leBytes, leValue, ih (by omega), BitVec.toNat_ofNat]
    omega

/-- Bytes are those of their value. -/
theorem leBytes_leValue (bs : List Byte) : leBytes bs.length (leValue bs) = bs := by
  induction bs with
  | nil => rfl
  | cons b bs ih =>
    have hlow : BitVec.ofNat 8 (b.toNat + 256 * leValue bs) = b := by
      apply BitVec.eq_of_toNat_eq
      rw [BitVec.toNat_ofNat]
      omega
    have hhigh : (b.toNat + 256 * leValue bs) / 256 = leValue bs := by omega
    rw [leValue, List.length_cons, leBytes, hlow, hhigh, ih]

/-- Read an `n`-byte number off the front of the bytes, or reject them by name. -/
def readNumber {w : Nat} (e : DecodeError) (n : Nat) (f : BitVec w → Instr) (bs : List Byte) : Decoded :=
  if bs.length < n then .error e else .ok (f (BitVec.ofNat w (leValue (bs.take n))), bs.drop n)

/-- A number is read exactly from the bytes that write it, whatever follows them. -/
theorem readNumber_ok_iff {w n : Nat} {e : DecodeError} {f : BitVec w → Instr} {bs rest : List Byte} {i : Instr}
    (hw : 8 * n ≤ w) :
    readNumber e n f bs = .ok (i, rest) ↔
      ∃ x : BitVec w, x.toNat < 2 ^ (8 * n) ∧ i = f x ∧ bs = leBytes n x.toNat ++ rest := by
  unfold readNumber
  constructor
  · intro h
    split_ifs at h with hcut
    obtain ⟨rfl, rfl⟩ := Prod.mk.inj (Except.ok.inj h)
    have htake : (bs.take n).length = n := List.length_take_of_le (not_lt.1 hcut)
    have hlt : leValue (bs.take n) < 2 ^ (8 * n) := by simpa [htake] using leValue_lt (bs.take n)
    have hbytes : leBytes n (leValue (bs.take n)) = bs.take n := by simpa [htake] using leBytes_leValue (bs.take n)
    have hval : (BitVec.ofNat w (leValue (bs.take n))).toNat = leValue (bs.take n) :=
      Nat.mod_eq_of_lt (hlt.trans_le (Nat.pow_le_pow_right (by decide) hw))
    refine ⟨_, hval.symm ▸ hlt, rfl, ?_⟩
    rw [hval, hbytes, List.take_append_drop]
  · rintro ⟨x, hlt, rfl, rfl⟩
    rw [if_neg (by simp), List.take_left' (leBytes_length ..), List.drop_left' (leBytes_length ..), leValue_leBytes hlt,
      BitVec.ofNat_toNat, BitVec.setWidth_eq]

/-- A literal, which fills its bytes, is read exactly from the bytes that write it. -/
theorem readLiteral_ok_iff {w n : Nat} {e : DecodeError} {f : BitVec w → Instr} {bs rest : List Byte} {i : Instr}
    (hw : w = 8 * n) : readNumber e n f bs = .ok (i, rest) ↔ ∃ x, i = f x ∧ bs = leBytes n x.toNat ++ rest := by
  subst hw
  simp only [readNumber_ok_iff le_rfl, BitVec.isLt, true_and]

theorem readNumber_isOk_iff {w n : Nat} {e : DecodeError} {f : BitVec w → Instr} {bs : List Byte} :
    (∃ i rest, readNumber e n f bs = .ok (i, rest)) ↔ n ≤ bs.length := by
  unfold readNumber
  split_ifs with hcut <;> simp <;> omega

/-! ### What each format's decoder reads -/

section
variable {lit32 : Word → Instr} {lit16 : BitVec 16 → Instr} {short : Byte → Instr} {bs rest : List Byte} {i : Instr}

theorem decodeSingle_escLong :
    decodeSingle lit32 lit16 short (Config.escLongByte :: bs) = readNumber .literalCut 4 lit32 bs := by rfl

theorem decodeSingle_escShort :
    decodeSingle lit32 lit16 short (Config.escShortByte :: bs) = readNumber .literalCut 2 lit16 bs := by rfl

theorem decodeSingle_short {b : Byte} (hlong : b ≠ Config.escLongByte) (hshort : b ≠ Config.escShortByte) :
    decodeSingle lit32 lit16 short (b :: bs) = .ok (short b, bs) := by
  simp [decodeSingle, leadLiteralLen, hlong, hshort]

/-- A single-pixel token is 0xFF and a 32-bit literal, 0xFE and a 16-bit literal, or one lower byte (R63, R64). -/
theorem decodeSingle_ok_iff :
    decodeSingle lit32 lit16 short bs = .ok (i, rest) ↔
      (∃ lit, i = lit32 lit ∧ bs = Config.escLongByte :: leBytes 4 lit.toNat ++ rest)
        ∨ (∃ lit, i = lit16 lit ∧ bs = Config.escShortByte :: leBytes 2 lit.toNat ++ rest)
        ∨ ∃ b, b.toNat ≤ 253 ∧ i = short b ∧ bs = b :: rest := by
  constructor
  · intro h
    cases bs with
    | nil => cases h
    | cons b bs =>
      by_cases hlong : b = Config.escLongByte
      · rw [hlong, decodeSingle_escLong, readLiteral_ok_iff rfl] at h
        obtain ⟨lit, rfl, rfl⟩ := h
        exact .inl ⟨lit, rfl, congrArg (· :: _) hlong⟩
      by_cases hshort : b = Config.escShortByte
      · rw [hshort, decodeSingle_escShort, readLiteral_ok_iff rfl] at h
        obtain ⟨lit, rfl, rfl⟩ := h
        exact .inr (.inl ⟨lit, rfl, congrArg (· :: _) hshort⟩)
      rw [decodeSingle_short hlong hshort] at h
      obtain ⟨rfl, rfl⟩ := Prod.mk.inj (Except.ok.inj h)
      exact .inr (.inr ⟨b, by bv_omega, rfl, rfl⟩)
  · rintro (⟨lit, rfl, rfl⟩ | ⟨lit, rfl, rfl⟩ | ⟨b, hb, rfl, rfl⟩)
    · exact decodeSingle_escLong.trans ((readLiteral_ok_iff rfl).2 ⟨lit, rfl, rfl⟩)
    · exact decodeSingle_escShort.trans ((readLiteral_ok_iff rfl).2 ⟨lit, rfl, rfl⟩)
    · exact decodeSingle_short (by bv_omega) (by bv_omega)

/-- A control byte holds NBIT1 above NBIT0 (R66). -/
theorem decodeControl_ok_iff :
    decodeControl bs = .ok (i, rest) ↔ ∃ n0 n1 : BitVec 4, i = .blk n0 n1 ∧ bs = (n1 ++ n0) :: rest := by
  constructor
  · intro h
    cases bs with
    | nil => cases h
    | cons c bs =>
      obtain ⟨rfl, rfl⟩ := Prod.mk.inj (Except.ok.inj h)
      exact ⟨_, _, rfl, congrArg (· :: bs) (BitVec.extractLsb'_append_extractLsb' (w := 4) (len := 4)).symm⟩
  · rintro ⟨n0, n1, rfl, rfl⟩
    simp only [decodeControl, BitVec.extractLsb'_append_eq_left, BitVec.extractLsb'_append_eq_right]

theorem decodeRun_eq (n : BitVec 4) (bs : List Byte) : decodeRun n bs = readNumber .runCut n.toNat (.half n) bs := by rfl

/-- A packed run of width `n` is the `n` bytes of a number of `8n` bits (R67). -/
theorem decodeRun_ok_iff {n : BitVec 4} :
    decodeRun n bs = .ok (i, rest) ↔
      ∃ run : BitVec 120, run.toNat < 2 ^ (8 * n.toNat) ∧ i = .half n run ∧ bs = leBytes n.toNat run.toNat ++ rest := by
  rw [decodeRun_eq, readNumber_ok_iff (by omega)]

section
variable {o : BitVec 16}

theorem decodeSlot_field (h : literalClass o = .field) : decodeSlot o bs = .ok (.slotField, bs) := by
  rw [decodeSlot, h]
  rfl

theorem decodeSlot_esc16 (h : literalClass o = .esc16) : decodeSlot o bs = readNumber .escapeCut 2 .slotEsc16 bs := by
  rw [decodeSlot, h]
  rfl

theorem decodeSlot_esc32 (h : literalClass o = .esc32) : decodeSlot o bs = readNumber .escapeCut 4 .slotEsc32 bs := by
  rw [decodeSlot, h]
  rfl

/-- A slot's token is the literal of its offset's class (R70). -/
theorem decodeSlot_ok_iff :
    decodeSlot o bs = .ok (i, rest) ↔
      (literalClass o = .field ∧ i = .slotField ∧ bs = rest)
        ∨ (literalClass o = .esc16 ∧ ∃ lit, i = .slotEsc16 lit ∧ bs = leBytes 2 lit.toNat ++ rest)
        ∨ (literalClass o = .esc32 ∧ ∃ lit, i = .slotEsc32 lit ∧ bs = leBytes 4 lit.toNat ++ rest) := by
  cases h : literalClass o with
  | field => simp [decodeSlot_field h, eq_comm (a := i)]
  | esc16 => simp [decodeSlot_esc16 h, readLiteral_ok_iff]
  | esc32 => simp [decodeSlot_esc32 h, readLiteral_ok_iff]

end

/-! ### Host accesses (R75) -/

/-- The key of a write is read by its four data bytes. -/
theorem decodeHost_writeKey (r : Reg) (bs : List Byte) :
    decodeHost (writeKey r :: bs) = readNumber .badAccessKey 4 (writeInstr r) bs := by cases r <;> rfl

theorem decodeHost_readKey (r : Reg) (bs : List Byte) :
    decodeHost (r.index.setWidth 8 :: bs) = .ok (.hostRd r, bs) := by cases r <;> rfl

/-- A byte below 16 is the key of one register's write or read. -/
theorem accessKey_cases {k : Byte} (hk : k.toNat < 16) :
    ∃ r : Reg, k = writeKey r ∨ k = r.index.setWidth 8 := by
  have hall : ∀ v < 16, (BitVec.ofNat 8 v : Byte) = writeKey (Reg.ofIndex (BitVec.ofNat 3 v))
      ∨ (BitVec.ofNat 8 v : Byte) = (Reg.ofIndex (BitVec.ofNat 3 v)).index.setWidth 8 := by decide
  have h := hall k.toNat hk
  rw [BitVec.ofNat_toNat, BitVec.setWidth_eq] at h
  exact ⟨_, h⟩

/-- An access is a write's key and its data, or a read's key (log entry 11). -/
theorem decodeHost_ok_iff :
    decodeHost bs = .ok (i, rest) ↔
      (∃ r data, i = writeInstr r data ∧ bs = writeKey r :: leBytes 4 data.toNat ++ rest)
        ∨ ∃ r : Reg, i = .hostRd r ∧ bs = r.index.setWidth 8 :: rest := by
  constructor
  · intro h
    cases bs with
    | nil => cases h
    | cons k bs =>
      have hk : k.toNat < 16 := by
        by_contra hk
        simp [decodeHost, not_lt.1 hk] at h
      obtain ⟨r, rfl | rfl⟩ := accessKey_cases hk
      · rw [decodeHost_writeKey, readLiteral_ok_iff rfl] at h
        obtain ⟨data, rfl, rfl⟩ := h
        exact .inl ⟨r, data, rfl, rfl⟩
      · rw [decodeHost_readKey] at h
        obtain ⟨rfl, rfl⟩ := Prod.mk.inj (Except.ok.inj h)
        exact .inr ⟨r, rfl, rfl⟩
  · rintro (⟨r, data, rfl, rfl⟩ | ⟨r, rfl, rfl⟩)
    · exact (decodeHost_writeKey ..).trans ((readLiteral_ok_iff rfl).2 ⟨data, rfl, rfl⟩)
    · exact decodeHost_readKey ..

/-- A write is encoded as its register's key and its data. -/
theorem encode_writeInstr (r : Reg) (data : Word) : encode (writeInstr r data) = writeKey r :: leBytes 4 data.toNat := by
  cases r with
  | ctrl => rw [writeInstr]; split_ifs <;> rfl
  | status | inBase | inLen | outBase | width | produced | consumed => rfl

/-- A write of any data is an instruction of the HOST context. -/
theorem writeInstr_wellFormed_fits (r : Reg) (data : Word) :
    (writeInstr r data).wellFormed = true ∧ (writeInstr r data).fits .host = true := by
  cases r with
  | ctrl =>
    unfold writeInstr
    split_ifs with hd
    · exact ⟨hd, rfl⟩
    · exact ⟨by simpa [Instr.wellFormed] using hd, rfl⟩
  | status | inBase | inLen | outBase | width | produced | consumed => exact ⟨rfl, rfl⟩

end

/-! ### The decoder and the encoder -/

/-- A write is read back from its key and its data, once it is the instruction that its data selects. -/
theorem decode_writeKey {r : Reg} {data : Word} {i : Instr} (hi : writeInstr r data = i) (rest : List Byte) :
    decode .host (writeKey r :: leBytes 4 data.toNat ++ rest) = .ok (i, rest) :=
  decodeHost_ok_iff.2 (.inl ⟨r, data, hi.symm, rfl⟩)

/-- Settles O1: each format's decoder reads back what the format writes. -/
theorem decodeReadsBackEncode : Obligations.DecodeReadsBackEncode := by
  intro c i rest hwf hfits
  cases i with
  | pixS32 lit | dltS32 lit =>
    obtain rfl := of_decide_eq_true hfits
    rw [decode, decodeSingle_ok_iff]
    exact .inl ⟨lit, rfl, rfl⟩
  | pixS16 lit | dltS16 lit =>
    obtain rfl := of_decide_eq_true hfits
    rw [decode, decodeSingle_ok_iff]
    exact .inr (.inl ⟨lit, rfl, rfl⟩)
  | pixB b | dltB b =>
    obtain rfl := of_decide_eq_true hfits
    rw [decode, decodeSingle_ok_iff]
    exact .inr (.inr ⟨b, of_decide_eq_true hwf, rfl, rfl⟩)
  | blk n0 n1 =>
    obtain rfl := of_decide_eq_true hfits
    exact decodeControl_ok_iff.2 ⟨n0, n1, rfl, rfl⟩
  | half n run =>
    obtain rfl := of_decide_eq_true hfits
    exact decodeRun_ok_iff.2 ⟨run, of_decide_eq_true hwf, rfl, rfl⟩
  | slotField =>
    cases c with
    | bres o => exact decodeSlot_ok_iff.2 (.inl ⟨of_decide_eq_true hfits, rfl, rfl⟩)
    | first | bctrl | bpack _ | rem | host => cases hfits
  | slotEsc16 lit =>
    cases c with
    | bres o => exact decodeSlot_ok_iff.2 (.inr (.inl ⟨of_decide_eq_true hfits, lit, rfl, rfl⟩))
    | first | bctrl | bpack _ | rem | host => cases hfits
  | slotEsc32 lit =>
    cases c with
    | bres o => exact decodeSlot_ok_iff.2 (.inr (.inr ⟨of_decide_eq_true hfits, lit, rfl, rfl⟩))
    | first | bctrl | bpack _ | rem | host => cases hfits
  | hostStart data =>
    obtain rfl := of_decide_eq_true hfits
    exact decode_writeKey (r := .ctrl) (if_pos hwf) rest
  | hostCtrl0 data =>
    obtain rfl := of_decide_eq_true hfits
    have hbit : ¬data.getLsbD 0 = true := by simpa [Instr.wellFormed] using hwf
    exact decode_writeKey (r := .ctrl) (if_neg hbit) rest
  | hostWrStatus data | hostWrInBase data | hostWrInLen data | hostWrOutBase data | hostWrWidth data
  | hostWrProduced data | hostWrConsumed data =>
    obtain rfl := of_decide_eq_true hfits
    exact decode_writeKey rfl rest
  | hostRd r =>
    obtain rfl := of_decide_eq_true hfits
    exact decodeHost_ok_iff.2 (.inr ⟨r, rfl, rfl⟩)

/-- Settles O2: each format's decoder reads a number only from the bytes that write it. -/
theorem encodeRestoresDecodedBytes : Obligations.EncodeRestoresDecodedBytes := by
  intro c bs rest i h
  cases c with
  | first | rem =>
    obtain ⟨lit, rfl, rfl⟩ | ⟨lit, rfl, rfl⟩ | ⟨b, hb, rfl, rfl⟩ := decodeSingle_ok_iff.1 h
    · exact ⟨rfl, rfl, rfl⟩
    · exact ⟨rfl, rfl, rfl⟩
    · exact ⟨decide_eq_true hb, rfl, rfl⟩
  | bctrl =>
    obtain ⟨n0, n1, rfl, rfl⟩ := decodeControl_ok_iff.1 h
    exact ⟨rfl, rfl, rfl⟩
  | bpack n =>
    obtain ⟨run, hrun, rfl, rfl⟩ := decodeRun_ok_iff.1 h
    exact ⟨decide_eq_true hrun, decide_eq_true rfl, rfl⟩
  | bres o =>
    obtain ⟨hclass, rfl, rfl⟩ | ⟨hclass, lit, rfl, rfl⟩ | ⟨hclass, lit, rfl, rfl⟩ := decodeSlot_ok_iff.1 h
    all_goals exact ⟨rfl, decide_eq_true hclass, rfl⟩
  | host =>
    obtain ⟨r, data, rfl, rfl⟩ | ⟨r, rfl, rfl⟩ := decodeHost_ok_iff.1 h
    · obtain ⟨hwf, hfits⟩ := writeInstr_wellFormed_fits r data
      exact ⟨hwf, hfits, by rw [encode_writeInstr]⟩
    · exact ⟨rfl, rfl, rfl⟩

/-- Settles O4: a format's decoder rejects only bytes that are too few for the token's literal or run. -/
theorem streamDecodesWheneverLongEnough : Obligations.StreamDecodesWheneverLongEnough := by
  intro c bs hc
  refine ⟨fun hlen => ?_, fun ⟨i, rest, h⟩ => by have := Machine.decode_stream_length hc h; omega⟩
  cases c with
  | first | rem =>
    cases bs with
    | nil => cases hlen
    | cons b bs =>
      have hlit : leadLiteralLen b ≤ bs.length := by simpa [Ctx.leadLen, Ctx.tailLen, Nat.add_comm 1] using hlen
      by_cases hlong : b = Config.escLongByte
      · subst hlong
        simp only [decode, decodeSingle_escLong, readNumber_isOk_iff]
        exact hlit
      by_cases hshort : b = Config.escShortByte
      · subst hshort
        simp only [decode, decodeSingle_escShort, readNumber_isOk_iff]
        exact hlit
      exact ⟨_, _, decodeSingle_short hlong hshort⟩
  | bctrl =>
    cases bs with
    | nil => cases hlen
    | cons b bs => exact ⟨_, _, rfl⟩
  | bpack n =>
    simp only [decode, decodeRun_eq, readNumber_isOk_iff]
    exact hlen
  | bres o =>
    have hlit : (literalClass o).literalLen ≤ bs.length := hlen
    cases hclass : literalClass o <;> rw [hclass] at hlit
    case field => exact ⟨_, _, decodeSlot_field hclass⟩
    case esc16 =>
      simp only [decode, decodeSlot_esc16 hclass, readNumber_isOk_iff]
      exact hlit
    case esc32 =>
      simp only [decode, decodeSlot_esc32 hclass, readNumber_isOk_iff]
      exact hlit
  | host => exact absurd rfl hc

/-- Settles O5: each word is evaluated by the decoder. -/
theorem writtenOutWordsDecode : Obligations.WrittenOutWordsDecode :=
  ⟨rfl, rfl, rfl, rfl, rfl, rfl, rfl, rfl⟩

/-! ### The opcode table (R76) -/

/-- The table picks an instruction's own row from its bytes. -/
theorem tableRow_encode {c : Ctx} {i : Instr} (hwf : i.wellFormed = true) (hfits : i.fits c = true) (rest : List Byte) :
    (tableRow c (encode i ++ rest)).map Row.kind = some i.kind := by
  cases i with
  | pixS32 lit | dltS32 lit | pixS16 lit | dltS16 lit | blk n0 n1 | half n run =>
    obtain rfl := of_decide_eq_true hfits
    simp [tableRow, opcodeRows, Row.accepts, encode, Instr.kind, Config.escLongByte, Config.escShortByte]
  | pixB b | dltB b =>
    obtain rfl := of_decide_eq_true hfits
    have hb : b.toNat ≤ 253 := of_decide_eq_true hwf
    have hmask : b &&& 0xFF#8 = b := BitVec.and_allOnes
    have hlong : b ≠ 0xFF#8 := by bv_omega
    have hshort : b ≠ 0xFE#8 := by bv_omega
    simp [tableRow, opcodeRows, Row.accepts, encode, Instr.kind, hmask, hlong, hshort]
  | slotField | slotEsc16 lit | slotEsc32 lit =>
    cases c with
    | bres o =>
      have hclass := of_decide_eq_true hfits
      simp [tableRow, opcodeRows, Row.accepts, Instr.kind, hclass]
    | first | bctrl | bpack _ | rem | host => cases hfits
  | hostStart data | hostCtrl0 data =>
    obtain rfl := of_decide_eq_true hfits
    simp only [Instr.wellFormed, Bool.not_eq_true', BitVec.getLsbD_eq_getElem (Nat.zero_lt_succ 31)] at hwf
    simp [tableRow, opcodeRows, Row.accepts, encode, Instr.kind, writeKey, Reg.index, leBytes, hwf]
  | hostWrStatus data | hostWrInBase data | hostWrInLen data | hostWrOutBase data | hostWrWidth data
  | hostWrProduced data | hostWrConsumed data =>
    obtain rfl := of_decide_eq_true hfits
    simp [tableRow, opcodeRows, Row.accepts, encode, Instr.kind, writeKey, Reg.index]
  | hostRd r =>
    obtain rfl := of_decide_eq_true hfits
    cases r <;> simp [tableRow, opcodeRows, Row.accepts, encode, Instr.kind, Reg.index]

/-- Settles O3: the bytes are the instruction's encoding, whose row the table picks. -/
theorem decoderFollowsOpcodeTable : Obligations.DecoderFollowsOpcodeTable := by
  intro c bs rest i h
  obtain ⟨hwf, hfits, rfl⟩ := encodeRestoresDecodedBytes c bs rest i h
  exact tableRow_encode hwf hfits rest

end Sys2Proof
end

section
/-! PROOFS. A register access on the bus (spec/30_encoding.md R74, R75, spec/44_host_interface.md R129, R138): what it decodes
to, what the turn that takes it does, and which accesses are refused. -/

namespace Sys2Proof

section
variable {base off data : Word} {r : Reg} (hbase : base.toNat % 4 = 0) (hoff : off.toNat = 4 * r.index.toNat)
  (hfit : base.toNat + off.toNat < Config.addrSpace)

include hbase hoff hfit

/-- An access to a register at its place in an aligned window is that register's key and, for a write, the data (R75). -/
theorem accessBytes_of_register (write : Bool) :
    accessBytes base ⟨write, base + off, 4, data⟩ =
      .ok (if write then writeKey r :: leBytes 4 data.toNat else [r.index.setWidth 8]) := by
  have hindex := r.index.isLt
  have haddr : (base + off).toNat = base.toNat + 4 * r.index.toNat := by rw [BitVec.toNat_add_of_lt hfit, hoff]
  have hwindow : inWindow base (base + off) = true := Machine.inWindow_eq_true_iff.2 ⟨by omega, by omega⟩
  have halign : (base.toNat + 4 * r.index.toNat) % 4 = 0 := by omega
  cases write <;> simp only [accessBytes, haddr, hwindow, halign, Nat.add_sub_cancel_left] <;>
    simp [writeKey, BitVec.ofNat_add]

theorem decodeAccess_write : decodeAccess base ⟨true, base + off, 4, data⟩ = .ok (writeInstr r data, []) := by
  simp only [decodeAccess, accessBytes_of_register hbase hoff hfit]
  exact decodeHost_ok_iff.2 (.inl ⟨r, data, rfl, (List.append_nil _).symm⟩)

theorem decodeAccess_read : decodeAccess base ⟨false, base + off, 4, data⟩ = .ok (.hostRd r, []) := by
  simp only [decodeAccess, accessBytes_of_register hbase hoff hfit]
  exact decodeHost_readKey r []

end

/-- Settles O6: each offset is a register's, whose write or read the access is. -/
theorem accessesDecodeByTheirOffset : Obligations.AccessesDecodeByTheirOffset := by
  intro base data hbase
  have hwrite (r : Reg) {off : Word} (hoff : off.toNat = 4 * r.index.toNat) := decodeAccess_write (data := data) hbase hoff
  have hread (r : Reg) {off : Word} (hoff : off.toNat = 4 * r.index.toNat) := decodeAccess_read (data := data) hbase hoff
  refine ⟨fun hbit hfit => ?_, fun hbit hfit => ?_, hwrite .status rfl, hwrite .inBase rfl, hwrite .inLen rfl,
    hwrite .outBase rfl, hwrite .width rfl, hwrite .produced rfl, hwrite .consumed rfl, hread .ctrl rfl,
    hread .status rfl, hread .inBase rfl, hread .inLen rfl, hread .outBase rfl, hread .width rfl, hread .produced rfl,
    hread .consumed rfl⟩
  · rw [hwrite .ctrl rfl hfit, writeInstr, if_pos hbit]
  · rw [hwrite .ctrl rfl hfit, writeInstr, if_neg (Bool.eq_false_iff.1 hbit)]

/-- An access that is not 32 bits wide, not aligned or outside the window has no key (R74, R138). -/
theorem accessBytes_bad {base : Word} {a : HostAccess}
    (h : a.size ≠ 4 ∨ a.addr.toNat % 4 ≠ 0 ∨ a.addr.toNat < base.toNat ∨ base.toNat + 32 ≤ a.addr.toNat) :
    ∃ e, accessBytes base a = .error e := by
  by_cases hsize : a.size = 4
  · by_cases halign : a.addr.toNat % 4 = 0
    · have houtside : inWindow base a.addr = false := by
        rw [Bool.eq_false_iff, ne_eq, Machine.inWindow_eq_true_iff]
        omega
      exact ⟨.outsideWindow, by simp [accessBytes, hsize, halign, houtside]⟩
    · exact ⟨.accessMisaligned, by simp [accessBytes, hsize, halign]⟩
  · exact ⟨.accessWidth, by simp [accessBytes, hsize]⟩

end Sys2Proof

namespace Sys2Proof.Machine

/-- An access turn is the access on the block it is routed to, with the turn taken off the schedule (R129). -/
theorem step_of_sched_access {s t : State} {base : Word} {a : HostAccess} {us : List Turn}
    (h : s.sched = .access base a :: us) (hsel : { s with sched := us }.select base = some t) :
    step s = hostAccess a t := by
  simp only [step, nextTurn, h, takeTurn, onBlock, hsel]

/-- Settles O14: the block selected is the one at the access's REG_BASE. -/
theorem stepRunsHostAccess : Obligations.StepRunsHostAccess := by
  intro s t base a us i hs hsel hd
  obtain ⟨hbase, -⟩ := State.select_some hsel
  simp only [step_of_sched_access hs hsel, hostAccess, hbase, hd]

/-- Settles O16: such an access has no key, so it decodes to a rejection, which is the refusal's name. -/
theorem badAccessesAreRefused : Obligations.BadAccessesAreRefused := by
  intro s a us hs hbad
  obtain ⟨e, he⟩ := accessBytes_bad hbad
  have hsel : { s with sched := us }.select s.blk.regBase = some { s with sched := us } := if_pos rfl
  refine ⟨e, ?_⟩
  simp only [step_of_sched_access hs hsel, hostAccess, decodeAccess, he]

end Sys2Proof.Machine
end

section
/-! PROOFS. The bit-field extractor (spec/30_encoding.md R67, R68, spec/42_block.md R108) and the classes of the provisional
offsets (spec/30_encoding.md R69, R70). -/

namespace Sys2Proof

/-- Bit `p` of a little-endian number is bit `p mod 8` of its byte `p div 8` (R67). -/
theorem leValue_testBit (bs : List Byte) (p : Nat) :
    (leValue bs).testBit p = (bs.getD (p / 8) 0#8).getLsbD (p % 8) := by
  induction bs generalizing p with
  | nil => simp [leValue]
  | cons b bs ih =>
    rw [leValue, Nat.add_comm, Nat.testBit_two_pow_mul_add (i := 8) _ b.isLt]
    split_ifs with hp
    · rw [Nat.div_eq_of_lt hp, Nat.mod_eq_of_lt hp]
      rfl
    · have hdiv : p / 8 = (p - 8) / 8 + 1 := by omega
      have hmod : p % 8 = (p - 8) % 8 := by omega
      rw [ih, hdiv, hmod, List.getD_cons_succ]

theorem literalClass_esc32_iff {o : BitVec 16} : literalClass o = .esc32 ↔ 128 ≤ o.toInt := by
  simp only [literalClass, Config.tLong, Config.tShort]
  split_ifs <;> simp <;> omega

theorem literalClass_esc16_iff {o : BitVec 16} : literalClass o = .esc16 ↔ o.toInt = 127 := by
  simp only [literalClass, Config.tLong, Config.tShort]
  split_ifs <;> simp <;> omega

theorem literalClass_field_iff {o : BitVec 16} : literalClass o = .field ↔ o.toInt < 127 := by
  simp only [literalClass, Config.tLong, Config.tShort]
  split_ifs <;> simp <;> omega

end Sys2Proof

namespace Sys2Proof.Machine

/-- A raw field's bits are the run's, from bit `f n` on (R108). -/
theorem rawField_testBit (pack : BitVec 120) {n t : Nat} (f : Nat) (ht : t < n) :
    (rawField pack n f).testBit t = pack.toNat.testBit (f * n + t) := by
  rw [rawField_eq_mod, Nat.testBit_mod_two_pow, Nat.testBit_shiftRight, decide_eq_true ht, Bool.true_and]

/-- Settles O7: a run of at most 15 bytes fits PACK, so a field's bits are those of the run's number. -/
theorem fieldBitsComeFromRunBytes : Obligations.FieldBitsComeFromRunBytes := by
  intro rs f t hlen hf ht
  have hfit : leValue rs < 2 ^ 120 := (leValue_lt rs).trans_le (Nat.pow_le_pow_right (by decide) (by omega))
  rw [rawField_testBit _ f ht, BitVec.toNat_ofNat, Nat.mod_eq_of_lt hfit, leValue_testBit]

/-- Above `zero_at(n)` lies at most half of the raw values of width `n`, and one more (R69, R109). -/
theorem two_pow_le_zeroAt (n : Nat) : 2 ^ n ≤ 2 ^ (n - 1) + 1 + zeroAt n := by
  cases n with
  | zero => decide
  | succ n =>
    have hpos := Nat.two_pow_pos n
    simp only [zeroAt, Nat.one_shiftLeft, Nat.add_sub_cancel, Nat.pow_succ]
    split_ifs with hn
    · omega
    · obtain rfl : n = 0 := by omega
      decide

/-- Settles O9: an offset is its raw field less `zero_at`, which for a width up to 7 stays below 127. -/
theorem escapesExactlyAtSentinelRawValues : Obligations.EscapesExactlyAtSentinelRawValues := by
  intro pack n f hn
  have hoffset := provisional_toInt pack f hn
  refine ⟨fun h7 => ?_, fun h8 => ⟨?_, ?_⟩⟩
  · have hraw := rawField_lt pack n f
    have htop := two_pow_le_zeroAt n
    have hhalf : 2 ^ (n - 1) ≤ 2 ^ 6 := Nat.pow_le_pow_right (by decide) (by omega)
    rw [literalClass_field_iff, hoffset]
    omega
  · rw [literalClass_esc16_iff, hoffset]
    omega
  · rw [literalClass_esc32_iff, hoffset]
    omega

end Sys2Proof.Machine
end

section
/-! PROOFS. The sequencer's operations (spec/40_sequencer.md): the geometry of a line (R81), NEXT() (R84), the ZFILL step (R82),
and what a token cut short by the end of the input does (R86, R88 to R90). -/

namespace Sys2Proof.Machine

/-! ### Geometry and NEXT() -/

/-- Settles O18: the quotient and the remainder of WIDTH - 1 by 16. -/
theorem lineGeometry : Obligations.LineGeometry := by
  intro w hw
  have hne : w ≠ 0#32 := fun h0 => absurd (h0 ▸ hw) (by decide)
  exact ⟨rfl, rfl, nblock_add_nrest hne, fun k hk => ⟨by omega, (nblock_bounds w).1⟩⟩

/-- Settles O20: the three tests of NEXT(), in order. -/
theorem nextPhaseFollowsGeometry : Obligations.NextPhaseFollowsGeometry := by
  intro b
  exact ⟨fun hlast => by rw [Block.nextPhase, if_pos hlast, Block.finish, Block.truncated],
    fun hmore hblock => by rw [Block.nextPhase, if_neg hmore, if_pos (by exact hblock)],
    fun hmore hrest => by rw [Block.nextPhase, if_neg hmore, if_neg (by exact hrest)]⟩

/-! ### The ZFILL step -/

/-- A slot that can be written holds the word stored in it, and nothing else changes but the active block's registers. -/
theorem State.storeSlot_slotStored {s : State} {i : Nat} (h : s.slotOk i = true) (v : Word) (b : Block) :
    SlotStored s ((s.storeSlot i v).setBlk b) i v :=
  ⟨Memory.readWord_writeWord _ _ _ (State.slotOk_le h), fun x => Memory.read_writeWord_other s.mem _ x v,
    rfl, rfl, rfl, rfl, rfl, rfl⟩

/-- In ZFILL the block's step is the ZFILL step. -/
theorem blockStep_of_zfill {s : State} (h : s.blk.phase = .zfill) : blockStep s = zfillStep s := by
  simp [blockStep, Block.ctx, Block.busy, h]

/-- Settles O19: the ZFILL step ends an operation of no slots, and stores 0 in slot ZI of any other. -/
theorem zfillZeroesSlotsInOrder : Obligations.ZfillZeroesSlotsInOrder := by
  intro s hs hp
  rw [step_of_sched_nil hs, blockStep_of_zfill hp]
  refine ⟨fun hw => zfillStep_next_iff.2 (.inl ⟨hw, rfl⟩), fun hw hok => ?_⟩
  exact ⟨_, zfillStep_next_iff.2 (.inr ⟨hw, hok, rfl⟩), State.storeSlot_slotStored hok _ _, rfl⟩

/-! ### Tokens cut short -/

@[simp] theorem endShort_zero (s : State) : endShort 0 s = s.finish := by simp [endShort]

/-- A token with no byte left for its first part ends the operation in place (spec/40_sequencer.md R86). -/
theorem inContext_consume_short {ok : Bool} {n : Nat} {s : State} {k : State → Result State} (hok : ok = true)
    (h : s.blk.need n = false) : inContext ok (consume n s k) = .next s.finish := by
  rw [hok, inContext_true, consume_short h]

/-- A token whose lead part is there and whose literal is not ends the operation past the lead part (R88). -/
theorem inContext_consume_cut {ok : Bool} {m n : Nat} {s : State} {k : State → Result State} (hok : ok = true)
    (hm : s.blk.need m = true) (h : s.blk.need (m + n) = false) :
    inContext ok (consume m s fun s => consume n s k) = .next (endShort m s) := by
  rw [hok, inContext_true, consume_need hm, consume_short (by simpa [Block.need_advance hm] using h)]
  rfl

/-- Settles O33: each form's lead byte is its first part, and its literal the second. -/
theorem cutLiteralKeepsOnlyLeadByte : Obligations.CutLiteralKeepsOnlyLeadByte := by
  intro lit16 lit32 b s
  have hended (n : Nat) : s.setBlk { s.blk with
      cur := s.blk.cur + BitVec.ofNat 32 n, trunc := decide (s.blk.idx.toNat < s.blk.width.toNat), phase := .idle
      done := true } = endShort n s := rfl
  simp only [hended, endShort_zero]
  refine ⟨fun hp => ?_, fun hp => ?_⟩
  · have hok := decide_eq_true hp
    exact ⟨fun h => ⟨inContext_consume_short hok h, inContext_consume_short hok h, inContext_consume_short hok h⟩,
      inContext_consume_cut (n := 2) hok, inContext_consume_cut (n := 4) hok⟩
  · have hok := decide_eq_true hp
    exact ⟨fun h => ⟨inContext_consume_short hok h, inContext_consume_short hok h, inContext_consume_short hok h⟩,
      inContext_consume_cut (n := 2) hok, inContext_consume_cut (n := 4) hok⟩

/-- Settles O40: a block's tokens have one part each, which is read whole or not at all. -/
theorem cutBlockEndsTheOperation : Obligations.CutBlockEndsTheOperation := by
  intro n0 n1 run lit16 lit32 s
  have hended : s.setBlk { s.blk with
      trunc := decide (s.blk.idx.toNat < s.blk.width.toNat), phase := .idle, done := true } = s.finish := rfl
  simp only [hended]
  refine ⟨fun hp => inContext_consume_short (decide_eq_true hp), fun hp => inContext_consume_short ?_,
    fun hp ho => inContext_consume_short ?_, fun hp ho => inContext_consume_short ?_⟩
  · simp [hp]
  · simp [hp, literalClass_esc16_iff.2 ho]
  · simp [hp, literalClass_esc32_iff.2 ho]

end Sys2Proof.Machine
end

section
/-! PROOFS. The phases of an operation follow each other as spec/40_sequencer.md R79 orders them, and every step of a running
block lowers R92's bound on the steps left. -/

namespace Sys2Proof.Machine

/-! ### The order of the phases -/

/-- NEXT() goes to a phase that follows `p`, if the three it picks from do, BCTRL where a block is left (R84). -/
theorem Block.phaseFollows_nextPhase {b : Block} {p : Phase} (hidle : phaseFollows p .idle = true)
    (hrem : phaseFollows p .rem = true) (hbctrl : b.blkcnt.toNat < nblock b.width → phaseFollows p .bctrl = true) :
    phaseFollows p b.nextPhase.phase = true := by
  rcases b.nextPhase_cases with ⟨-, hb⟩ | ⟨-, hlt, hb⟩ | ⟨-, -, hb⟩ <;> rw [hb]
  · exact hidle
  · exact hbctrl hlt
  · exact hrem

/-- After a slot the block stays in BRES or goes where NEXT() says (spec/42_block.md R112, R118). -/
theorem Block.phaseFollows_nextSlot {b : Block} (hp : b.phase = .bres) : phaseFollows .bres b.nextSlot.phase = true := by
  rcases b.nextSlot_cases with ⟨-, hb⟩ | ⟨-, hb⟩ <;> rw [hb]
  · exact Block.phaseFollows_nextPhase rfl rfl fun _ => rfl
  · simp [hp, phaseFollows]

/-- After a run the block stays in BPACK or goes to BRES (spec/42_block.md R106). -/
theorem Block.phaseFollows_unpack {b : Block} (hp : b.phase = .bpack) (n : BitVec 4) (run : BitVec 120) :
    phaseFollows .bpack (b.unpack n run).phase = true := by
  rcases b.unpack_cases n run with ⟨-, hb⟩ | ⟨-, hb⟩ <;> rw [hb]
  · simp [hp, phaseFollows]
  · rfl

/-- The input may run out in any phase (spec/40_sequencer.md R86). -/
theorem phaseFollows_idle (p : Phase) : phaseFollows p .idle = true := by cases p <;> rfl

/-- A token moves its block to a phase that R79 lets follow; from REM no block is left to go back to. -/
theorem TokenStep.phaseFollows {s t : State} (h : TokenStep s t) (hc : s.blk.consistent = true) :
    phaseFollows s.blk.phase t.blk.phase = true := by
  cases h with
  | short n _ => exact phaseFollows_idle _
  | first n v hp _ _ => rw [hp]; exact Block.phaseFollows_nextPhase rfl rfl fun _ => rfl
  | bctrl n0 n1 hp _ => rw [hp]; rfl
  | bpack run hp _ => rw [hp]; exact Block.phaseFollows_unpack (by exact hp) _ _
  | bres n o hp _ _ => rw [hp]; exact Block.phaseFollows_nextSlot (by exact hp)
  | rem n d hp _ _ =>
    obtain ⟨-, hk, -⟩ := (Block.consistent_rem_iff hp).1 hc
    rw [hp]
    exact Block.phaseFollows_nextPhase rfl rfl fun hlt => absurd hk (Nat.ne_of_lt hlt)

/-- The ZFILL step stays in ZFILL, goes to FIRST, or ends an operation of no slots (spec/40_sequencer.md R82, R83). -/
theorem zfillStep_phase {s t : State} (h : zfillStep s = .next t) :
    phaseFollows .zfill t.blk.phase = true ∧ (t.blk.phase = .idle → s.blk.width = 0#32) := by
  rcases zfillStep_next_iff.1 h with ⟨hw, rfl⟩ | ⟨-, -, rfl⟩
  · exact ⟨rfl, fun _ => hw⟩
  · rw [State.setBlk_blk, Block.nextZero]
    split_ifs <;> exact ⟨rfl, nofun⟩

/-- Settles O21: the one step is the block's, whose ZFILL is the ZFILL step. -/
theorem phasesFollowTheirOrder : Obligations.PhasesFollowTheirOrder := by
  intro s t hs hsched h
  rw [step_of_sched_nil hsched] at h
  rcases blockStep_cases h with ⟨hp, rfl⟩ | ⟨hp, h⟩ | ⟨-, hz, h⟩
  · exact ⟨by rw [hp]; rfl, fun hz => by simp [hp] at hz⟩
  · rw [hp]
    exact ⟨(zfillStep_phase h).1, fun _ => (zfillStep_phase h).2⟩
  · exact ⟨h.phaseFollows (State.consistent_blk hs), fun hp => absurd hp hz⟩

/-! ### The bound on the steps left -/

theorem Block.stepsLeft_idle {b : Block} (h : b.phase = .idle) : b.stepsLeft = 0 := by simp [Block.stepsLeft, h]

theorem Block.stepsLeft_zfill {b : Block} (h : b.phase = .zfill) (hw : b.width ≠ 0#32) :
    b.stepsLeft = b.width.toNat - b.zi.toNat + 1 + 19 * nblock b.width + nrest b.width := by
  simp [Block.stepsLeft, h, hw]

theorem Block.stepsLeft_first {b : Block} (h : b.phase = .first) :
    b.stepsLeft = 1 + 19 * nblock b.width + nrest b.width := by simp [Block.stepsLeft, h]

theorem Block.stepsLeft_bctrl {b : Block} (h : b.phase = .bctrl) :
    b.stepsLeft = 19 * (nblock b.width - b.blkcnt.toNat) + nrest b.width := by simp [Block.stepsLeft, h]

theorem Block.stepsLeft_bpack {b : Block} (h : b.phase = .bpack) :
    b.stepsLeft = 18 - b.half.toNat + 19 * (nblock b.width - b.blkcnt.toNat - 1) + nrest b.width := by
  simp [Block.stepsLeft, h]

theorem Block.stepsLeft_bres {b : Block} (h : b.phase = .bres) :
    b.stepsLeft = 16 - b.slot.toNat + 19 * (nblock b.width - b.blkcnt.toNat - 1) + nrest b.width := by
  simp [Block.stepsLeft, h]

theorem Block.stepsLeft_rem {b : Block} (h : b.phase = .rem) : b.stepsLeft = b.width.toNat - b.idx.toNat := by
  simp [Block.stepsLeft, h]

/-- After START the bound of R92 is left (spec/40_sequencer.md R92). -/
theorem Block.start_stepsLeft (b : Block) : b.start.stepsLeft = stepBound b.width := by
  unfold stepBound
  split_ifs with hw
  · simp [Block.stepsLeft, hw]
  · exact Block.stepsLeft_zfill rfl hw

/-- Where NEXT() finds `k` blocks done and `i` slots final, at the end of a block or in the remainder, 19 steps are left for
each block and one for each slot after them. -/
theorem Block.nextPhase_stepsLeft {b : Block} {w : Word} {k i : Nat} (hwidth : b.width = w) (hcnt : b.blkcnt.toNat = k)
    (hidx : b.idx.toNat = i) (hk : k ≤ nblock w) (hi : i ≤ w.toNat) (hmore : k < nblock w → i = 1 + 16 * k) :
    b.nextPhase.stepsLeft + 16 * (nblock w - k) = 19 * (nblock w - k) + (w.toNat - i) := by
  subst hwidth hcnt hidx
  obtain ⟨hfit, -⟩ := nblock_bounds b.width
  rcases b.nextPhase_cases with ⟨hlast, hb⟩ | ⟨-, hlt, hb⟩ | ⟨-, hge, hb⟩ <;> rw [hb]
  · rw [Block.stepsLeft_idle rfl]
    rw [hlast] at hmore ⊢
    omega
  · have hw : b.width ≠ 0#32 := fun h0 => absurd (h0 ▸ hlt) (Nat.not_lt_zero _)
    have hsplit := nblock_add_nrest hw
    have hidx := hmore hlt
    have hleft := Block.stepsLeft_bctrl (b := { b with phase := .bctrl }) rfl
    dsimp only at hleft
    omega
  · have hleft := Block.stepsLeft_rem (b := { b with phase := .rem }) rfl
    dsimp only at hleft
    omega

theorem toNat_half_of_ne_zero {h : BitVec 1} (hne : h ≠ 0#1) : h.toNat = 1 := by
  have hlt := h.isLt
  have hne : h.toNat ≠ 0 := fun h0 => hne (BitVec.eq_of_toNat_eq h0)
  omega

/-- SLOT does not wrap before the 16th slot of a block (spec/10_state.md R34). -/
theorem toNat_slot_succ {x : BitVec 4} (hne : x ≠ 15#4) : (x + 1#4).toNat = x.toNat + 1 := by
  have hlt := x.isLt
  have hne : x.toNat ≠ 15 := fun he => hne (BitVec.eq_of_toNat_eq he)
  rw [BitVec.toNat_add, BitVec.toNat_ofNat]
  omega

/-- BLKCNT does not wrap while a block of the line is left (spec/10_state.md R30). -/
theorem toNat_blkcnt_succ {k : BitVec 28} {w : Word} (h : k.toNat < nblock w) : (k + 1#28).toNat = k.toNat + 1 := by
  obtain ⟨-, hmax⟩ := nblock_bounds w
  rw [BitVec.toNat_add, BitVec.toNat_ofNat]
  omega

/-- A run is one step of its half-block, whose 16 slots and the blocks and slots after them are left (spec/42_block.md R106). -/
theorem Block.unpack_stepsLeft {b : Block} (hp : b.phase = .bpack) (n : BitVec 4) (run : BitVec 120) :
    (b.unpack n run).stepsLeft + 1 = b.stepsLeft := by
  rw [Block.stepsLeft_bpack hp]
  rcases b.unpack_cases n run with ⟨hhalf, hb⟩ | ⟨hhalf, hb⟩ <;> rw [hb]
  · rw [Block.stepsLeft_bpack (by exact hp), hhalf]
    simp only [BitVec.reduceToNat]
    omega
  · rw [Block.stepsLeft_bres rfl, toNat_half_of_ne_zero hhalf]
    simp only [BitVec.reduceToNat]
    omega

/-- A slot of a block is one step (spec/42_block.md R112), after the 16th of which NEXT() finds one block more done. -/
theorem Block.nextSlot_stepsLeft {b : Block} (hp : b.phase = .bres) (hk : b.blkcnt.toNat < nblock b.width)
    (hidx : b.idx.toNat = 2 + 16 * b.blkcnt.toNat + b.slot.toNat) :
    b.nextSlot.stepsLeft + 1
      = 16 - b.slot.toNat + 19 * (nblock b.width - b.blkcnt.toNat - 1) + nrest b.width := by
  obtain ⟨hfit, -⟩ := nblock_bounds b.width
  have hw : b.width ≠ 0#32 := fun h0 => absurd (h0 ▸ hk) (Nat.not_lt_zero _)
  have hsplit := nblock_add_nrest hw
  rcases b.nextSlot_cases with ⟨hlast, hb⟩ | ⟨hslot, hb⟩ <;> rw [hb]
  · have hs : b.slot.toNat = 15 := by simp [hlast]
    have hleft := Block.nextPhase_stepsLeft (b := { b with blkcnt := b.blkcnt + 1#28 }) (w := b.width) (i := b.idx.toNat)
      rfl (toNat_blkcnt_succ hk) rfl hk (by omega) fun _ => by omega
    omega
  · rw [Block.stepsLeft_bres (by exact hp)]
    dsimp only
    rw [toNat_slot_succ hslot]
    have := b.slot.isLt
    have : b.slot.toNat ≠ 15 := fun he => hslot (BitVec.eq_of_toNat_eq he)
    omega

/-- A token that does not end the operation is one of the steps left. -/
theorem TokenStep.stepsLeft {s t : State} (h : TokenStep s t) (hc : s.blk.consistent = true) :
    t.blk.phase = .idle ∨ t.blk.stepsLeft + 1 = s.blk.stepsLeft := by
  obtain ⟨hfit, -⟩ := nblock_bounds s.blk.width
  cases h with
  | short n _ => exact .inl rfl
  | first n v hp _ _ =>
    obtain ⟨-, -, -, -, hcnt, hw, -⟩ := (Block.consistent_first_iff hp).1 hc
    have hsplit := nblock_add_nrest (w := s.blk.width) (by rintro h0; simp [h0] at hw)
    have hleft := Block.nextPhase_stepsLeft (b := { s.blk.advance n with acc := v, idx := 1#32 }) (w := s.blk.width) (k := 0) (i := 1) rfl
      (by simp [hcnt]) rfl (Nat.zero_le _) hw fun _ => rfl
    right
    rw [Block.stepsLeft_first hp, State.setBlk_blk]
    omega
  | bctrl n0 n1 hp _ =>
    obtain ⟨-, hk, -⟩ := (Block.consistent_bctrl_iff (.inl hp)).1 hc
    right
    rw [Block.stepsLeft_bctrl hp, Block.stepsLeft_bpack rfl]
    simp only [State.setBlk_blk, Block.setWidths_half, Block.setWidths_width, Block.setWidths_blkcnt, Block.advance_width,
      Block.advance_blkcnt, BitVec.reduceToNat]
    omega
  | bpack run hp _ => exact .inr (Block.unpack_stepsLeft (by exact hp) _ _)
  | bres n o hp _ _ =>
    obtain ⟨-, hk, hidx⟩ := (Block.consistent_bres_iff hp).1 hc
    have hnext := toNat_succ_of_lt (Block.idx_lt_width hc (.inr (.inl hp)))
    right
    rw [Block.stepsLeft_bres hp]
    exact Block.nextSlot_stepsLeft (b := { s.blk.advance n with acc := s.blk.acc + o, idx := s.blk.idx + 1#32 })
      (by exact hp) hk (by rw [hnext]; dsimp only [Block.advance]; omega)
  | rem n d hp _ _ =>
    obtain ⟨-, hk, hlow, hidx⟩ := (Block.consistent_rem_iff hp).1 hc
    have hleft := Block.nextPhase_stepsLeft
      (b := { s.blk.advance n with acc := s.blk.acc + d, idx := s.blk.idx + 1#32 }) (w := s.blk.width) rfl hk
      (toNat_succ_of_lt hidx) le_rfl hidx fun hlt => absurd hlt (lt_irrefl _)
    right
    rw [Block.stepsLeft_rem hp, State.setBlk_blk]
    omega

/-- The ZFILL step, too, ends the operation or is one of the steps left (spec/40_sequencer.md R82). -/
theorem zfillStep_stepsLeft {s t : State} (h : zfillStep s = .next t) (hp : s.blk.phase = .zfill)
    (hc : s.blk.consistent = true) : t.blk.phase = .idle ∨ t.blk.stepsLeft + 1 = s.blk.stepsLeft := by
  rcases zfillStep_next_iff.1 h with ⟨-, rfl⟩ | ⟨hw, -, rfl⟩
  · exact .inl rfl
  obtain ⟨-, -, -, -, -, hz⟩ := (Block.consistent_zfill_iff hp).1 hc
  have hz := hz.resolve_right fun hz => hw hz.1
  have hzi := toNat_succ_of_lt hz
  right
  rw [Block.stepsLeft_zfill hp hw, State.setBlk_blk]
  by_cases hlast : s.blk.zi + 1#32 = s.blk.width
  · rw [Block.stepsLeft_first (by simp [Block.nextZero, hlast]), Block.nextZero_width]
    rw [hlast] at hzi
    omega
  · rw [Block.stepsLeft_zfill (b := s.blk.nextZero) (by simp [Block.nextZero, hlast]) hw, Block.nextZero_width, Block.nextZero_zi, hzi]
    omega

/-- A step of a running block ends the operation or is one of the steps left. -/
theorem blockStep_stepsLeft {s t : State} (h : blockStep s = .next t) (hc : s.blk.consistent = true)
    (hb : s.blk.busy = true) : t.blk.phase = .idle ∨ t.blk.stepsLeft + 1 = s.blk.stepsLeft := by
  rcases blockStep_cases h with ⟨hp, -⟩ | ⟨hp, h⟩ | ⟨-, -, h⟩
  · exact absurd hp ((Block.busy_iff _).1 hb)
  · exact zfillStep_stepsLeft h hp hc
  · exact h.stepsLeft hc

/-- A running block has a step left (spec/40_sequencer.md R92). -/
theorem Block.stepsLeft_pos {b : Block} (hc : b.consistent = true) (hb : b.busy = true) : 0 < b.stepsLeft := by
  cases hp : b.phase with
  | idle => exact absurd hp ((Block.busy_iff b).1 hb)
  | zfill =>
    by_cases hw : b.width = 0#32
    · simp [Block.stepsLeft, hp, hw]
    · rw [Block.stepsLeft_zfill hp hw]
      omega
  | first => rw [Block.stepsLeft_first hp]; omega
  | bctrl =>
    obtain ⟨-, hk, -⟩ := (Block.consistent_bctrl_iff (.inl hp)).1 hc
    rw [Block.stepsLeft_bctrl hp]
    omega
  | bpack => rw [Block.stepsLeft_bpack hp]; omega
  | bres => rw [Block.stepsLeft_bres hp]; omega
  | rem =>
    have hidx := Block.idx_lt_width hc (.inr (.inr hp))
    rw [Block.stepsLeft_rem hp]
    omega

/-- Every step of a running block lowers the bound. -/
theorem blockStep_stepsLeft_lt {s t : State} (h : blockStep s = .next t) (hc : s.blk.consistent = true)
    (hb : s.blk.busy = true) : t.blk.stepsLeft < s.blk.stepsLeft := by
  rcases blockStep_stepsLeft h hc hb with hi | hleft
  · rw [Block.stepsLeft_idle hi]
    exact Block.stepsLeft_pos hc hb
  · omega

/-- Settles O23: START leaves the bound, and the one step is the block's. -/
theorem everyStepLowersTheStepBound : Obligations.EveryStepLowersTheStepBound := by
  refine ⟨Block.start_stepsLeft, fun s t hs hb hsched h => ?_⟩
  rw [step_of_sched_nil hsched] at h
  have hc := State.consistent_blk hs
  exact ⟨blockStep_stepsLeft_lt h hc hb,
    fun hbusy => (blockStep_stepsLeft h hc hb).resolve_left ((Block.busy_iff _).1 hbusy)⟩

end Sys2Proof.Machine
end

section
/-! PROOFS. The block's step over the rest of the input: what `fetch` answers there, whole token or cut (spec/40_sequencer.md
R86, R88). -/

namespace Sys2Proof.Machine

/-! ### Tokens in a longer input -/

/-- Bytes too few for a token make a cut one: nothing of it is consumed without its lead part, the lead byte with it (R88). -/
theorem toFetched_decode_cut {c : Ctx} {bs : List Byte} (hc : c ≠ .host) (h : bs.length < c.leadLen + c.tailLen bs) :
    toFetched (decode c bs) = .short (if bs.length < c.leadLen then 0 else 1) := by
  cases c with
  | host => exact absurd rfl hc
  | first | rem =>
    cases bs with
    | nil => rfl
    | cons b bs =>
      have hcut : bs.length < leadLiteralLen b := by simp only [Ctx.leadLen, Ctx.tailLen, List.length_cons] at h; omega
      simp [decode, decodeSingle, hcut, toFetched, DecodeError.consumed, Ctx.leadLen]
  | bctrl =>
    cases bs with
    | nil => rfl
    | cons b bs => simp [Ctx.leadLen, Ctx.tailLen] at h
  | bpack n =>
    have hcut : bs.length < n.toNat := h
    simp [decode, decodeRun, hcut, toFetched, DecodeError.consumed, Ctx.leadLen]
  | bres o =>
    have hcut : bs.length < (literalClass o).literalLen := h
    simp [decode, decodeSlot, hcut, toFetched, DecodeError.consumed, Ctx.leadLen]

/-- A whole token is the same token with any bytes after it (spec/30_encoding.md R72). -/
theorem toFetched_decode_append {c : Ctx} {bs : List Byte} (hc : c ≠ .host) (h : c.leadLen + c.tailLen bs ≤ bs.length)
    (rest : List Byte) : toFetched (decode c (bs ++ rest)) = toFetched (decode c bs) := by
  obtain ⟨i, rest', hd⟩ := (streamDecodesWheneverLongEnough c bs hc).1 h
  obtain ⟨hwf, hfits, hbs⟩ := encodeRestoresDecodedBytes c bs rest' i hd
  have hd' := decodeReadsBackEncode c i (rest' ++ rest) hwf hfits
  rw [← List.append_assoc, ← hbs] at hd'
  rw [hd, hd']
  rfl

/-! ### Fetching from the rest of the input -/

/-- The bytes from CUR to the end of the input. -/
structure State.Rest (s : State) (bs : List Byte) : Prop where
  line : s.Line bs
  fills : s.blk.cur.toNat + bs.length = s.blk.inLen.toNat

theorem State.Rest.need_iff {s : State} {bs : List Byte} (h : s.Rest bs) {n : Nat} :
    s.blk.need n = true ↔ n ≤ bs.length := by
  have := h.fills
  simp only [Block.need, decide_eq_true_eq]
  omega

/-- A part of the rest stands at the cursor too. -/
theorem State.Rest.line_of_append {s : State} {bs us vs : List Byte} (h : s.Rest bs) (hbs : bs = us ++ vs) :
    s.Line us := by
  subst hbs
  obtain ⟨hneed, hread⟩ := h.line
  rw [List.length_append] at hneed hread
  obtain ⟨us', vs', hus, -, he⟩ := State.readBytes_append_iff.1 hread
  obtain ⟨rfl, -⟩ := List.append_inj he (State.readBytes_length hus).symm
  exact ⟨Block.need_le hneed (Nat.le_add_right ..), hus⟩

/-- The length of a token's second part is known from any bytes that hold the first (spec/30_encoding.md R64). -/
theorem Ctx.tailLen_take {c : Ctx} {bs : List Byte} {n : Nat} (hn : c.leadLen ≤ n) (hbs : c.leadLen ≤ bs.length) :
    c.tailLen (bs.take n) = c.tailLen bs := by
  cases c with
  | bctrl | bpack _ | bres _ | host => rfl
  | first | rem =>
    obtain ⟨b, bs, rfl⟩ := List.exists_cons_of_length_pos hbs
    obtain ⟨n, rfl⟩ := Nat.exists_eq_add_of_le' hn
    rfl

/-- Over the rest of the input `fetch` answers what the decoder reads there, whole token or cut. -/
theorem State.Rest.fetch {s : State} {bs : List Byte} (h : s.Rest bs) {c : Ctx} (hc : c ≠ .host) :
    fetch c s = .next (toFetched (decode c bs)) := by
  have hpart (n : Nat) : s.Line (bs.take n) := h.line_of_append (List.take_append_drop n bs).symm
  by_cases hlead : c.leadLen ≤ bs.length
  · by_cases hwhole : c.leadLen + c.tailLen bs ≤ bs.length
    · have htail := Ctx.tailLen_take (Nat.le_add_right c.leadLen (c.tailLen bs)) hlead
      have hlen := List.length_take_of_le hwhole
      have hsame := toFetched_decode_append hc (by rw [htail, hlen]) (bs.drop (c.leadLen + c.tailLen bs))
      rw [List.take_append_drop] at hsame
      rw [hsame]
      exact fetch_of_line (hpart _) (by rw [htail, hlen])
    · have htail := Ctx.tailLen_take le_rfl hlead
      have hlen := List.length_take_of_le hlead
      have hread : s.inputBytes 0 c.leadLen = .next (bs.take c.leadLen) := by
        simpa only [hlen] using (hpart c.leadLen).2
      rw [toFetched_decode_cut hc (not_le.1 hwhole), if_neg (not_lt.2 hlead), Machine.fetch, if_pos (h.need_iff.2 hlead),
        hread, andThen_next, htail, if_neg (by rwa [h.need_iff]),
        toFetched_decode_cut hc (by rw [htail, hlen]; omega), if_neg (by omega)]
  · have hnone : 0 < c.leadLen := by omega
    rw [toFetched_decode_cut hc (by omega), if_pos (not_le.1 hlead), Machine.fetch, if_neg (by rwa [h.need_iff]),
      toFetched_decode_cut hc (Nat.lt_of_lt_of_le hnone (Nat.le_add_right ..)), if_pos (by exact hnone)]

/-- The block's step over the rest of the input runs what the decoder reads there. -/
theorem State.Rest.blockStep {s : State} {bs : List Byte} (h : s.Rest bs) {c : Ctx} (hc : s.blk.ctx = some c) :
    blockStep s = runFetched (toFetched (decode c bs)) s := by
  simp only [Machine.blockStep, hc, h.fetch (Block.ctx_ne_host hc), andThen_next]

/-- Settles O15: the decoder's rejection of the rest is what is fetched, and says what is consumed. -/
theorem cutTokenEndsTheOperation : Obligations.CutTokenEndsTheOperation := by
  intro s c bs e hsched hc hline hfills hd
  have hrest : s.Rest bs := ⟨hline, hfills⟩
  rw [step_of_sched_nil hsched, hrest.blockStep hc, hd]
  rfl

end Sys2Proof.Machine
end

section
/-! PROOFS. The block's step in each phase, by what DECODE() reads of the line (spec/40_sequencer.md R80), and that a running
block with its regions in memory always has one. -/

namespace Sys2Proof.Machine

/-! ### The line at the cursor -/

/-- The input region holds the line, and CUR is inside it. -/
structure State.Reads (s : State) (line : List Byte) : Prop where
  holds : s.HoldsLine line
  cur_le : s.blk.cur.toNat ≤ line.length

section
variable {s : State} {line : List Byte} (h : s.Reads line)
include h

/-- What is left of the line is the rest of the input. -/
theorem State.Reads.rest : s.Rest (line.drop s.blk.cur.toNat) := by
  obtain ⟨hlen, hread⟩ := h.holds
  have hcur := h.cur_le
  have hsplit : line.length = s.blk.cur.toNat + (line.drop s.blk.cur.toNat).length := by rw [List.length_drop]; omega
  rw [hsplit] at hread
  obtain ⟨us, vs, hus, hvs, he⟩ := State.readBytes_append_iff.1 hread
  have hvs' : vs = line.drop s.blk.cur.toNat := by rw [he, List.drop_left' (State.readBytes_length hus)]
  refine ⟨⟨?_, hvs' ▸ hvs⟩, by omega⟩
  simp only [Block.need, decide_eq_true_eq]
  omega

/-- The guard of a read is DECODE()'s. -/
theorem State.Reads.need (n : Nat) : s.blk.need n = lineNeed line s.blk.cur.toNat n := by
  rw [Block.need, lineNeed, h.holds.1]

theorem State.Reads.need_of_le {n : Nat} (hn : n ≤ (line.drop s.blk.cur.toNat).length) : s.blk.need n = true :=
  h.rest.need_iff.2 hn

/-- With a byte left, the rest of the line is that byte and the rest after it. -/
theorem State.Reads.drop_eq (hn : s.blk.need 1 = true) :
    line.drop s.blk.cur.toNat = line.getD s.blk.cur.toNat 0#8 :: line.drop (s.blk.cur.toNat + 1) := by
  rw [h.need, lineNeed_eq_true_iff] at hn
  rw [List.drop_eq_getElem_cons hn, List.getD_eq_getElem _ _ hn]

end

/-! ### The context of each phase (spec/30_encoding.md R62) -/

section
variable {b : Block}

theorem Block.ctx_first_iff : b.ctx = some .first ↔ b.phase = .first := by cases hp : b.phase <;> simp [Block.ctx, hp]
theorem Block.ctx_rem_iff : b.ctx = some .rem ↔ b.phase = .rem := by cases hp : b.phase <;> simp [Block.ctx, hp]
theorem Block.ctx_bctrl_iff : b.ctx = some .bctrl ↔ b.phase = .bctrl := by cases hp : b.phase <;> simp [Block.ctx, hp]
theorem Block.ctx_bpack_iff {n : BitVec 4} : b.ctx = some (.bpack n) ↔ b.phase = .bpack ∧ b.nbit = n := by
  cases hp : b.phase <;> simp [Block.ctx, hp]
theorem Block.ctx_bres_iff {o : BitVec 16} : b.ctx = some (.bres o) ↔ b.phase = .bres ∧ b.slotOffset = o := by
  cases hp : b.phase <;> simp [Block.ctx, hp]

end

/-! ### Single-pixel tokens -/

/-- What SINGLE() says of the token at the cursor (spec/41_first_pixel.md R97), and what the step does: it ends the operation
past `n` bytes, or goes on with `k v` past them. -/
inductive SingleStep (s : State) (line : List Byte) (k : Word → State → Result State) (r : Result State) : Prop
  | short (n : Nat) (hline : lineSingle line s.blk.cur.toNat = (s.blk.cur.toNat + n, none)) (hn : s.blk.need n = true)
    (hr : r = .next (endShort n s))
  | token (n : Nat) (v : Word) (hline : lineSingle line s.blk.cur.toNat = (s.blk.cur.toNat + n, some v))
    (hn : s.blk.need n = true) (hr : r = k v (s.setBlk (s.blk.advance n)))

/-- A lead byte and its literal: past the lead byte alone the operation ends, past both it goes on (R88). -/
theorem consume_consume {s : State} {m n : Nat} {k : State → Result State} (hm : s.blk.need (m + n) = true) :
    (consume m s fun s => consume n s k) = k (s.setBlk (s.blk.advance (m + n))) := by
  have hlead := Block.need_le hm (Nat.le_add_right m n)
  rw [consume_need hlead, consume_need (by simpa [Block.need_advance hlead] using hm)]
  simp

section
variable {line : List Byte} {cur : Nat}

theorem lineSingle_noLead (h : lineNeed line cur 1 = false) : lineSingle line cur = (cur, none) := by
  simp only [lineSingle, h, Bool.not_false, if_true]

theorem lineSingle_biased (h : lineNeed line cur 1 = true) (hb : (line.getD cur 0#8).toNat ≤ 253) :
    lineSingle line cur = (cur + 1, some (biased (line.getD cur 0#8))) := by
  simp only [lineSingle, h, Bool.not_true, Bool.false_eq_true, if_false, hb, if_true]

theorem lineSingle_literal16 (h : lineNeed line cur 1 = true) (hb : (line.getD cur 0#8).toNat = 254) :
    lineSingle line cur = if lineNeed line (cur + 1) 2 then
      (cur + 3, some (literal16 (BitVec.ofNat 16 (leValue (lineBytes line (cur + 1) 2))))) else (cur + 1, none) := by
  simp only [lineSingle, h, hb]
  cases lineNeed line (cur + 1) 2 <;> rfl

theorem lineSingle_literal32 (h : lineNeed line cur 1 = true) (hb : (line.getD cur 0#8).toNat = 255) :
    lineSingle line cur = if lineNeed line (cur + 1) 4 then
      (cur + 5, some (literal32 (BitVec.ofNat 32 (leValue (lineBytes line (cur + 1) 4))))) else (cur + 1, none) := by
  simp only [lineSingle, h, hb]
  cases lineNeed line (cur + 1) 4 <;> rfl

/-- Too few bytes are left of the line exactly where DECODE()'s guard fails. -/
theorem length_drop_lt_iff {n : Nat} (hcur : cur ≤ line.length) :
    (line.drop cur).length < n ↔ lineNeed line cur n = false := by
  rw [← Bool.not_eq_true, lineNeed_eq_true_iff, List.length_drop]
  omega

end

/-- A number whose bytes are all there is read from them, and one cut short is rejected by name. -/
theorem toFetched_readNumber {w n : Nat} {e : DecodeError} {f : BitVec w → Instr} {bs : List Byte} :
    toFetched (readNumber e n f bs)
      = if bs.length < n then .short e.consumed else .token (f (BitVec.ofNat w (leValue (bs.take n)))) := by
  unfold readNumber
  split_ifs <;> rfl

/-- A lead byte with an `n`-byte literal after it: cut, or run past both (spec/40_sequencer.md R88). -/
theorem singleStep_literal {s : State} {line : List Byte} {k : Word → State → Result State} {w n : Nat}
    {lit : BitVec w → Instr} {val : BitVec w → Word} (h : s.Reads line) (h1 : s.blk.need 1 = true)
    (hexec : ∀ l, exec (lit l) s = consume 1 s fun s => consume n s fun s => k (val l) s)
    (hline : lineSingle line s.blk.cur.toNat = if lineNeed line (s.blk.cur.toNat + 1) n then
      (s.blk.cur.toNat + (1 + n), some (val (BitVec.ofNat w (leValue (lineBytes line (s.blk.cur.toNat + 1) n)))))
      else (s.blk.cur.toNat + 1, none)) :
    SingleStep s line k
      (runFetched (toFetched (readNumber .literalCut n lit (line.drop (s.blk.cur.toNat + 1)))) s) := by
  have hneed : s.blk.need (1 + n) = lineNeed line (s.blk.cur.toNat + 1) n := by
    rw [h.need, lineNeed, lineNeed, Nat.add_assoc]
  have hcut : (line.drop (s.blk.cur.toNat + 1)).length < n ↔ s.blk.need (1 + n) = false := by
    rw [hneed]
    exact length_drop_lt_iff (lineNeed_eq_true_iff.1 (h.need 1 ▸ h1))
  rw [toFetched_readNumber]
  rw [← hneed] at hline
  cases hlit : s.blk.need (1 + n) with
  | false =>
    rw [if_pos (hcut.2 hlit)]
    exact .short 1 (by rw [hline, hlit]; rfl) h1 rfl
  | true =>
    rw [if_neg (by rw [hcut, hlit]; simp)]
    exact .token (1 + n) _ (by rw [hline, hlit]; rfl) hlit ((hexec _).trans (consume_consume hlit))

/-- The three forms of a single-pixel token (spec/30_encoding.md R63), run past their lead byte and their literal. -/
theorem singleStep_of_exec {s : State} {line : List Byte} {k : Word → State → Result State} {lit32 : Word → Instr}
    {lit16 : BitVec 16 → Instr} {short : Byte → Instr} (h : s.Reads line)
    (h32 : ∀ lit, exec (lit32 lit) s = consume 1 s fun s => consume 4 s fun s => k (literal32 lit) s)
    (h16 : ∀ lit, exec (lit16 lit) s = consume 1 s fun s => consume 2 s fun s => k (literal16 lit) s)
    (h8 : ∀ b, exec (short b) s = consume 1 s fun s => k (biased b) s) :
    SingleStep s line k (runFetched (toFetched (decodeSingle lit32 lit16 short (line.drop s.blk.cur.toNat))) s) := by
  cases h1 : s.blk.need 1 with
  | false =>
    have hnone : (line.drop s.blk.cur.toNat).length < 1 := (length_drop_lt_iff h.cur_le).2 (h.need 1 ▸ h1)
    rw [List.length_eq_zero_iff.1 (Nat.lt_one_iff.1 hnone)]
    exact .short 0 (lineSingle_noLead (h.need 1 ▸ h1)) (h.need_of_le (Nat.zero_le _)) (by rfl)
  | true =>
    have hlead : lineNeed line s.blk.cur.toNat 1 = true := h.need 1 ▸ h1
    rw [h.drop_eq h1]
    by_cases hlong : line.getD s.blk.cur.toNat 0#8 = Config.escLongByte
    · have hline := lineSingle_literal32 hlead (by rw [hlong]; rfl)
      rw [hlong, decodeSingle_escLong]
      exact singleStep_literal h h1 h32 hline
    by_cases hshort : line.getD s.blk.cur.toNat 0#8 = Config.escShortByte
    · have hline := lineSingle_literal16 hlead (by rw [hshort]; rfl)
      rw [hshort, decodeSingle_escShort]
      exact singleStep_literal h h1 h16 hline
    · rw [decodeSingle_short hlong hshort]
      exact .token 1 _ (lineSingle_biased hlead (by bv_omega)) h1 ((h8 _).trans (consume_need h1))

/-- FIRST runs SINGLE() and stores slot 0 (spec/41_first_pixel.md R97, R98). -/
theorem blockStep_first {s : State} {line : List Byte} (h : s.Reads line) (hp : s.blk.phase = .first) :
    SingleStep s line storeFirst (blockStep s) := by
  rw [h.rest.blockStep (Block.ctx_first_iff.2 hp)]
  have hok := decide_eq_true hp
  exact singleStep_of_exec h (fun _ => by rw [exec, execPixS32, hok]; rfl) (fun _ => by rw [exec, execPixS16, hok]; rfl)
    fun _ => by rw [exec, execPixB, hok]; rfl

/-- REM runs SINGLE() and adds its value (spec/43_remainder.md R123). -/
theorem blockStep_rem {s : State} {line : List Byte} (h : s.Reads line) (hp : s.blk.phase = .rem) :
    SingleStep s line addDelta (blockStep s) := by
  rw [h.rest.blockStep (Block.ctx_rem_iff.2 hp)]
  have hok := decide_eq_true hp
  exact singleStep_of_exec h (fun _ => by rw [exec, execDltS32, hok]; rfl) (fun _ => by rw [exec, execDltS16, hok]; rfl)
    fun _ => by rw [exec, execDltB, hok]; rfl

/-! ### The tokens of a block -/

/-- A token without the bytes of its first part ends the operation in place (spec/40_sequencer.md R86, R89). -/
theorem blockStep_cut {s : State} {line : List Byte} {c : Ctx} (h : s.Reads line) (hc : s.blk.ctx = some c)
    (hn : s.blk.need c.leadLen = false) : blockStep s = .next s.finish := by
  have hcut : (line.drop s.blk.cur.toNat).length < c.leadLen := (length_drop_lt_iff h.cur_le).2 (h.need _ ▸ hn)
  rw [h.rest.blockStep hc, toFetched_decode_cut (Block.ctx_ne_host hc) (Nat.lt_add_right _ hcut), if_pos hcut,
    runFetched, endShort_zero]

/-- BCTRL reads the two widths from its byte (spec/42_block.md R104, R105). -/
theorem blockStep_bctrl {s : State} {line : List Byte} (h : s.Reads line) (hp : s.blk.phase = .bctrl)
    (hn : s.blk.need 1 = true) :
    ∃ n0 n1 : BitVec 4, n0.toNat = (line.getD s.blk.cur.toNat 0#8).toNat % 16
      ∧ n1.toNat = (line.getD s.blk.cur.toNat 0#8).toNat / 16
      ∧ blockStep s = .next (s.setBlk ((s.blk.advance 1).setWidths n0 n1)) := by
  have hok := decide_eq_true hp
  refine ⟨(line.getD s.blk.cur.toNat 0#8).extractLsb' 0 4, (line.getD s.blk.cur.toNat 0#8).extractLsb' 4 4, ?_, ?_, ?_⟩
  · rw [BitVec.extractLsb'_toNat, Nat.shiftRight_zero]
  · have hbyte := (line.getD s.blk.cur.toNat 0#8).isLt
    rw [BitVec.extractLsb'_toNat, Nat.shiftRight_eq_div_pow]
    omega
  · rw [h.rest.blockStep (Block.ctx_bctrl_iff.2 hp), h.drop_eq hn]
    show execBlk _ _ s = _
    rw [execBlk, hok, inContext_true, consume_need hn]
    rfl

/-- BPACK unpacks the run of its half-block (spec/42_block.md R106). -/
theorem blockStep_bpack {s : State} {line : List Byte} (h : s.Reads line) (hp : s.blk.phase = .bpack)
    (hn : s.blk.need s.blk.nbit.toNat = true) :
    blockStep s = .next (s.setBlk ((s.blk.advance s.blk.nbit.toNat).unpack s.blk.nbit
      (BitVec.ofNat 120 (leValue (lineBytes line s.blk.cur.toNat s.blk.nbit.toNat))))) := by
  have hcut : ¬(line.drop s.blk.cur.toNat).length < s.blk.nbit.toNat := by
    rw [length_drop_lt_iff h.cur_le, ← h.need, hn]
    simp
  rw [h.rest.blockStep (Block.ctx_bpack_iff.2 ⟨hp, rfl⟩), decode, decodeRun_eq, toFetched_readNumber, if_neg hcut]
  show execHalf _ _ s = _
  rw [execHalf, show (decide (s.blk.phase = .bpack) && decide (s.blk.nbit = s.blk.nbit)) = true by simp [hp],
    inContext_true, consume_need hn]
  rfl

section
variable {line : List Byte} {o : BitVec 16} {p : Progress}

theorem lineSlot_field (h : o.toInt < 127) : lineSlot line o p = (p.push (p.acc + offset32 o), true) := by
  rw [lineSlot, if_neg (by omega), if_neg (by omega)]

theorem lineSlot_esc16 (h : o.toInt = 127) :
    lineSlot line o p = if lineNeed line p.cur 2 then
      ({ p with cur := p.cur + 2 }.push (p.acc + literal16 (BitVec.ofNat 16 (leValue (lineBytes line p.cur 2)))), true)
      else (p, false) := by
  rw [lineSlot, if_neg (by omega), if_pos h.ge]
  cases lineNeed line p.cur 2 <;> rfl

theorem lineSlot_esc32 (h : 128 ≤ o.toInt) :
    lineSlot line o p = if lineNeed line p.cur 4 then
      ({ p with cur := p.cur + 4 }.push (p.acc + literal32 (BitVec.ofNat 32 (leValue (lineBytes line p.cur 4)))), true)
      else (p, false) := by
  rw [lineSlot, if_pos h]
  cases lineNeed line p.cur 4 <;> rfl

end

/-- What DECODE() does for the slot at progress `p`, and what the step does: it ends the operation, or goes on with the slot's
addend past `n` bytes. -/
inductive SlotStep (s : State) (line : List Byte) (p : Progress) (r : Result State) : Prop
  | short (hline : lineSlot line s.blk.slotOffset p = (p, false)) (hr : r = .next s.finish)
  | token (n : Nat) (d : Word)
    (hline : lineSlot line s.blk.slotOffset p = ({ p with cur := p.cur + n }.push (p.acc + d), true))
    (hn : s.blk.need n = true) (hr : r = resolveSlot d (s.setBlk (s.blk.advance n)))

/-- A slot with an `n`-byte escape literal: cut, or resolved by it (spec/42_block.md R115, R116, R121). -/
theorem slotStep_escape {s : State} {line : List Byte} {p : Progress} {w n : Nat} {lit : BitVec w → Instr}
    {val : BitVec w → Word} (h : s.Reads line) (hp : s.blk.phase = .bres) (hcur : p.cur = s.blk.cur.toNat)
    (hlen : (literalClass s.blk.slotOffset).literalLen = n)
    (hd : ∀ bs, decodeSlot s.blk.slotOffset bs = readNumber .escapeCut n lit bs)
    (hexec : ∀ l, exec (lit l) s = consume n s fun s => resolveSlot (val l) s)
    (hline : lineSlot line s.blk.slotOffset p = if lineNeed line p.cur n then
      ({ p with cur := p.cur + n }.push (p.acc + val (BitVec.ofNat w (leValue (lineBytes line p.cur n)))), true)
      else (p, false)) : SlotStep s line p (blockStep s) := by
  have hc := Block.ctx_bres_iff.2 ⟨hp, rfl⟩
  rw [hcur, ← h.need] at hline
  cases hn : s.blk.need n with
  | false => exact .short (by rw [hline, hn]; rfl) (blockStep_cut h hc (by rwa [Ctx.leadLen, hlen]))
  | true =>
    refine .token n _ (by rw [hline, hn, hcur]; rfl) hn ?_
    have hwhole : ¬(line.drop s.blk.cur.toNat).length < n := by
      rw [length_drop_lt_iff h.cur_le, ← h.need, hn]
      simp
    rw [h.rest.blockStep hc, decode, hd, toFetched_readNumber, if_neg hwhole]
    exact (hexec _).trans (consume_need hn)

/-- BRES resolves its slot (spec/42_block.md R112 to R116). -/
theorem blockStep_bres {s : State} {line : List Byte} {p : Progress} (h : s.Reads line) (hp : s.blk.phase = .bres)
    (hcur : p.cur = s.blk.cur.toNat) : SlotStep s line p (blockStep s) := by
  have hok {k : LitClass} (hk : literalClass s.blk.slotOffset = k) :
      (decide (s.blk.phase = .bres) && decide (literalClass s.blk.slotOffset = k)) = true := by simp [hp, hk]
  cases hk : literalClass s.blk.slotOffset with
  | field =>
    refine .token 0 _ (lineSlot_field (literalClass_field_iff.1 hk)) (h.need_of_le (Nat.zero_le _)) ?_
    rw [h.rest.blockStep (Block.ctx_bres_iff.2 ⟨hp, rfl⟩), decode, decodeSlot_field hk]
    show execSlotField s = _
    rw [execSlotField, hok hk, inContext_true, Block.advance_zero, State.setBlk_self]
  | esc16 =>
    exact slotStep_escape h hp hcur (by rw [hk]; rfl) (fun _ => decodeSlot_esc16 hk)
      (fun _ => by rw [exec, execSlotEsc16, hok hk]; rfl) (lineSlot_esc16 (literalClass_esc16_iff.1 hk))
  | esc32 =>
    exact slotStep_escape h hp hcur (by rw [hk]; rfl) (fun _ => decodeSlot_esc32 hk)
      (fun _ => by rw [exec, execSlotEsc32, hok hk]; rfl) (lineSlot_esc32 (literalClass_esc32_iff.1 hk))

/-! ### A running block always steps -/

theorem storeFirst_next {s : State} (h : s.slotOk 0 = true) (v : Word) (n : Nat) :
    ∃ t, storeFirst v (s.setBlk (s.blk.advance n)) = .next t :=
  ⟨_, storeFirst_advance_iff.2 ⟨h, rfl⟩⟩

theorem addDelta_next {s : State} (h : s.slotOk s.blk.idx.toNat = true) (d : Word) (n : Nat) :
    ∃ t, addDelta d (s.setBlk (s.blk.advance n)) = .next t :=
  ⟨_, addDelta_advance_iff.2 ⟨h, rfl⟩⟩

theorem resolveSlot_next {s : State} (h : s.slotOk s.blk.idx.toNat = true) (o : Word) (n : Nat) :
    ∃ t, resolveSlot o (s.setBlk (s.blk.advance n)) = .next t :=
  ⟨_, resolveSlot_advance_iff.2 ⟨h, rfl⟩⟩

/-- The ZFILL step answers if slot ZI of the line can be written. -/
theorem zfillStep_next {s : State} (hp : s.blk.phase = .zfill) (hc : s.blk.consistent = true)
    (hslots : ∀ i, i < s.blk.width.toNat → s.slotOk i = true) : ∃ t, zfillStep s = .next t := by
  by_cases hw : s.blk.width = 0#32
  · exact ⟨_, zfillStep_next_iff.2 (.inl ⟨hw, rfl⟩)⟩
  · obtain ⟨-, -, -, -, -, hz⟩ := (Block.consistent_zfill_iff hp).1 hc
    exact ⟨_, zfillStep_next_iff.2 (.inr ⟨hw, hslots _ (hz.resolve_right fun hz => hw hz.1), rfl⟩)⟩

/-- Over a line in memory and writable slots the block's step answers, whatever the phase (spec/40_sequencer.md R86). -/
theorem State.Reads.blockStep_next {s : State} {line : List Byte} (h : s.Reads line) (hc : s.blk.consistent = true)
    (hslots : ∀ i, i < s.blk.width.toNat → s.slotOk i = true) : ∃ t, blockStep s = .next t := by
  cases hp : s.blk.phase with
  | idle => exact ⟨_, blockStep_of_idle hp⟩
  | zfill =>
    rw [blockStep_of_zfill hp]
    exact zfillStep_next hp hc hslots
  | first =>
    obtain ⟨-, -, -, -, -, hw, -⟩ := (Block.consistent_first_iff hp).1 hc
    rcases blockStep_first h hp with ⟨n, -, -, hr⟩ | ⟨n, v, -, -, hr⟩ <;> rw [hr]
    · exact ⟨_, rfl⟩
    · exact storeFirst_next (hslots 0 hw) v n
  | bctrl =>
    cases hn : s.blk.need 1 with
    | false => exact ⟨_, blockStep_cut h (Block.ctx_bctrl_iff.2 hp) hn⟩
    | true =>
      obtain ⟨n0, n1, -, -, hr⟩ := blockStep_bctrl h hp hn
      exact ⟨_, hr⟩
  | bpack =>
    cases hn : s.blk.need s.blk.nbit.toNat with
    | false => exact ⟨_, blockStep_cut h (Block.ctx_bpack_iff.2 ⟨hp, rfl⟩) hn⟩
    | true => exact ⟨_, blockStep_bpack h hp hn⟩
  | bres =>
    have hslot := hslots _ (Block.idx_lt_width hc (.inr (.inl hp)))
    rcases blockStep_bres (p := ⟨[], s.blk.cur.toNat, s.blk.acc⟩) h hp rfl with ⟨-, hr⟩ | ⟨n, d, -, -, hr⟩ <;> rw [hr]
    · exact ⟨_, rfl⟩
    · exact resolveSlot_next hslot d n
  | rem =>
    have hslot := hslots _ (Block.idx_lt_width hc (.inr (.inr hp)))
    rcases blockStep_rem h hp with ⟨n, -, -, hr⟩ | ⟨n, d, -, -, hr⟩ <;> rw [hr]
    · exact ⟨_, rfl⟩
    · exact addDelta_next hslot d n

/-- Bytes that can each be read can be read together. -/
theorem State.readBytes_next {s : State} {a n : Nat} (h : ∀ k, k < n → ∃ v, s.readByte (a + k) = .next v) :
    ∃ bs, s.readBytes a n = .next bs := by
  induction n generalizing a with
  | zero => exact ⟨[], rfl⟩
  | succ n ih =>
    obtain ⟨v, hv⟩ := h 0 n.succ_pos
    obtain ⟨vs, hvs⟩ := ih (a := a + 1) fun k hk => by simpa [Nat.add_assoc, Nat.add_comm 1] using h (k + 1) (by omega)
    exact ⟨v :: vs, State.readBytes_succ_next_iff.2 ⟨v, vs, hv, hvs, rfl⟩⟩

/-- Settles O24: an input that can be read holds some line. -/
theorem runningBlockAlwaysSteps : Obligations.RunningBlockAlwaysSteps := by
  intro s hs hb hsched hslots hread
  have hc := State.consistent_blk hs
  obtain ⟨-, -, hcur, -⟩ := Block.busy_bounds hc hb
  obtain ⟨line, hline⟩ := State.readBytes_next hread
  have hlen := State.readBytes_length hline
  have hreads : s.Reads line := ⟨⟨hlen, hlen ▸ hline⟩, hlen ▸ hcur⟩
  rw [step_of_sched_nil hsched]
  exact hreads.blockStep_next hc hslots

end Sys2Proof.Machine
end

section
/-! PROOFS. DECODE() on a cut input (spec/40_sequencer.md R93): each part of it, run on the line cut short, does what it does
on the whole line, or ends with the slots that the whole line begins with. -/

namespace Sys2Proof.Machine

/-! ### A block of DECODE() in its three parts -/

/-- The second half of a block of DECODE(): its run of `n` bytes, after the offsets `os` of the first, and the slots. -/
def lineHalf1 (line : List Byte) (os : List (BitVec 16)) (n : Nat) (p : Progress) : Progress × Bool :=
  if !lineNeed line p.cur n then (p, false)
  else lineSlots line (os ++ runOffsets (lineBytes line p.cur n)) { p with cur := p.cur + n }

/-- A block of DECODE() after its control byte: the run of `n0` bytes, then the second half. -/
def lineHalf0 (line : List Byte) (n0 n1 : Nat) (p : Progress) : Progress × Bool :=
  if !lineNeed line p.cur n0 then (p, false)
  else lineHalf1 line (runOffsets (lineBytes line p.cur n0)) n1 { p with cur := p.cur + n0 }

/-- A block is its control byte and then its two halves (spec/42_block.md R119). -/
theorem lineBlock_eq (line : List Byte) (p : Progress) :
    lineBlock line p = if !lineNeed line p.cur 1 then (p, false)
      else lineHalf0 line ((line.getD p.cur 0#8).toNat % 16) ((line.getD p.cur 0#8).toNat / 16)
        { p with cur := p.cur + 1 } := by rfl

/-! ### The remainder and the first pixel by what SINGLE() answers (spec/41_first_pixel.md R97) -/

section
variable {line : List Byte} {n cur : Nat} {p : Progress}

theorem lineRest_cut (h : lineSingle line p.cur = (cur, none)) :
    lineRest line (n + 1) p = ({ p with cur := cur }, false) := by
  rw [lineRest, h]

theorem lineRest_token {d : Word} (h : lineSingle line p.cur = (cur, some d)) :
    lineRest line (n + 1) p = lineRest line n ({ p with cur := cur }.push (p.acc + d)) := by
  rw [lineRest, h]

theorem decodeLine_cut {w : Word} (hw : w ≠ 0#32) (h : lineSingle line 0 = (cur, none)) :
    decodeLine line w = ⟨[], cur, 0#32⟩ := by
  rw [decodeLine, if_neg hw, h]

theorem decodeLine_token {w v : Word} (hw : w ≠ 0#32) (h : lineSingle line 0 = (cur, some v)) :
    decodeLine line w = (goOn (lineBlocks line (nblock w) ⟨[v], cur, v⟩) (lineRest line (nrest w))).1 := by
  rw [decodeLine, if_neg hw, h]

end

/-- The remainder keeps the slots already final. -/
theorem lineRest_keeps (line : List Byte) (n : Nat) (p : Progress) : p.out <+: (lineRest line n p).1.out := by
  induction n generalizing p with
  | zero => exact List.prefix_rfl
  | succ n ih =>
    rcases hs : lineSingle line p.cur with ⟨cur, _ | d⟩
    · rw [lineRest_cut hs]
    · rw [lineRest_token hs]
      exact (List.prefix_append ..).trans (ih ({ p with cur := cur }.push (p.acc + d)))

/-! ### Parts of DECODE() on a cut line -/

/-- One part of DECODE() from the final slots `out`, on a cut line (`r'`) and on the whole one (`r`): the slots already final
stay, the whole one's begin with the cut one's, and if the cut one goes on the two are the same. -/
structure CutPart (out : List Word) (r' r : Progress × Bool) : Prop where
  keeps : out <+: r'.1.out
  isPrefix : r'.1.out <+: r.1.out
  goesOn : r'.2 = true → r' = r

section
variable {out : List Word} {r' r : Progress × Bool}

theorem CutPart.refl (h : out <+: r.1.out) : CutPart out r r := ⟨h, List.prefix_rfl, fun _ => rfl⟩

theorem CutPart.keeps_whole (h : CutPart out r' r) : out <+: r.1.out := h.keeps.trans h.isPrefix

/-- What follows a part is cut as the part is. -/
theorem CutPart.goOn {f' f : Progress → Progress × Bool} (h : CutPart out r' r) (hf : ∀ q, CutPart q.out (f' q) (f q)) :
    CutPart out (goOn r' f') (goOn r f) := by
  unfold Machine.goOn
  cases hr' : r'.2 with
  | true =>
    obtain rfl := h.goesOn hr'
    have hnext := hf r'.1
    simp only [hr', if_true]
    exact ⟨h.keeps.trans hnext.keeps, hnext.isPrefix, hnext.goesOn⟩
  | false =>
    refine ⟨h.keeps, h.isPrefix.trans ?_, fun hon => absurd hon (by simp [hr'])⟩
    split_ifs
    · exact (hf r.1).keeps_whole
    · exact List.prefix_rfl

end

section
variable {line' line : List Byte} (hl : line' <+: line)
include hl

/-- What the cut line holds, the whole one holds too. -/
theorem lineNeed_of_prefix {cur n : Nat} (h : lineNeed line' cur n = true) : lineNeed line cur n = true := by
  rw [lineNeed_eq_true_iff] at h ⊢
  exact h.trans hl.length_le

theorem lineBytes_of_prefix {cur n : Nat} (h : lineNeed line' cur n = true) :
    lineBytes line' cur n = lineBytes line cur n := by
  rw [lineNeed_eq_true_iff] at h
  obtain ⟨rest, rfl⟩ := hl
  rw [lineBytes, lineBytes, List.drop_append_of_le_length (by omega), List.take_append_of_le_length (by simp; omega)]

theorem getD_of_prefix {cur : Nat} (h : lineNeed line' cur 1 = true) : line'.getD cur 0#8 = line.getD cur 0#8 := by
  rw [lineNeed_eq_true_iff] at h
  obtain ⟨rest, rfl⟩ := hl
  rw [List.getD_append _ _ _ _ (by omega)]

/-- SINGLE() reads the same value from the whole line as from the cut one, if it reads one there (spec/41_first_pixel.md R97). -/
theorem lineSingle_of_prefix {cur cur' : Nat} {v : Word} (h : lineSingle line' cur = (cur', some v)) :
    lineSingle line cur = (cur', some v) := by
  cases hlead : lineNeed line' cur 1 with
  | false => rw [lineSingle_noLead hlead] at h; cases h
  | true =>
    have hlead' := lineNeed_of_prefix hl hlead
    have hbyte := getD_of_prefix hl hlead
    have hcases : (line'.getD cur 0#8).toNat ≤ 253 ∨ (line'.getD cur 0#8).toNat = 254
        ∨ (line'.getD cur 0#8).toNat = 255 := by omega
    rcases hcases with hb | hb | hb
    · rwa [lineSingle_biased hlead hb, hbyte, ← lineSingle_biased hlead' (hbyte ▸ hb)] at h
    · rw [lineSingle_literal16 hlead hb] at h
      cases hlit : lineNeed line' (cur + 1) 2 with
      | false => rw [hlit] at h; cases h
      | true =>
        rw [lineSingle_literal16 hlead' (hbyte ▸ hb), lineNeed_of_prefix hl hlit, ← lineBytes_of_prefix hl hlit]
        rwa [hlit] at h
    · rw [lineSingle_literal32 hlead hb] at h
      cases hlit : lineNeed line' (cur + 1) 4 with
      | false => rw [hlit] at h; cases h
      | true =>
        rw [lineSingle_literal32 hlead' (hbyte ▸ hb), lineNeed_of_prefix hl hlit, ← lineBytes_of_prefix hl hlit]
        rwa [hlit] at h

/-- A part behind a guard: where the cut line fails the guard, it ends with the slots that it had. -/
theorem CutPart.guard {cur n : Nat} {p : Progress} {a' a : Progress × Bool} (hkeep : p.out <+: a.1.out)
    (ha : lineNeed line' cur n = true → CutPart p.out a' a) :
    CutPart p.out (if !lineNeed line' cur n then (p, false) else a') (if !lineNeed line cur n then (p, false) else a) := by
  cases h' : lineNeed line' cur n with
  | true => rw [lineNeed_of_prefix hl h']; exact ha h'
  | false =>
    rw [if_pos (by rfl)]
    refine ⟨List.prefix_rfl, ?_, nofun⟩
    split_ifs
    · exact List.prefix_rfl
    · exact hkeep

/-- One slot on a cut line (spec/42_block.md R112). -/
theorem cutPart_lineSlot (o : BitVec 16) (p : Progress) : CutPart p.out (lineSlot line' o p) (lineSlot line o p) := by
  rw [lineSlot, lineSlot]
  by_cases h32 : 128 ≤ o.toInt
  · rw [if_pos h32, if_pos h32]
    exact .guard hl (List.prefix_append ..) fun hn => by rw [lineBytes_of_prefix hl hn]; exact .refl (List.prefix_append ..)
  rw [if_neg h32, if_neg h32]
  by_cases h16 : 127 ≤ o.toInt
  · rw [if_pos h16, if_pos h16]
    exact .guard hl (List.prefix_append ..) fun hn => by rw [lineBytes_of_prefix hl hn]; exact .refl (List.prefix_append ..)
  · rw [if_neg h16, if_neg h16]
    exact .refl (List.prefix_append ..)

/-- The slots of a block on a cut line. -/
theorem cutPart_lineSlots (os : List (BitVec 16)) (p : Progress) :
    CutPart p.out (lineSlots line' os p) (lineSlots line os p) := by
  induction os generalizing p with
  | nil => exact .refl List.prefix_rfl
  | cons o os ih => exact (cutPart_lineSlot hl o p).goOn ih

theorem cutPart_lineHalf1 (os : List (BitVec 16)) (n : Nat) (p : Progress) :
    CutPart p.out (lineHalf1 line' os n p) (lineHalf1 line os n p) := by
  refine .guard hl (cutPart_lineSlots (List.prefix_refl line) _ { p with cur := p.cur + n }).keeps fun hn => ?_
  rw [lineBytes_of_prefix hl hn]
  exact cutPart_lineSlots hl _ { p with cur := p.cur + n }

theorem cutPart_lineHalf0 (n0 n1 : Nat) (p : Progress) :
    CutPart p.out (lineHalf0 line' n0 n1 p) (lineHalf0 line n0 n1 p) := by
  refine .guard hl (cutPart_lineHalf1 (List.prefix_refl line) _ n1 { p with cur := p.cur + n0 }).keeps fun hn => ?_
  rw [lineBytes_of_prefix hl hn]
  exact cutPart_lineHalf1 hl _ n1 { p with cur := p.cur + n0 }

/-- A block on a cut line (spec/42_block.md R119). -/
theorem cutPart_lineBlock (p : Progress) : CutPart p.out (lineBlock line' p) (lineBlock line p) := by
  rw [lineBlock_eq, lineBlock_eq]
  refine .guard hl (cutPart_lineHalf0 (List.prefix_refl line) _ _ { p with cur := p.cur + 1 }).keeps fun hn => ?_
  rw [getD_of_prefix hl hn]
  exact cutPart_lineHalf0 hl _ _ { p with cur := p.cur + 1 }

/-- The blocks on a cut line. -/
theorem cutPart_lineBlocks (n : Nat) (p : Progress) : CutPart p.out (lineBlocks line' n p) (lineBlocks line n p) := by
  induction n generalizing p with
  | zero => exact .refl List.prefix_rfl
  | succ n ih => exact (cutPart_lineBlock hl p).goOn ih

/-- The remainder on a cut line (spec/43_remainder.md R123). -/
theorem cutPart_lineRest (n : Nat) (p : Progress) : CutPart p.out (lineRest line' n p) (lineRest line n p) := by
  induction n generalizing p with
  | zero => exact .refl List.prefix_rfl
  | succ n ih =>
    rcases hs : lineSingle line' p.cur with ⟨cur, _ | d⟩
    · rw [lineRest_cut hs]
      exact ⟨List.prefix_rfl, lineRest_keeps line (n + 1) p, nofun⟩
    · rw [lineRest_token hs, lineRest_token (lineSingle_of_prefix hl hs)]
      have hnext := ih ({ p with cur := cur }.push (p.acc + d))
      exact ⟨(List.prefix_append ..).trans hnext.keeps, hnext.isPrefix, hnext.goesOn⟩

end

/-- Settles O29: DECODE() is its parts, one after the other. -/
theorem cutInputGivesPrefixOfSlots : Obligations.CutInputGivesPrefixOfSlots := by
  intro line w k
  have hl := List.take_prefix k line
  by_cases hw : w = 0#32
  · simp [decodeLine, hw]
  rcases hs : lineSingle (line.take k) 0 with ⟨cur, _ | v⟩
  · rw [decodeLine_cut hw hs]
    exact List.nil_prefix
  · rw [decodeLine_token hw hs, decodeLine_token hw (lineSingle_of_prefix hl hs)]
    exact ((cutPart_lineBlocks hl _ _).goOn (cutPart_lineRest hl _)).isPrefix

end Sys2Proof.Machine
end

section
/-! PROOFS. DECODE() from any phase on (spec/40_sequencer.md R80): what it makes of the rest of the line from a running block's
registers, and that every step of the block leaves that as it was. -/

namespace Sys2Proof.Machine

/-! ### DECODE() from the middle -/

/-- DECODE()'s progress where a block's registers stand, with the slots `out` final. -/
def Block.progress (b : Block) (out : List Word) : Progress := ⟨out, b.cur.toNat, b.acc⟩

/-- DECODE() from the result `r` of a block's part on, the `k`th block being the next: the other blocks and the remainder. -/
def lineAfter (line : List Byte) (w : Word) (k : Nat) (r : Progress × Bool) : Progress :=
  (goOn (goOn r (lineBlocks line (nblock w - k))) (lineRest line (nrest w))).1

/-- What DECODE() ends with from a block's registers on, with the slots `out` final. -/
def Block.outcome (b : Block) (line : List Byte) (out : List Word) : Progress :=
  match b.phase with
  | .idle => b.progress out
  | .zfill | .first => decodeLine line b.width
  | .bctrl => lineAfter line b.width b.blkcnt.toNat (b.progress out, true)
  | .bpack => lineAfter line b.width (b.blkcnt.toNat + 1)
    (if b.half = 0#1 then lineHalf0 line b.nbit0.toNat b.nbit1.toNat (b.progress out)
      else lineHalf1 line (b.ofs.toList.take 8) b.nbit1.toNat (b.progress out))
  | .bres => lineAfter line b.width (b.blkcnt.toNat + 1)
    (lineSlots line (b.ofs.toList.drop b.slot.toNat) (b.progress out))
  | .rem => (lineRest line (b.width.toNat - b.idx.toNat) (b.progress out)).1

section
variable {line : List Byte} {w : Word} {p : Progress}

/-- While a block is left it comes next. -/
theorem lineAfter_block {k : Nat} (hk : k < nblock w) :
    lineAfter line w k (p, true) = lineAfter line w (k + 1) (lineBlock line p) := by
  obtain ⟨n, hn⟩ : ∃ n, nblock w - k = n + 1 := ⟨nblock w - k - 1, by omega⟩
  rw [lineAfter, lineAfter, hn, show nblock w - (k + 1) = n by omega]
  rfl

/-- After the last block comes the remainder. -/
theorem lineAfter_rest {k : Nat} (hk : nblock w ≤ k) : lineAfter line w k (p, true) = (lineRest line (nrest w) p).1 := by
  rw [lineAfter, Nat.sub_eq_zero_of_le hk]
  rfl

end

section
variable {b : Block} {line : List Byte} {out : List Word}

theorem Block.outcome_idle (h : b.phase = .idle) : b.outcome line out = b.progress out := by rw [outcome, h]
theorem Block.outcome_zfill (h : b.phase = .zfill) : b.outcome line out = decodeLine line b.width := by rw [outcome, h]
theorem Block.outcome_first (h : b.phase = .first) : b.outcome line out = decodeLine line b.width := by rw [outcome, h]
theorem Block.outcome_bctrl (h : b.phase = .bctrl) :
    b.outcome line out = lineAfter line b.width b.blkcnt.toNat (b.progress out, true) := by rw [outcome, h]
theorem Block.outcome_half0 (h : b.phase = .bpack) (hh : b.half = 0#1) :
    b.outcome line out = lineAfter line b.width (b.blkcnt.toNat + 1)
      (lineHalf0 line b.nbit0.toNat b.nbit1.toNat (b.progress out)) := by
  simp only [outcome, h, hh, if_true]
theorem Block.outcome_half1 (h : b.phase = .bpack) (hh : b.half ≠ 0#1) :
    b.outcome line out = lineAfter line b.width (b.blkcnt.toNat + 1)
      (lineHalf1 line (b.ofs.toList.take 8) b.nbit1.toNat (b.progress out)) := by
  simp only [outcome, h, hh, if_false]
theorem Block.outcome_bres (h : b.phase = .bres) :
    b.outcome line out = lineAfter line b.width (b.blkcnt.toNat + 1)
      (lineSlots line (b.ofs.toList.drop b.slot.toNat) (b.progress out)) := by rw [outcome, h]
theorem Block.outcome_rem (h : b.phase = .rem) :
    b.outcome line out = (lineRest line (b.width.toNat - b.idx.toNat) (b.progress out)).1 := by rw [outcome, h]

/-! ### The outcome through the shared operations -/

/-- CUR past the bytes that were read. -/
theorem Block.progress_advance {n : Nat} (hn : b.need n = true) :
    (b.advance n).progress out = { b.progress out with cur := b.cur.toNat + n } := by
  rw [progress, Block.advance_cur_toNat hn]
  rfl

/-- With every block done NEXT() goes on with what is left of the remainder (spec/40_sequencer.md R84). -/
theorem Block.outcome_nextPhase_rest (hk : nblock b.width ≤ b.blkcnt.toNat) :
    b.nextPhase.outcome line out = (lineRest line (b.width.toNat - b.idx.toNat) (b.progress out)).1 := by
  rcases b.nextPhase_cases with ⟨hlast, hb⟩ | ⟨-, hlt, -⟩ | ⟨-, -, hb⟩
  · rw [hb, hlast, Nat.sub_self]
    rfl
  · exact absurd hlt (not_lt.2 hk)
  · rw [hb]
    rfl

/-- At the end of a block NEXT() goes on with the blocks that are left. -/
theorem Block.outcome_nextPhase_block (hw : b.width ≠ 0#32) (hk : b.blkcnt.toNat ≤ nblock b.width)
    (hidx : b.idx.toNat = 1 + 16 * b.blkcnt.toNat) :
    b.nextPhase.outcome line out = lineAfter line b.width b.blkcnt.toNat (b.progress out, true) := by
  have hsplit := nblock_add_nrest hw
  rcases Nat.lt_or_eq_of_le hk with hlt | heq
  · have hne : b.idx ≠ b.width := fun he => by rw [he] at hidx; omega
    rw [Block.nextPhase, if_neg hne, if_pos hlt]
    rfl
  · rw [lineAfter_rest heq.ge, Block.outcome_nextPhase_rest heq.ge, show b.width.toNat - b.idx.toNat = nrest b.width by omega]

/-- After a slot the other slots of the block follow, and after the last of them what is left (spec/42_block.md R118). -/
theorem Block.outcome_nextSlot (hp : b.phase = .bres) (hk : b.blkcnt.toNat < nblock b.width)
    (hidx : b.idx.toNat = 2 + 16 * b.blkcnt.toNat + b.slot.toNat) :
    b.nextSlot.outcome line out = lineAfter line b.width (b.blkcnt.toNat + 1)
      (lineSlots line (b.ofs.toList.drop (b.slot.toNat + 1)) (b.progress out)) := by
  rcases b.nextSlot_cases with ⟨hlast, hb⟩ | ⟨hslot, hb⟩ <;> rw [hb]
  · have hs : b.slot.toNat = 15 := by simp [hlast]
    have hw : b.width ≠ 0#32 := fun h0 => absurd (h0 ▸ hk) (Nat.not_lt_zero _)
    have hcnt := toNat_blkcnt_succ hk
    rw [Block.outcome_nextPhase_block (b := { b with blkcnt := b.blkcnt + 1#28 }) hw (hcnt ▸ hk)
      (by rw [hcnt]; dsimp only; omega), hs, List.drop_eq_nil_of_le (by simp)]
    simp only [hcnt]
    rfl
  · rw [Block.outcome_bres (by exact hp), toNat_slot_succ hslot]
    rfl

end

/-- The first half-block's run gives the first 8 offsets (spec/42_block.md R106). -/
theorem take_unpackOffsets (ofs : Vector (BitVec 16) 16) (run : BitVec 120) (n : Nat) :
    (unpackOffsets ofs run n 0).toList.take 8 = (List.range 8).map (provisional run n) := by
  refine List.ext_getElem (by simp) fun j h1 _ => ?_
  have hj : j < 8 := by simpa using h1
  simp [unpackOffsets, Nat.mod_eq_of_lt hj, hj]

/-- The second half-block's run gives the last 8 offsets, after the first 8 (R106). -/
theorem toList_unpackOffsets (ofs : Vector (BitVec 16) 16) (run : BitVec 120) (n : Nat) :
    (unpackOffsets ofs run n 1).toList = ofs.toList.take 8 ++ (List.range 8).map (provisional run n) := by
  refine List.ext_getElem (by simp) fun j h1 _ => ?_
  have hj : j < 16 := by simpa using h1
  by_cases hlow : j < 8
  · simp [unpackOffsets, hlow, Nat.div_eq_of_lt hlow]
  · have hdiv : j / 8 = 1 := by omega
    have hmod : j % 8 = j - 8 := by omega
    simp [unpackOffsets, List.getElem_append, hlow, hdiv, hmod]

section
variable {line : List Byte} {b : Block} {out : List Word}

/-- After the first run the second half of the block follows, with the offsets of the first. -/
theorem Block.outcome_unpack_half0 (hp : b.phase = .bpack) (hh : b.half = 0#1) (n : BitVec 4) (run : BitVec 120) :
    (b.unpack n run).outcome line out = lineAfter line b.width (b.blkcnt.toNat + 1)
      (lineHalf1 line ((List.range 8).map (provisional run n.toNat)) b.nbit1.toNat (b.progress out)) := by
  rcases b.unpack_cases n run with ⟨-, hb⟩ | ⟨hne, -⟩
  · have hzero : b.half.toNat = 0 := by rw [hh]; rfl
    rw [hb, Block.outcome_half1 (by exact hp) (by simp), hzero, take_unpackOffsets]
    rfl
  · exact absurd hh hne

/-- After the second run the slots follow, with the offsets of both. -/
theorem Block.outcome_unpack_half1 (hh : b.half ≠ 0#1) (n : BitVec 4) (run : BitVec 120) :
    (b.unpack n run).outcome line out = lineAfter line b.width (b.blkcnt.toNat + 1)
      (lineSlots line (b.ofs.toList.take 8 ++ (List.range 8).map (provisional run n.toNat)) (b.progress out)) := by
  rcases b.unpack_cases n run with ⟨h0, -⟩ | ⟨-, hb⟩
  · exact absurd h0 hh
  · rw [hb, Block.outcome_bres rfl, toNat_half_of_ne_zero hh, toList_unpackOffsets]
    rfl

/-- A run of the line that is all there has the offsets of its number (R107, R109). -/
theorem runOffsets_lineBytes {cur n : Nat} (hn : lineNeed line cur n = true) :
    runOffsets (lineBytes line cur n)
      = (List.range 8).map (provisional (BitVec.ofNat 120 (leValue (lineBytes line cur n))) n) := by
  have hlen : (lineBytes line cur n).length = n := by
    rw [lineNeed_eq_true_iff] at hn
    rw [lineBytes, List.length_take, List.length_drop]
    omega
  simp only [runOffsets, hlen]

end

/-- The first half-block has width NBIT0 (spec/42_block.md R106). -/
theorem Block.nbit_half0 {b : Block} (h : b.half = 0#1) : b.nbit = b.nbit0 := if_pos h

/-- The second half-block has width NBIT1 (R106). -/
theorem Block.nbit_half1 {b : Block} (h : b.half ≠ 0#1) : b.nbit = b.nbit1 := if_neg h

/-! ### The outcome through a step of each phase -/

/-- The slots that are final after a block's step: the step finalises one if it moves IDX (spec/10_state.md R26). -/
def Block.finals (b c : Block) (out : List Word) : List Word := if c.idx = b.idx then out else out ++ [c.acc]

theorem Block.finals_same {b c : Block} (h : c.idx = b.idx) (out : List Word) : b.finals c out = out := if_pos h

theorem Block.finals_succ {b c : Block} (h : c.idx = b.idx + 1#32) (out : List Word) :
    b.finals c out = out ++ [c.acc] := if_neg (by rw [h]; simp)

/-- A block after it read `n` bytes and finalised its slot with value `v` (spec/10_state.md R26), before it picks its phase. -/
def Block.past (b : Block) (n : Nat) (v : Word) : Block := { b.advance n with acc := v, idx := b.idx + 1#32 }

@[simp] theorem Block.past_idx (b : Block) (n : Nat) (v : Word) : (b.past n v).idx = b.idx + 1#32 := rfl
@[simp] theorem Block.past_acc (b : Block) (n : Nat) (v : Word) : (b.past n v).acc = v := rfl
@[simp] theorem Block.past_blkcnt (b : Block) (n : Nat) (v : Word) : (b.past n v).blkcnt = b.blkcnt := rfl
@[simp] theorem Block.past_slot (b : Block) (n : Nat) (v : Word) : (b.past n v).slot = b.slot := rfl

theorem Block.finals_past_nextPhase (b : Block) (n : Nat) (v : Word) (out : List Word) :
    b.finals (b.past n v).nextPhase out = out ++ [v] := by
  rw [Block.finals_succ (by simp), Block.nextPhase_acc, Block.past_acc]

theorem Block.finals_past_nextSlot (b : Block) (n : Nat) (v : Word) (out : List Word) :
    b.finals (b.past n v).nextSlot out = out ++ [v] := by
  rw [Block.finals_succ (by simp), Block.nextSlot_acc, Block.past_acc]

/-- Its progress is DECODE()'s after the same bytes and slot. -/
theorem Block.progress_past {b : Block} {n : Nat} (hn : b.need n = true) (v : Word) (out : List Word) :
    (b.past n v).progress (out ++ [v]) = { b.progress out with cur := b.cur.toNat + n }.push v := by
  rw [← Block.progress_advance hn]
  rfl

section
variable {s t : State} {n : Nat}

theorem storeFirst_blk {v : Word} (hidx : s.blk.idx = 0#32) (h : storeFirst v (s.setBlk (s.blk.advance n)) = .next t) :
    t.blk = (s.blk.past n v).nextPhase := by
  obtain ⟨-, rfl⟩ := storeFirst_advance_iff.1 h
  rw [Block.past, hidx]
  rfl

theorem addDelta_blk {d : Word} (h : addDelta d (s.setBlk (s.blk.advance n)) = .next t) :
    t.blk = (s.blk.past n (s.blk.acc + d)).nextPhase := by
  obtain ⟨-, rfl⟩ := addDelta_advance_iff.1 h
  rfl

theorem resolveSlot_blk {o : Word} (h : resolveSlot o (s.setBlk (s.blk.advance n)) = .next t) :
    t.blk = (s.blk.past n (s.blk.acc + o)).nextSlot := by
  obtain ⟨-, rfl⟩ := resolveSlot_advance_iff.1 h
  rfl

end

section
variable {s t : State} {line : List Byte} {out : List Word}

/-- An operation that ends short keeps its progress, past the bytes that it read. -/
theorem outcome_endShort {n : Nat} (hn : s.blk.need n = true) (ht : .next (endShort n s) = (.next t : Result State)) :
    t.blk.outcome line (s.blk.finals t.blk out) = { s.blk.progress out with cur := s.blk.cur.toNat + n } := by
  cases ht
  rw [Block.finals_same (b := s.blk) (c := (endShort n s).blk) rfl, Block.outcome_idle rfl, ← Block.progress_advance hn]
  rfl

/-- The same of an operation that ends with nothing read. -/
theorem outcome_finish (ht : .next s.finish = (.next t : Result State)) :
    t.blk.outcome line (s.blk.finals t.blk out) = s.blk.progress out := by
  cases ht
  rw [Block.finals_same (b := s.blk) (c := s.finish.blk) rfl, Block.outcome_idle rfl]
  rfl

section
variable (h : s.Reads line) (hc : s.blk.consistent = true) (ht : blockStep s = .next t)
include h hc ht

/-- FIRST performs DECODE()'s first pixel (spec/41_first_pixel.md R97, R98). -/
theorem outcome_first_step (hp : s.blk.phase = .first) (hout : s.blk.idx.toNat = out.length) :
    t.blk.outcome line (s.blk.finals t.blk out) = s.blk.outcome line out := by
  obtain ⟨-, hcur, hidx, hacc, hcnt, hw, -⟩ := (Block.consistent_first_iff hp).1 hc
  have hw : s.blk.width ≠ 0#32 := fun h0 => by simp [h0] at hw
  obtain rfl : out = [] := List.length_eq_zero_iff.1 (by rw [← hout, hidx]; rfl)
  have hstart : s.blk.progress [] = ⟨[], 0, 0#32⟩ := by rw [Block.progress, hcur, hacc]; rfl
  rw [Block.outcome_first hp]
  rcases blockStep_first h hp with ⟨n, hline, hn, hr⟩ | ⟨n, v, hline, hn, hr⟩ <;> rw [hr] at ht <;>
    rw [hcur] at hline
  · rw [outcome_endShort hn ht, decodeLine_cut hw hline, hstart, hcur]
  · rw [decodeLine_token hw hline, storeFirst_blk hidx ht, Block.finals_past_nextPhase,
      Block.outcome_nextPhase_block (b := s.blk.past n v) hw (by simp [hcnt]) (by simp [hcnt, hidx]),
      Block.progress_past hn, hstart, hcur, Block.past_blkcnt, hcnt]
    rfl

/-- BCTRL performs a block's control byte (spec/42_block.md R104, R105). -/
theorem outcome_bctrl_step (hp : s.blk.phase = .bctrl) :
    t.blk.outcome line (s.blk.finals t.blk out) = s.blk.outcome line out := by
  obtain ⟨-, hk, -⟩ := (Block.consistent_bctrl_iff (.inl hp)).1 hc
  have hneed : s.blk.need 1 = lineNeed line (s.blk.progress out).cur 1 := h.need 1
  rw [Block.outcome_bctrl hp, lineAfter_block hk, lineBlock_eq, ← hneed]
  cases hn : s.blk.need 1 with
  | false =>
    rw [blockStep_cut h (Block.ctx_bctrl_iff.2 hp) hn] at ht
    exact outcome_finish ht
  | true =>
    obtain ⟨n0, n1, h0, h1, hr⟩ := blockStep_bctrl h hp hn
    rw [hr] at ht
    cases ht
    rw [Block.finals_same (by rfl), State.setBlk_blk, Block.outcome_half0 rfl rfl]
    simp only [Block.setWidths_nbit0, Block.setWidths_nbit1, h0, h1]
    have hprog : ((s.blk.advance 1).setWidths n0 n1).progress out = _ := Block.progress_advance hn
    rw [hprog]
    rfl

omit hc in
/-- BPACK performs a run of a half-block (spec/42_block.md R106). -/
theorem outcome_bpack_step (hp : s.blk.phase = .bpack) :
    t.blk.outcome line (s.blk.finals t.blk out) = s.blk.outcome line out := by
  have hneed : s.blk.need s.blk.nbit.toNat = lineNeed line (s.blk.progress out).cur s.blk.nbit.toNat := h.need _
  cases hn : s.blk.need s.blk.nbit.toNat with
  | false =>
    rw [blockStep_cut h (Block.ctx_bpack_iff.2 ⟨hp, rfl⟩) hn] at ht
    rw [outcome_finish ht]
    by_cases hh : s.blk.half = 0#1
    · rw [Block.outcome_half0 hp hh, lineHalf0, ← Block.nbit_half0 hh, ← hneed, hn]
      rfl
    · rw [Block.outcome_half1 hp hh, lineHalf1, ← Block.nbit_half1 hh, ← hneed, hn]
      rfl
  | true =>
    have hruns := runOffsets_lineBytes (hneed ▸ hn)
    rw [blockStep_bpack h hp hn] at ht
    cases ht
    rw [Block.finals_same (by simp), State.setBlk_blk]
    by_cases hh : s.blk.half = 0#1
    · rw [Block.outcome_half0 hp hh, lineHalf0, ← Block.nbit_half0 hh, ← hneed, hn, hruns,
        Block.outcome_unpack_half0 (by exact hp) (by exact hh), Block.progress_advance hn]
      rfl
    · rw [Block.outcome_half1 hp hh, lineHalf1, ← Block.nbit_half1 hh, ← hneed, hn, hruns,
        Block.outcome_unpack_half1 (by exact hh), Block.progress_advance hn]
      rfl

/-- BRES performs one slot of a block (spec/42_block.md R112). -/
theorem outcome_bres_step (hp : s.blk.phase = .bres) :
    t.blk.outcome line (s.blk.finals t.blk out) = s.blk.outcome line out := by
  obtain ⟨-, hk, hidx⟩ := (Block.consistent_bres_iff hp).1 hc
  have hnext := toNat_succ_of_lt (Block.idx_lt_width hc (.inr (.inl hp)))
  have hslots : s.blk.ofs.toList.drop s.blk.slot.toNat = s.blk.slotOffset :: s.blk.ofs.toList.drop (s.blk.slot.toNat + 1) :=
    List.drop_eq_getElem_cons (by rw [Vector.length_toList]; exact s.blk.slot.isLt)
  rw [Block.outcome_bres hp, hslots, lineSlots]
  rcases blockStep_bres (p := s.blk.progress out) h hp rfl with ⟨hline, hr⟩ | ⟨n, d, hline, hn, hr⟩ <;> rw [hr] at ht <;>
    rw [hline]
  · exact outcome_finish ht
  · rw [resolveSlot_blk ht, Block.finals_past_nextSlot,
      Block.outcome_nextSlot (b := s.blk.past n (s.blk.acc + d)) hp hk
        (by rw [Block.past_idx, hnext, Block.past_blkcnt, Block.past_slot]; omega),
      Block.progress_past hn]
    rfl

/-- REM performs one token of the remainder (spec/43_remainder.md R123). -/
theorem outcome_rem_step (hp : s.blk.phase = .rem) :
    t.blk.outcome line (s.blk.finals t.blk out) = s.blk.outcome line out := by
  obtain ⟨-, hk, -, hidx⟩ := (Block.consistent_rem_iff hp).1 hc
  have hnext := toNat_succ_of_lt hidx
  have hleft : s.blk.width.toNat - s.blk.idx.toNat = s.blk.width.toNat - (s.blk.idx + 1#32).toNat + 1 := by omega
  rw [Block.outcome_rem hp, hleft]
  rcases blockStep_rem h hp with ⟨n, hline, hn, hr⟩ | ⟨n, d, hline, hn, hr⟩ <;> rw [hr] at ht
  · rw [outcome_endShort hn ht, lineRest_cut (p := s.blk.progress out) hline]
  · rw [lineRest_token (p := s.blk.progress out) hline, addDelta_blk ht,
      Block.finals_past_nextPhase, Block.outcome_nextPhase_rest (b := s.blk.past n (s.blk.acc + d)) hk.ge,
      Block.progress_past hn]
    rfl

omit h in
/-- ZFILL stands before all of DECODE(), and ends it for WIDTH = 0 (spec/40_sequencer.md R82, R83). -/
theorem outcome_zfill_step (hp : s.blk.phase = .zfill) (hout : s.blk.idx.toNat = out.length) :
    t.blk.outcome line (s.blk.finals t.blk out) = s.blk.outcome line out := by
  obtain ⟨-, hcur, hidx, hacc, -⟩ := (Block.consistent_zfill_iff hp).1 hc
  rw [blockStep_of_zfill hp] at ht
  rw [Block.outcome_zfill hp]
  rcases zfillStep_next_iff.1 ht with ⟨hw, rfl⟩ | ⟨-, -, rfl⟩
  · obtain rfl : out = [] := List.length_eq_zero_iff.1 (by rw [← hout, hidx]; rfl)
    rw [outcome_finish rfl, Block.progress, hcur, hacc, decodeLine, if_pos hw]
    rfl
  · rw [Block.finals_same (by rfl), State.setBlk_blk]
    by_cases hlast : s.blk.zi + 1#32 = s.blk.width
    · rw [Block.outcome_first (by simp [Block.nextZero, hlast]), Block.nextZero_width]
    · rw [Block.outcome_zfill (by simp [Block.nextZero, hlast]), Block.nextZero_width]

/-- No step changes what DECODE() ends with (spec/40_sequencer.md R80). -/
theorem blockStep_outcome (hout : s.blk.idx.toNat = out.length) :
    t.blk.outcome line (s.blk.finals t.blk out) = s.blk.outcome line out := by
  cases hp : s.blk.phase with
  | idle =>
    rw [blockStep_of_idle hp] at ht
    cases ht
    rw [Block.finals_same rfl]
  | zfill => exact outcome_zfill_step hc ht hp hout
  | first => exact outcome_first_step h hc ht hp hout
  | bctrl => exact outcome_bctrl_step h hc ht hp
  | bpack => exact outcome_bpack_step h ht hp
  | bres => exact outcome_bres_step h hc ht hp
  | rem => exact outcome_rem_step h hc ht hp

end
end

end Sys2Proof.Machine
end

section
/-! PROOFS. The run of a whole operation: the machine's phase steps perform DECODE() within R92's bound (spec/40_sequencer.md
R80, R91, R92). -/

namespace Sys2Proof.Machine

/-! ### Slots stored in order -/

theorem storeSlots_append (b : Block) (m : Memory) (i : Nat) (vs : List Word) (v : Word) :
    storeSlots b m i (vs ++ [v]) = Memory.writeWord (storeSlots b m i vs) (b.slotAddr (i + vs.length)) v := by
  induction vs generalizing m i with
  | nil => rfl
  | cons u vs ih => rw [List.cons_append, storeSlots, ih, storeSlots, List.length_cons, Nat.add_assoc, Nat.add_comm 1]

/-! ### What a step of the block leaves as it was -/

section
variable {s t : State} (h : blockStep s = .next t)
include h

theorem blockStep_backed (x : Nat) : t.backed x = s.backed x := by
  obtain ⟨hothers, hholes, -⟩ := blockStep_sameAround h
  simp [State.backed, State.notMemory, State.blocks, Block.window, (blockStep_sameConfig h).regBase, hothers, hholes]

theorem blockStep_slotOk (i : Nat) : t.slotOk i = s.slotOk i := by
  simp only [State.slotOk, (blockStep_sameConfig h).slotAddr, blockStep_backed h]

/-- Bytes that the step does not write are read as before. -/
theorem blockStep_readBytes {a n : Nat} (hm : ∀ x, a ≤ x → x < a + n → Memory.read t.mem x = Memory.read s.mem x) :
    t.readBytes a n = s.readBytes a n := by
  induction n generalizing a with
  | zero => rfl
  | succ n ih =>
    have hbyte : t.readByte a = s.readByte a := by
      simp only [State.readByte, blockStep_backed h, hm a le_rfl (by omega)]
    have hrest := ih (a := a + 1) fun x h1 h2 => hm x (by omega) (by omega)
    simp only [State.readBytes, hbyte, hrest]

/-- The step leaves the line in the input region, which shares no byte with the output region (spec/20_memory.md R60). -/
theorem blockStep_reads {line : List Byte} (hr : s.Reads line) (hc : s.blk.consistent = true) (hb : s.blk.busy = true)
    (hplaced : s.blk.placed = true) : t.Reads line := by
  obtain ⟨⟨hlen, hread⟩, -⟩ := hr
  have hcfg := blockStep_sameConfig h
  obtain ⟨-, hcur⟩ := blockStep_cur h hc hb
  have hapart : s.blk.outputMeets s.blk.inBase.toNat s.blk.inLen.toNat = false := by
    simp only [Block.placed, Bool.and_eq_true, Bool.not_eq_true'] at hplaced
    exact hplaced.2
  have hsame := blockStep_readBytes h (a := s.blk.inBase.toNat) (n := line.length) fun x h1 h2 =>
    blockStep_memSameExcept h hc x (Block.not_inOutput_of_not_meets hapart ⟨h1, hlen ▸ h2⟩)
  exact ⟨⟨hcfg.inLen ▸ hlen, by rw [hcfg.inBase, hsame, hread]⟩, hlen ▸ hcur⟩

end

/-! ### What a step that ends the operation leaves -/

/-- The flags are as `finish()` gives them (spec/40_sequencer.md R90). -/
def Block.Finished (b : Block) : Prop := b.done = true ∧ b.trunc = b.truncated

theorem Block.nextPhase_finished {b : Block} (h : b.nextPhase.phase = .idle) : b.nextPhase.Finished := by
  rcases b.nextPhase_cases with ⟨-, hb⟩ | ⟨-, -, hb⟩ | ⟨-, -, hb⟩ <;> rw [hb] at h ⊢
  · exact ⟨rfl, rfl⟩
  · cases h
  · cases h

theorem Block.nextSlot_finished {b : Block} (hp : b.phase = .bres) (h : b.nextSlot.phase = .idle) :
    b.nextSlot.Finished := by
  rcases b.nextSlot_cases with ⟨-, hb⟩ | ⟨-, hb⟩ <;> rw [hb] at h ⊢
  · exact Block.nextPhase_finished h
  · exact absurd (hp.symm.trans h) nofun

theorem Block.unpack_ne_idle {b : Block} (hp : b.phase = .bpack) (n : BitVec 4) (run : BitVec 120) :
    (b.unpack n run).phase ≠ .idle := by
  rcases b.unpack_cases n run with ⟨-, hb⟩ | ⟨-, hb⟩ <;> rw [hb]
  · simp [hp]
  · simp

/-- A token ends the operation only by `finish()` (spec/40_sequencer.md R90). -/
theorem TokenStep.finished {s t : State} (h : TokenStep s t) (hi : t.blk.phase = .idle) : t.blk.Finished := by
  cases h with
  | short n _ => exact ⟨rfl, rfl⟩
  | first n v _ _ _ => exact Block.nextPhase_finished hi
  | bctrl n0 n1 _ _ => cases hi
  | bpack run hp _ => exact absurd hi (Block.unpack_ne_idle (by exact hp) _ _)
  | bres n o hp _ _ => exact Block.nextSlot_finished (by exact hp) hi
  | rem n d _ _ _ => exact Block.nextPhase_finished hi

/-- No token moves ZI. -/
theorem TokenStep.zi {s t : State} (h : TokenStep s t) : t.blk.zi = s.blk.zi := by
  cases h with
  | short | bctrl => rfl
  | first | bpack | bres | rem => simp

/-- Once ZFILL is over ZI stands at WIDTH (spec/10_state.md R29). -/
theorem Block.zi_eq_width {b : Block} (hc : b.consistent = true) (hi : b.phase ≠ .idle) (hz : b.phase ≠ .zfill) :
    b.zi = b.width := by
  cases hp : b.phase with
  | idle => exact absurd hp hi
  | zfill => exact absurd hp hz
  | first =>
    obtain ⟨-, -, -, -, -, -, hzi⟩ := (Block.consistent_first_iff hp).1 hc
    exact hzi
  | bctrl => exact ((Block.consistent_bctrl_iff (.inl hp)).1 hc).1.zeroed
  | bpack => exact ((Block.consistent_bctrl_iff (.inr hp)).1 hc).1.zeroed
  | bres => exact ((Block.consistent_bres_iff hp).1 hc).1.zeroed
  | rem => exact ((Block.consistent_rem_iff hp).1 hc).1.zeroed

/-- A step that ends the operation leaves the flags of `finish()`, and every slot zeroed before. -/
theorem blockStep_finished {s t : State} (h : blockStep s = .next t) (hc : s.blk.consistent = true)
    (hb : s.blk.busy = true) (hi : t.blk.phase = .idle) : t.blk.Finished ∧ t.blk.zi = t.blk.width := by
  rcases blockStep_cases h with ⟨hp, -⟩ | ⟨hp, h⟩ | ⟨hidle, hz, h⟩
  · exact absurd hp ((Block.busy_iff _).1 hb)
  · obtain ⟨-, -, -, -, -, hzi⟩ := (Block.consistent_zfill_iff hp).1 hc
    have hw := (zfillStep_phase h).2 hi
    rcases zfillStep_next_iff.1 h with ⟨-, rfl⟩ | ⟨hne, -⟩
    · exact ⟨⟨rfl, rfl⟩, (hzi.resolve_left (by simp [hw])).2.trans hw.symm⟩
    · exact absurd hw hne
  · exact ⟨h.finished hi, by rw [h.zi, h.sameConfig.width, Block.zi_eq_width hc hidle hz]⟩

/-! ### The simulation -/

/-- `s` is a state of the operation that `s₀` started over `line`, with the slots `out` final: the memory is that of the slots
zeroed and finalised so far, and DECODE() from here on ends with what it ends with from the start. -/
structure State.Performs (s₀ : State) (line : List Byte) (s : State) (out : List Word) : Prop where
  around : SameAround s₀ s
  config : s₀.blk.SameConfig s.blk
  consistent : s.blk.consistent = true
  reads : s.Reads line
  idx : s.blk.idx.toNat = out.length
  mem : s.mem = storeSlots s₀.blk (storeSlots s₀.blk s₀.mem 0 (List.replicate s.blk.zi.toNat 0#32)) 0 out
  outcome : s.blk.outcome line out = decodeLine line s₀.blk.width
  finished : s.blk.phase = .idle → s.blk.Finished ∧ s.blk.zi = s.blk.width

section
variable {s₀ s t : State} {line : List Byte} {out : List Word}

theorem SameAround.trans {u : State} (h : SameAround s t) (h' : SameAround t u) : SameAround s u := by
  obtain ⟨h1, h2, h3, h4, h5, h6⟩ := h
  obtain ⟨h1', h2', h3', h4', h5', h6'⟩ := h'
  exact ⟨h1'.trans h1, h2'.trans h2, h3'.trans h3, h4'.trans h4, h5'.trans h5, h6'.trans h6⟩

theorem Block.SameConfig.trans {b c d : Block} (h : b.SameConfig c) (h' : c.SameConfig d) : b.SameConfig d :=
  ⟨h'.regBase.trans h.regBase, h'.inBase.trans h.inBase, h'.inLen.trans h.inLen, h'.outHi.trans h.outHi,
    h'.width.trans h.width⟩

theorem Block.SameConfig.placed {b c : Block} (h : b.SameConfig c) : c.placed = b.placed := by
  have hout : c.outBase = b.outBase := by simp [Block.outBase, h.outHi]
  simp only [Block.placed, Block.outputMeets, hout, h.inBase, h.inLen, h.width]

/-- The state that START leaves begins the operation (spec/44_host_interface.md R135). -/
theorem State.Performs.start (hstart : s.blk = s.blk.start) (hline : s.HoldsLine line) : s.Performs line s [] := by
  have hphase : s.blk.phase = .zfill := congrArg Block.phase hstart
  have hcur : s.blk.cur = 0#32 := congrArg Block.cur hstart
  have hidx : s.blk.idx = 0#32 := congrArg Block.idx hstart
  have hzi : s.blk.zi = 0#32 := congrArg Block.zi hstart
  exact {
    around := ⟨rfl, rfl, rfl, rfl, rfl, rfl⟩
    config := ⟨rfl, rfl, rfl, rfl, rfl⟩
    consistent := (congrArg Block.consistent hstart).trans (Block.start_consistent _)
    reads := ⟨hline, by simp [hcur]⟩
    idx := by rw [hidx]; rfl
    mem := by rw [hzi]; rfl
    outcome := Block.outcome_zfill hphase
    finished := fun hi => by simp [hphase] at hi }

section
variable (h : s₀.Performs line s out) (ht : blockStep s = .next t)
include h ht

/-- The step's write is the next slot zeroed or finalised (spec/20_memory.md R52). -/
theorem State.Performs.mem_step : t.mem
    = storeSlots s₀.blk (storeSlots s₀.blk s₀.mem 0 (List.replicate t.blk.zi.toNat 0#32)) 0 (s.blk.finals t.blk out) := by
  have hslot (i : Nat) : s.blk.slotAddr i = s₀.blk.slotAddr i := h.config.slotAddr i
  rcases blockStep_cases ht with ⟨-, rfl⟩ | ⟨hp, hz⟩ | ⟨-, -, htok⟩
  · rw [Block.finals_same rfl]
    exact h.mem
  · obtain ⟨-, -, hidx, -, -, hzi⟩ := (Block.consistent_zfill_iff hp).1 h.consistent
    obtain rfl : out = [] := List.length_eq_zero_iff.1 (by rw [← h.idx, hidx]; rfl)
    rcases zfillStep_next_iff.1 hz with ⟨-, rfl⟩ | ⟨hw, -, rfl⟩
    · rw [Block.finals_same (by rfl)]
      exact h.mem
    · have hnext := toNat_succ_of_lt (hzi.resolve_right fun hzi => hw hzi.1)
      have hmem : s.mem = storeSlots s₀.blk s₀.mem 0 (List.replicate s.blk.zi.toNat 0#32) := h.mem
      rw [Block.finals_same (by rfl), State.setBlk_blk, Block.nextZero_zi, hnext, List.replicate_succ', storeSlots_append,
        List.length_replicate, Nat.zero_add, ← hmem, ← hslot]
      rfl
  · rw [htok.zi]
    rcases htok.stores h.consistent with ⟨hmem, hidx, -⟩ | ⟨-, -, hidx, hmem⟩
    · rw [Block.finals_same hidx, hmem, h.mem]
    · rw [Block.finals_succ hidx, hmem, storeSlots_append, Nat.zero_add, ← h.mem, ← h.idx, hslot]

theorem State.Performs.idx_step : t.blk.idx.toNat = (s.blk.finals t.blk out).length := by
  rcases blockStep_idx ht h.consistent with hidx | ⟨-, hidx⟩
  · rw [Block.finals_same hidx, hidx, h.idx]
  · rw [Block.finals, if_neg fun he => by rw [he] at hidx; omega, List.length_append, hidx, h.idx]
    rfl

/-- Every step of the running block is a step of the operation. -/
theorem State.Performs.step (hplaced : s₀.blk.placed = true) (hb : s.blk.busy = true) :
    s₀.Performs line t (s.blk.finals t.blk out) where
  around := h.around.trans (blockStep_sameAround ht)
  config := h.config.trans (blockStep_sameConfig ht)
  consistent := blockStep_consistent ht h.consistent
  reads := blockStep_reads ht h.reads h.consistent hb (h.config.placed.trans hplaced)
  idx := h.idx_step ht
  mem := h.mem_step ht
  outcome := (blockStep_outcome h.reads h.consistent ht h.idx).trans h.outcome
  finished := blockStep_finished ht h.consistent hb

end

/-- From any state of the operation the machine reaches IDLE within the steps left (spec/40_sequencer.md R92). -/
theorem State.Performs.run (h : s₀.Performs line s out) (hsched : s₀.sched = []) (hplaced : s₀.blk.placed = true)
    (hslots : ∀ i, i < s.blk.width.toNat → s.slotOk i = true) :
    ∃ n t out', n ≤ s.blk.stepsLeft ∧ runSteps n s = .next t ∧ t.blk.phase = .idle ∧ s₀.Performs line t out' := by
  induction hleft : s.blk.stepsLeft using Nat.strong_induction_on generalizing s out with
  | _ k ih =>
    by_cases hi : s.blk.phase = .idle
    · exact ⟨0, s, out, Nat.zero_le _, rfl, hi, h⟩
    have hb := (Block.busy_iff _).2 hi
    obtain ⟨u, hu⟩ := h.reads.blockStep_next h.consistent hslots
    have hlt := blockStep_stepsLeft_lt hu h.consistent hb
    have hslots' (i : Nat) (hw : i < u.blk.width.toNat) : u.slotOk i = true := by
      rw [blockStep_slotOk hu]
      exact hslots i ((blockStep_sameConfig hu).width ▸ hw)
    obtain ⟨n, t, out', hn, hrun, hidle, hend⟩ := ih _ (hleft ▸ hlt) (h.step hu hplaced hb) hslots' rfl
    refine ⟨n + 1, t, out', by omega, ?_, hidle, hend⟩
    obtain ⟨-, -, -, -, -, hsame⟩ := h.around
    rw [runSteps, step_of_sched_nil (hsame.trans hsched), hu, andThen_next, hrun]

end

/-- Settles O27: the run of the operation from START, at its end in IDLE. -/
theorem phaseStepsPerformDecode : Obligations.PhaseStepsPerformDecode := by
  intro s line hsched hstart hplaced hline hslots
  have hbound : s.blk.stepsLeft = stepBound s.blk.width :=
    (congrArg Block.stepsLeft hstart).trans (Block.start_stepsLeft _)
  obtain ⟨n, t, out, hn, hrun, hidle, hend⟩ := (State.Performs.start hstart hline).run hsched hplaced hslots
  obtain ⟨⟨hdone, htrunc⟩, hzi⟩ := hend.finished hidle
  have hwidth := hend.config.width
  have hresult : t.blk.progress out = decodeLine line s.blk.width := (Block.outcome_idle hidle).symm.trans hend.outcome
  rw [← hresult]
  refine ⟨n, t, hbound ▸ hn, hrun, hidle, hdone, hend.idx, rfl, ?_, ?_, hend.around⟩
  · rw [htrunc, Block.truncated, hend.idx, hwidth]
    rfl
  · rw [hend.mem, hzi, hwidth]
    rfl

end Sys2Proof.Machine
end

section
/-! PROOFS. The first pixel (spec/41_first_pixel.md): the literals of a single-pixel token as numbers (spec/30_encoding.md R63,
R65), and the FIRST step for each of its forms (R98 to R101). -/

namespace Sys2Proof

/-! ### Literals from their bytes (R65) -/

/-- One more low byte below a little-endian number. -/
theorem ofNat_lowByte {w : Nat} (b : Byte) (v : Nat) :
    BitVec.ofNat (w + 8) (b.toNat + 256 * v) = BitVec.ofNat w v ++ b := by
  apply BitVec.eq_of_toNat_eq
  have hhigh : (b.toNat + 256 * v) / 2 ^ 8 = v := by omega
  rw [BitVec.toNat_append, ← Nat.shiftLeft_add_eq_or_of_lt b.isLt, BitVec.toNat_ofNat, BitVec.toNat_ofNat, Nat.shiftLeft_eq,
    Nat.add_comm w 8, Nat.pow_add, Nat.mod_mul, hhigh]
  omega

theorem ofNat_leValue_two (lo hi : Byte) : BitVec.ofNat 16 (leValue [lo, hi]) = hi ++ lo := by
  rw [leValue, ofNat_lowByte (w := 8)]
  simp [leValue]

theorem ofNat_leValue_four (b0 b1 b2 b3 : Byte) : BitVec.ofNat 32 (leValue [b0, b1, b2, b3]) = b3 ++ b2 ++ b1 ++ b0 := by
  rw [leValue, ofNat_lowByte (w := 24), leValue, ofNat_lowByte (w := 16)]
  exact congrArg (· ++ b1 ++ b0) (ofNat_leValue_two b2 b3)

section
variable {e : DecodeError} {rest : List Byte}

/-- LE16. -/
theorem readNumber_two (f : BitVec 16 → Instr) (lo hi : Byte) :
    readNumber e 2 f (lo :: hi :: rest) = .ok (f (hi ++ lo), rest) :=
  congrArg (fun lit => Except.ok (f lit, rest)) (ofNat_leValue_two lo hi)

/-- LE32. -/
theorem readNumber_four (f : Word → Instr) (b0 b1 b2 b3 : Byte) :
    readNumber e 4 f (b0 :: b1 :: b2 :: b3 :: rest) = .ok (f (b3 ++ b2 ++ b1 ++ b0), rest) :=
  congrArg (fun lit => Except.ok (f lit, rest)) (ofNat_leValue_four b0 b1 b2 b3)

end

end Sys2Proof

namespace Sys2Proof.Machine

/-! ### The value of a single-pixel token (R63, R65) -/

theorem biased_eq_ofInt (b : Byte) : biased b = BitVec.ofInt 32 ((b.toNat : Int) - 127) := by
  have hb : BitVec.ofNat 32 b.toNat = b.setWidth 32 := BitVec.ofNat_toNat 32 b
  rw [biased, Int.sub_eq_add_neg, BitVec.ofInt_add, BitVec.ofInt_natCast, hb, BitVec.sub_eq_add_neg]
  rfl

theorem literal16_eq_ofInt (lit : BitVec 16) : literal16 lit = BitVec.ofInt 32 lit.toInt := rfl

/-! ### The FIRST step (R98) -/

section
variable {s : State}

/-- A token of `n` bytes worth `v`, past those bytes, finalises slot 0. -/
theorem storeFirst_stores (hslot : s.slotOk 0 = true) (n : Nat) (v : Word) :
    ∃ t, storeFirst v (s.setBlk (s.blk.advance n)) = .next t ∧ SlotStored s t 0 v
      ∧ t.blk = { s.blk.advance n with acc := v, idx := 1#32 }.nextPhase :=
  ⟨_, storeFirst_advance_iff.2 ⟨hslot, rfl⟩, State.storeSlot_slotStored hslot v _, rfl⟩

variable (hp : s.blk.phase = .first)
include hp

theorem exec_pixB_eq (b : Byte) (hn : s.blk.need 1 = true) :
    exec (.pixB b) s = storeFirst (biased b) (s.setBlk (s.blk.advance 1)) := by
  rw [exec, execPixB, decide_eq_true hp, inContext_true, consume_need hn]

theorem exec_pixS16_eq (lit : BitVec 16) (hn : s.blk.need 3 = true) :
    exec (.pixS16 lit) s = storeFirst (literal16 lit) (s.setBlk (s.blk.advance 3)) := by
  rw [exec, execPixS16, decide_eq_true hp, inContext_true, consume_consume hn]

theorem exec_pixS32_eq (lit : Word) (hn : s.blk.need 5 = true) :
    exec (.pixS32 lit) s = storeFirst (literal32 lit) (s.setBlk (s.blk.advance 5)) := by
  rw [exec, execPixS32, decide_eq_true hp, inContext_true, consume_consume hn]

end

/-- Settles O30: a byte below 254 is the whole token, and its value is the byte less 127. -/
theorem pixBStoresBiasedByte : Obligations.PixBStoresBiasedByte := by
  refine ⟨fun b rest hb => ?_, fun b s hp hn hslot => ?_⟩
  · rw [decode]
    exact decodeSingle_short (by bv_omega) (by bv_omega)
  · rw [exec_pixB_eq hp b hn, ← biased_eq_ofInt]
    exact storeFirst_stores hslot 1 (biased b)

/-- Settles O31: the value is the two literal bytes, sign-extended. -/
theorem pixS16StoresSignedLiteral : Obligations.PixS16StoresSignedLiteral := by
  refine ⟨fun lo hi _ => ?_, fun lit s hp hn hslot => ?_⟩
  · rw [decode]
    exact decodeSingle_escShort.trans (readNumber_two .pixS16 lo hi)
  · rw [exec_pixS16_eq hp lit hn, ← literal16_eq_ofInt]
    exact storeFirst_stores hslot 3 (literal16 lit)

/-- Settles O32: the value is the four literal bytes. -/
theorem pixS32StoresLiteral : Obligations.PixS32StoresLiteral := by
  refine ⟨fun b0 b1 b2 b3 _ => ?_, fun lit s hp hn hslot => ?_⟩
  · rw [decode]
    exact decodeSingle_escLong.trans (readNumber_four .pixS32 b0 b1 b2 b3)
  · rw [exec_pixS32_eq hp lit hn]
    exact storeFirst_stores hslot 5 (literal32 lit)

end Sys2Proof.Machine
end

section
/-! PROOFS. A block (spec/42_block.md): the control byte (R104, R105), the packed run of a half-block (R106 to R109), and the
slots, each of which adds its offset or the literal in its place (R112 to R118). -/

namespace Sys2Proof

/-! ### The operands from their bytes -/

/-- A control byte's low and high halves, as numbers (spec/30_encoding.md R66). -/
theorem decodeControl_cons (c : Byte) (rest : List Byte) :
    decodeControl (c :: rest) = .ok (.blk (BitVec.ofNat 4 (c.toNat % 16)) (BitVec.ofNat 4 (c.toNat / 16)), rest) := by
  have hlow : c.extractLsb' 0 4 = BitVec.ofNat 4 (c.toNat % 16) := by
    apply BitVec.eq_of_toNat_eq
    simp
  have hhigh : c.extractLsb' 4 4 = BitVec.ofNat 4 (c.toNat / 16) := by
    rw [BitVec.extractLsb', Nat.shiftRight_eq_div_pow]
  rw [decodeControl, hlow, hhigh]

/-- The number of a run weighs the byte at index `j` by `2 ^ (8 j)`, wherever the indices start (spec/42_block.md R107). -/
theorem sum_zipIdx_eq_leValue (bs : List Byte) (k : Nat) :
    ((bs.zipIdx k).map fun r => r.1.toNat * 2 ^ (8 * r.2)).sum = 2 ^ (8 * k) * leValue bs := by
  induction bs generalizing k with
  | nil => rfl
  | cons b bs ih =>
    have hpow : 2 ^ (8 * (k + 1)) = 2 ^ (8 * k) * 256 := Nat.pow_add ..
    rw [List.zipIdx_cons, List.map_cons, List.sum_cons, ih, hpow, leValue]
    ring

/-- The bytes of a run decode to their number, which fits PACK (spec/30_encoding.md R67). -/
theorem decodeRun_append {n : BitVec 4} {rs : List Byte} (hlen : rs.length = n.toNat) (rest : List Byte) :
    ∃ p : BitVec 120, decodeRun n (rs ++ rest) = .ok (.half n p, rest) ∧ p.toNat = leValue rs := by
  have hlt : leValue rs < 2 ^ (8 * n.toNat) := hlen ▸ leValue_lt rs
  have hfit : leValue rs < 2 ^ 120 := hlt.trans_le (Nat.pow_le_pow_right (by decide) (by omega))
  have hp : (BitVec.ofNat 120 (leValue rs)).toNat = leValue rs := Nat.mod_eq_of_lt hfit
  refine ⟨_, decodeRun_ok_iff.2 ⟨_, hp.symm ▸ hlt, rfl, ?_⟩, hp⟩
  rw [hp, ← hlen, leBytes_leValue]

end Sys2Proof

namespace Sys2Proof.Machine

/-! ### The control byte -/

/-- Settles O34: the byte's halves are the widths, which BCTRL stores. -/
theorem blkSetsBothWidths : Obligations.BlkSetsBothWidths := by
  refine ⟨decodeControl_cons, fun n0 n1 s hp hn => ?_⟩
  rw [exec, execBlk, decide_eq_true hp, inContext_true, consume_need hn]
  rfl

/-! ### A half-block -/

/-- BPACK after its run, both cases as one record (R106). -/
theorem Block.unpack_eq {b : Block} (hp : b.phase = .bpack) (n : BitVec 4) (run : BitVec 120) :
    b.unpack n run = { b with
      pack := run
      ofs := unpackOffsets b.ofs run n.toNat b.half.toNat
      half := if b.half = 0#1 then 1#1 else b.half
      slot := if b.half = 0#1 then b.slot else 0#4
      phase := if b.half = 0#1 then .bpack else .bres } := by
  rcases b.unpack_cases n run with ⟨hh, hb⟩ | ⟨hh, hb⟩ <;> simp [hb, hh, hp]

theorem exec_half_eq {s : State} (hp : s.blk.phase = .bpack) (hn : s.blk.need s.blk.nbit.toNat = true) (run : BitVec 120) :
    exec (.half s.blk.nbit run) s = .next (s.setBlk ((s.blk.advance s.blk.nbit.toNat).unpack s.blk.nbit run)) := by
  have hok : (decide (s.blk.phase = .bpack) && decide (s.blk.nbit = s.blk.nbit)) = true := by simp [hp]
  rw [exec, execHalf, hok, inContext_true, consume_need hn]
  rfl

theorem getElem_unpackOffsets (ofs : Vector (BitVec 16) 16) (pack : BitVec 120) (n h : Nat) (j : Fin 16) :
    (unpackOffsets ofs pack n h)[j] = if j.val / 8 = h then provisional pack n (j.val % 8) else ofs[j] := by
  simp [unpackOffsets]

/-- `zero_at(n)` as R109 writes it, over the integers. -/
theorem zeroAt_cast (n : Nat) : (zeroAt n : Int) = if 1 < n then 2 ^ (n - 1) - 1 else 0 := by
  have hpos := Nat.two_pow_pos (n - 1)
  rw [zeroAt, Nat.one_shiftLeft]
  split_ifs
  · rw [Nat.cast_pred hpos, Nat.cast_pow, Nat.cast_ofNat]
  · rfl

/-- Settles O35: the run's number fits PACK, and its fields less `zero_at` fit the offsets of the half-block that is filled. -/
theorem halfUnpacksEightOffsets : Obligations.HalfUnpacksEightOffsets := by
  refine ⟨fun n rs rest hlen => ?_, fun run s hp hn => ?_⟩
  · obtain ⟨p, hd, hp⟩ := decodeRun_append hlen rest
    refine ⟨p, hd, ?_⟩
    rw [hp, sum_zipIdx_eq_leValue, Nat.mul_zero, Nat.pow_zero, Nat.one_mul]
  · refine ⟨unpackOffsets s.blk.ofs run s.blk.nbit.toNat s.blk.half.toNat, ?_, fun j => ⟨fun hj => ?_, fun hj => ?_⟩⟩
    · rw [exec_half_eq hp hn, Block.unpack_eq (by exact hp)]
      rfl
    · rw [getElem_unpackOffsets, if_pos hj, provisional_toInt run _ (by omega), rawField_eq_mod, Nat.shiftRight_eq_div_pow,
        zeroAt_cast]
    · rw [getElem_unpackOffsets, if_neg hj]

/-! ### The slots -/

/-- The sum of a slot wraps at 32 bits (R117). -/
theorem add_ofInt (a : Word) (x : Int) : a + BitVec.ofInt 32 x = BitVec.ofInt 32 (a.toInt + x) := by
  rw [BitVec.ofInt_add, BitVec.ofInt_toInt]

section
variable {s : State}

/-- A slot of `n` literal bytes worth `x`, past those bytes, finalises slot IDX with ACC plus `x`. -/
theorem resolveSlot_stores (hslot : s.slotOk s.blk.idx.toNat = true) (n : Nat) (x : Int) :
    ∃ t, resolveSlot (BitVec.ofInt 32 x) (s.setBlk (s.blk.advance n)) = .next t
      ∧ SlotStored s t s.blk.idx.toNat (BitVec.ofInt 32 (s.blk.acc.toInt + x))
      ∧ t.blk = { s.blk.advance n with
        acc := BitVec.ofInt 32 (s.blk.acc.toInt + x), idx := s.blk.idx + 1#32 }.nextSlot := by
  rw [← add_ofInt]
  exact ⟨_, resolveSlot_advance_iff.2 ⟨hslot, rfl⟩, State.storeSlot_slotStored hslot _ _, rfl⟩

variable (hp : s.blk.phase = .bres)
include hp

/-- A slot's token is in its context in BRES at an offset of its class (spec/30_encoding.md R62, R70). -/
theorem inContext_slot {k : LitClass} (hk : literalClass s.blk.slotOffset = k) (r : Result State) :
    inContext (s.blk.phase = .bres && literalClass s.blk.slotOffset = k) r = r := by
  rw [decide_eq_true hp, decide_eq_true hk, Bool.and_self, inContext_true]

theorem exec_slotField_eq (ho : s.blk.slotOffset.toInt < 127) :
    exec .slotField s = resolveSlot (BitVec.ofInt 32 s.blk.slotOffset.toInt) (s.setBlk (s.blk.advance 0)) := by
  rw [exec, execSlotField, inContext_slot hp (literalClass_field_iff.2 ho), Block.advance_zero, State.setBlk_self]
  rfl

theorem exec_slotEsc16_eq (lit : BitVec 16) (ho : s.blk.slotOffset.toInt = 127) (hn : s.blk.need 2 = true) :
    exec (.slotEsc16 lit) s = resolveSlot (BitVec.ofInt 32 lit.toInt) (s.setBlk (s.blk.advance 2)) := by
  rw [exec, execSlotEsc16, inContext_slot hp (literalClass_esc16_iff.2 ho), consume_need hn]
  rfl

theorem exec_slotEsc32_eq (lit : Word) (ho : 128 ≤ s.blk.slotOffset.toInt) (hn : s.blk.need 4 = true) :
    exec (.slotEsc32 lit) s = resolveSlot (BitVec.ofInt 32 lit.toInt) (s.setBlk (s.blk.advance 4)) := by
  rw [exec, execSlotEsc32, inContext_slot hp (literalClass_esc32_iff.2 ho), consume_need hn, BitVec.ofInt_toInt]
  rfl

end

/-- Settles O36: the offset's class is the field's, which takes no literal. -/
theorem slotFieldAddsItsOffset : Obligations.SlotFieldAddsItsOffset := by
  refine ⟨fun o bs ho => decodeSlot_field (literalClass_field_iff.2 (by omega)), fun s hp ho hslot => ?_⟩
  have hstores := resolveSlot_stores hslot 0 s.blk.slotOffset.toInt
  rw [← exec_slotField_eq hp (by omega), Block.advance_zero] at hstores
  exact hstores

/-- Settles O37: the offset's class takes the 16-bit literal. -/
theorem slotEsc16AddsItsLiteral : Obligations.SlotEsc16AddsItsLiteral := by
  refine ⟨fun o lo hi _ ho => ?_, fun lit s hp ho hn hslot => ?_⟩
  · exact (decodeSlot_esc16 (literalClass_esc16_iff.2 ho)).trans (readNumber_two .slotEsc16 lo hi)
  · rw [exec_slotEsc16_eq hp lit ho hn]
    exact resolveSlot_stores hslot 2 lit.toInt

/-- Settles O38: the offset's class takes the 32-bit literal. -/
theorem slotEsc32AddsItsLiteral : Obligations.SlotEsc32AddsItsLiteral := by
  refine ⟨fun o b0 b1 b2 b3 _ ho => ?_, fun lit s hp ho hn hslot => ?_⟩
  · exact (decodeSlot_esc32 (literalClass_esc32_iff.2 ho)).trans (readNumber_four .slotEsc32 b0 b1 b2 b3)
  · rw [exec_slotEsc32_eq hp lit ho hn]
    exact resolveSlot_stores hslot 4 lit.toInt

/-- Settles O39: the two branches after a slot, neither of which writes ACC. -/
theorem slotFifteenEndsTheBlock : Obligations.SlotFifteenEndsTheBlock := by
  exact fun b => ⟨fun hslot => if_neg hslot, fun hslot => ⟨if_pos hslot, b.nextSlot_acc⟩⟩

end Sys2Proof.Machine
end

section
/-! PROOFS. The remainder (spec/43_remainder.md): the REM step for each form of a single-pixel token, which adds the token's
value to ACC (R123 to R126). -/

namespace Sys2Proof.Machine

section
variable {s : State}

/-- A token of `n` bytes worth `x`, past those bytes, finalises slot IDX with ACC plus `x`. -/
theorem addDelta_stores (hslot : s.slotOk s.blk.idx.toNat = true) (n : Nat) (x : Int) :
    ∃ t, addDelta (BitVec.ofInt 32 x) (s.setBlk (s.blk.advance n)) = .next t
      ∧ SlotStored s t s.blk.idx.toNat (BitVec.ofInt 32 (s.blk.acc.toInt + x))
      ∧ t.blk = { s.blk.advance n with
        acc := BitVec.ofInt 32 (s.blk.acc.toInt + x), idx := s.blk.idx + 1#32 }.nextPhase := by
  rw [← add_ofInt]
  exact ⟨_, addDelta_advance_iff.2 ⟨hslot, rfl⟩, State.storeSlot_slotStored hslot _ _, rfl⟩

variable (hp : s.blk.phase = .rem)
include hp

theorem exec_dltB_eq (b : Byte) (hn : s.blk.need 1 = true) :
    exec (.dltB b) s = addDelta (BitVec.ofInt 32 ((b.toNat : Int) - 127)) (s.setBlk (s.blk.advance 1)) := by
  rw [exec, execDltB, decide_eq_true hp, inContext_true, consume_need hn, biased_eq_ofInt]

theorem exec_dltS16_eq (lit : BitVec 16) (hn : s.blk.need 3 = true) :
    exec (.dltS16 lit) s = addDelta (BitVec.ofInt 32 lit.toInt) (s.setBlk (s.blk.advance 3)) := by
  rw [exec, execDltS16, decide_eq_true hp, inContext_true, consume_consume hn, literal16_eq_ofInt]

theorem exec_dltS32_eq (lit : Word) (hn : s.blk.need 5 = true) :
    exec (.dltS32 lit) s = addDelta (BitVec.ofInt 32 lit.toInt) (s.setBlk (s.blk.advance 5)) := by
  rw [exec, execDltS32, decide_eq_true hp, inContext_true, consume_consume hn, literal32, BitVec.ofInt_toInt]

end

/-- Settles O41: a byte below 254 is the whole token, and it adds the byte less 127. -/
theorem dltBAddsBiasedByte : Obligations.DltBAddsBiasedByte := by
  refine ⟨fun b rest hb => ?_, fun b s hp hn hslot => ?_⟩
  · rw [decode]
    exact decodeSingle_short (by bv_omega) (by bv_omega)
  · rw [exec_dltB_eq hp b hn]
    exact addDelta_stores hslot 1 ((b.toNat : Int) - 127)

/-- Settles O42: the token adds its two literal bytes, sign-extended. -/
theorem dltS16AddsSignedLiteral : Obligations.DltS16AddsSignedLiteral := by
  refine ⟨fun lo hi _ => ?_, fun lit s hp hn hslot => ?_⟩
  · rw [decode]
    exact decodeSingle_escShort.trans (readNumber_two .dltS16 lo hi)
  · rw [exec_dltS16_eq hp lit hn]
    exact addDelta_stores hslot 3 lit.toInt

/-- Settles O43: the token adds its four literal bytes. -/
theorem dltS32AddsLiteral : Obligations.DltS32AddsLiteral := by
  refine ⟨fun b0 b1 b2 b3 _ => ?_, fun lit s hp hn hslot => ?_⟩
  · rw [decode]
    exact decodeSingle_escLong.trans (readNumber_four .dltS32 b0 b1 b2 b3)
  · rw [exec_dltS32_eq hp lit hn]
    exact addDelta_stores hslot 5 lit.toInt

end Sys2Proof.Machine
end

section
/-! PROOFS. The host interface (spec/44_host_interface.md): what a register reads back (R131), the writes that are stored or
ignored (R132 to R134, R136, R137), and START (R135). -/

namespace Sys2Proof.Machine

section
variable {s : State}

/-! ### START -/

theorem exec_hostStart_idle (hidle : s.blk.phase = .idle) (hduty : ¬s.BreaksDuty) (data : Word) :
    exec (.hostStart data) s = .next (s.setBlk s.blk.start) :=
  startOperation_next_iff.2 (.inr ⟨(Block.not_busy_iff _).2 hidle, State.brokenDuty_eq_none_iff.2 hduty, rfl⟩)

theorem exec_hostStart_busy (hbusy : s.blk.busy = true) (data : Word) : exec (.hostStart data) s = .next s :=
  startOperation_next_iff.2 (.inl ⟨hbusy, rfl⟩)

/-! ### The configuration registers -/

/-- A configuration write in IDLE answers the block as the write leaves it. -/
theorem next_writeConfig_idle (hidle : s.blk.phase = .idle) (f : Block → Block) :
    (.next (writeConfig f s) : Result State) = .next (s.setBlk (f s.blk)) := by
  rw [writeConfig_idle ((Block.not_busy_iff _).2 hidle)]

/-- A configuration write while the block runs answers the same state. -/
theorem next_writeConfig_busy (hbusy : s.blk.busy = true) (f : Block → Block) :
    (.next (writeConfig f s) : Result State) = .next s := by
  rw [writeConfig_busy hbusy]

end

/-- Bits 31:2 of a word above two zeros are the word with its low two bits cleared (R133). -/
theorem extractLsb'_append_zero (w : Word) : w.extractLsb' 2 30 ++ 0#2 = w &&& 0xFFFFFFFC#32 :=
  calc w.extractLsb' 2 30 ++ 0#2
      = (w.extractLsb' 2 30 ++ w.extractLsb' 0 2) &&& (BitVec.allOnes 30 ++ 0#2) := by
        rw [BitVec.and_append, BitVec.and_allOnes, BitVec.and_zero]
    _ = w &&& 0xFFFFFFFC#32 := congrArg₂ _ (BitVec.extractLsb'_append_extractLsb' (w := 30)) (by decide)

/-! ### What a register reads back -/

/-- A flag's one bit is the flag. -/
theorem flagBit_eq_ofBool (f : Bool) : flagBit f = BitVec.ofBool f := by cases f <;> rfl

/-- STATUS bit by bit (R131; spec/10_state.md R18). -/
theorem Block.getLsbD_statusWord (b : Block) (k : Nat) :
    b.statusWord.getLsbD k = if k = 0 then b.busy else if k = 1 then b.done else if k = 2 then b.trunc else false := by
  simp only [statusWord, flagBit_eq_ofBool, BitVec.getLsbD_setWidth, BitVec.getLsbD_append]
  match k with
  | 0 | 1 | 2 => simp
  | k + 3 => simp

/-- The stored bits of OUT_BASE count words of four bytes (spec/10_state.md R21). -/
theorem Block.outBase_toNat (b : Block) : b.outBase.toNat = 4 * b.outHi.toNat := by
  rw [outBase, BitVec.toNat_append, BitVec.toNat_ofNat, Nat.shiftLeft_eq]
  simp [Nat.mul_comm]

/-! ### The obligations -/

/-- Settles O44: in IDLE, with no duty broken, START answers the started block. -/
theorem startClearsAndEntersZfill : Obligations.StartClearsAndEntersZfill :=
  fun data _ hidle hduty => exec_hostStart_idle hidle hduty data

/-- Settles O48: the bits stored are the data's bits 31:2, which read back above two zeros. -/
theorem outBaseWriteDropsLowBits : Obligations.OutBaseWriteDropsLowBits :=
  fun data _ hidle => ⟨data.extractLsb' 2 30, next_writeConfig_idle hidle _, extractLsb'_append_zero data⟩

/-- Settles O50: a read answers the register; STATUS is read bit by bit, and OUT_BASE as its stored bits above two zeros. -/
theorem readReturnsTheRegister : Obligations.ReadReturnsTheRegister :=
  fun _ s => ⟨rfl, rfl, s.blk.getLsbD_statusWord, rfl, rfl, s.blk.outBase_toNat, rfl, rfl, rfl⟩

/-- Settles O46: a write starts the block or stores a configuration register, both in IDLE only, or it has no effect. -/
theorem busyIgnoresEveryHostWrite : Obligations.BusyIgnoresEveryHostWrite := by
  intro r data s hphase
  have hbusy : s.blk.busy = true := s.blk.busy_iff.2 hphase
  cases r with
  | ctrl =>
    rw [writeInstr]
    split_ifs
    · exact exec_hostStart_busy hbusy data
    · rfl
  | inBase | inLen | outBase | width => exact next_writeConfig_busy hbusy _
  | status | produced | consumed => rfl

/-- Settles O47: each of the three is a configuration write. -/
theorem configWritesStoreWhenIdle : Obligations.ConfigWritesStoreWhenIdle :=
  fun _ _ hidle => ⟨next_writeConfig_idle hidle _, next_writeConfig_idle hidle _, next_writeConfig_idle hidle _⟩

/-- Settles O49: each of the four answers the state it is given, whatever the phase. -/
theorem readOnlyWritesDoNothing : Obligations.ReadOnlyWritesDoNothing :=
  fun _ _ => ⟨rfl, rfl, rfl, rfl⟩

end Sys2Proof.Machine
end

section
/-! PROOFS. Several blocks on one platform (spec/60_exceptions.md): a step changes the registers of at most one of them
(R157). -/

namespace Sys2Proof.Machine

/-- Settles O51: the agent of the turn acts on the active block, which keeps its REG_BASE, and leaves the others alone. -/
theorem stepChangesAtMostOneBlock : Obligations.StepChangesAtMostOneBlock := by
  intro s t h
  obtain ⟨u, hperm, -, hagent⟩ := step_agentStep h
  have hafter : t.blocks = t.blk :: u.others := congrArg (t.blk :: ·) hagent.others
  exact ⟨u.blk, t.blk, u.others, hperm.symm, .of_eq hafter, hagent.regBase⟩

end Sys2Proof.Machine
end
